-- ==== Sys2Proof/Word.lean ====
section
/-! DEFINITION. The word types of the block. Every value is unsigned (00_scope.md R14). -/

namespace Sys2Proof

/-- One byte of a transfer or of the command buffer (00_scope.md R15). -/
abbrev Byte := BitVec 8

/-- The address of a chip register, `u7` (00_scope.md R5 `REG_ADDR_BITS`). -/
abbrev RegAddr := BitVec 7

/-- The value of a chip register, `u24` (00_scope.md R5 `REG_DATA_BITS`). -/
abbrev RegValue := BitVec 24

/-- A 32-bit word: a register word of a configuration, a burst command word, a delay. -/
abbrev Word32 := BitVec 32

/-- One element of the sample buffer `OUT`: 16 bits, 12 significant (00_scope.md R5 `OUT_SAMPLE_BITS`). -/
abbrev Sample := BitVec 16

end Sys2Proof
end

