-- ==== Sys2Proof/Config.lean ====
section
/-! DEFINITION. What an implementation fixes: the named parameters of 00_scope.md R6 as one record (their values stand in
Machine/Params.lean), and the free values, which the spec leaves to the environment. -/

namespace Sys2Proof

/-- The chip variants, a closed set (00_scope.md R5 `VARIANTS`, 10_state.md R30). -/
inductive Variant where
  | tr13c
  | utr11aip
deriving DecidableEq, Repr

/-- The nine host commands by name (30_encoding.md R80). -/
inductive HostOp where
  | init
  | configure
  | enableTestMode
  | start
  | stop
  | acquireFifo
  | readChipId
  | nextTestWord
  | resetFifo
deriving DecidableEq, Repr

/-- The host commands in the order of 30_encoding.md R80. -/
def HostOp.all : List HostOp :=
  [.init, .configure, .enableTestMode, .start, .stop, .acquireFifo, .readChipId, .nextTestWord, .resetFifo]

namespace Config

/-- The validity test of the FIFO limit (00_scope.md R6 `FIFO_LIMIT_RULE`, 41_control_sequences.md R125). -/
inductive FifoLimitRule where
  | pow2Even
  | even
deriving DecidableEq, Repr

/-- How the LFSR feedback meets the shifted word: they differ only above 0x0FFF (93_implementation_defined.md U9). -/
inductive LfsrCombine where
  | or
  | xor
deriving DecidableEq, Repr

/-- The parameters that the source leaves open (00_scope.md R6), under the spec's names. Every definition of the machine takes
the record as an argument (10_state.md R40: "parameters of the step"). -/
structure Params where
  /-- `DIR_READ`; `DIR_WRITE` is its complement (decision D3). -/
  dirRead : BitVec 1
  /-- `ADDR_MAIN`. -/
  addrMain : RegAddr
  /-- `ADDR_CHIP_ID`. -/
  addrChipId : RegAddr
  /-- `ADDR_SFCTL`. -/
  addrSfctl : RegAddr
  /-- `ADDR_FIFO(v)`. -/
  addrFifo : Variant → RegAddr
  /-- `ADDR_STAT0`: unused by every rule (10_state.md R35). -/
  addrStat0 : Option RegAddr
  /-- `ADDR_STAT1`: unused by every rule (10_state.md R35). -/
  addrStat1 : Option RegAddr
  /-- `ADDR_FSTAT(v)`: unused by every rule (10_state.md R35). -/
  addrFstat : Variant → Option RegAddr
  /-- `GSR0_*_BIT` (10_state.md R37). -/
  gsr0ClkNumErr : Nat
  gsr0SpiBurstErr : Nat
  gsr0MisoHsRead : Nat
  gsr0FouErr : Nat
  /-- `MAIN_*_BIT` (10_state.md R32). -/
  mainFrameStart : Nat
  mainSwReset : Nat
  mainFsmReset : Nat
  mainFifoReset : Nat
  /-- `SFCTL_*` (10_state.md R34). -/
  sfctlCrefHi : Nat
  sfctlCrefLo : Nat
  sfctlLpMode : Nat
  sfctlLfsrEn : Nat
  sfctlPrefixEn : Nat
  /-- `CHIP_ID_*`: the low end of each field (10_state.md R33). -/
  chipIdRfLo : Nat
  chipIdDigitalLo : Nat
  /-- `BURST_TADDR(v)` (30_encoding.md R76). -/
  burstTaddr : Variant → RegAddr
  /-- `BURST_DIR` (30_encoding.md R76). -/
  burstDir : BitVec 1
  /-- `FIFO_LIMIT_RULE` (41_control_sequences.md R125). -/
  fifoLimitRule : FifoLimitRule
  /-- `RF_ID_TR13C`, `none` drops that disjunct (44_chip_id.md R202). -/
  rfIdTr13c : Option (BitVec 8)
  /-- `DIGITAL_ID_UTR11`, `none` drops that disjunct (44_chip_id.md R202). -/
  digitalIdUtr11 : Option (BitVec 16)
  /-- `ACCEPT(v, digital_id, rf_id)`, given the two constants above (44_chip_id.md R202). -/
  accept : Option (BitVec 8) → Option (BitVec 16) → Variant → BitVec 16 → BitVec 8 → Bool
  /-- `LFSR_TAPS`: the positions XOR-ed into the feedback (45_lfsr.md R210). -/
  lfsrTaps : List Nat
  /-- `LFSR_SEED`: the seed of the golden sequence (45_lfsr.md R213). -/
  lfsrSeed : BitVec 16
  /-- How feedback and shifted word are combined (93_implementation_defined.md U9). -/
  lfsrCombine : LfsrCombine
  /-- `CFG_COUNT_BITS`: the width of a configuration's three counts (10_state.md R24). -/
  cfgCountBits : Nat
  /-- `HOST_OP_*`: the host command codes (30_encoding.md R80). -/
  hostOp : HostOp → Byte

/-- Two host commands never share a code (30_encoding.md R80: the code selects the command). -/
def Params.CodesDistinct (p : Params) : Prop := ∀ c d, p.hostOp c = p.hostOp d → c = d

/-- A free byte: a MISO byte, or a byte of `CMD` after a failed burst exchange, that the spec leaves to the environment
(00_scope.md R13, 93_implementation_defined.md U1, U2, U17). It has no body: nothing is known of its value. Log entry 6. -/
opaque freeByte : Nat → Byte

/-- A free answer of the `Exchange` port where the listed answers have ended: whether the exchange fails
(00_scope.md R13). Log entry 6. -/
opaque freeXferFails : Nat → Bool

/-- A free answer of the `RstSet` port where the listed answers have ended: whether the pin operation fails
(00_scope.md R13). Log entry 6. -/
opaque freePinFails : Nat → Bool

end Config
end Sys2Proof
end

