-- ==== Sys2Proof/Machine/Params.lean ====
section
/-! DEFINITION. The values of the parameters: the constants of 00_scope.md R5 and the spec values of 00_scope.md R6, with
the two alternatives that the spec names (decisions D9 and D15). -/

namespace Sys2Proof.Machine

open Sys2Proof.Config

/-- `ADDR_FIFO(v)` at the spec values (10_state.md R30). -/
def addrFifoSpec : Variant → RegAddr
  | .tr13c => 0x60
  | .utr11aip => 0x64

/-- The `digital_id` that TR13C accepts (44_chip_id.md R202). -/
def digitalIdTr13c : BitVec 16 := 3

/-- The `rf_id` values that UTR11AIP accepts (44_chip_id.md R202). -/
def rfIdsUtr11 : List (BitVec 8) := [7, 9, 12]

/-- Whether an identity equals an expected constant, which may be none (44_chip_id.md R202). -/
def matchesExpected {n : Nat} (expected : Option (BitVec n)) (x : BitVec n) : Bool :=
  match expected with
  | some e => x == e
  | none => false

/-- `ACCEPT(v, d, r)` as 44_chip_id.md R202 defines it, for the two open constants given. -/
def acceptSpec (rfIdTr13c : Option (BitVec 8)) (digitalIdUtr11 : Option (BitVec 16)) (v : Variant) (d : BitVec 16)
    (r : BitVec 8) : Bool :=
  match v with
  | .tr13c => d == digitalIdTr13c || matchesExpected rfIdTr13c r
  | .utr11aip => rfIdsUtr11.contains r || matchesExpected digitalIdUtr11 d

/-- The host command codes of 30_encoding.md R80. -/
def hostOpSpec : HostOp → Byte
  | .init => 0x01
  | .configure => 0x02
  | .enableTestMode => 0x03
  | .start => 0x04
  | .stop => 0x05
  | .acquireFifo => 0x06
  | .readChipId => 0x07
  | .nextTestWord => 0x08
  | .resetFifo => 0x09

/-- The spec values of the open parameters (00_scope.md R6). DESIGN CHOICE where the source gives no value: log
entries 1 to 5. `exec` and `step` are the machine at these values; `execWith` and `stepWith` take any (log entry 25). -/
def params : Params where
  dirRead := 0
  addrMain := 0x00
  addrChipId := 0x02
  addrSfctl := 0x06
  addrFifo := addrFifoSpec
  addrStat0 := none
  addrStat1 := none
  addrFstat := fun _ => none
  gsr0ClkNumErr := 0
  gsr0SpiBurstErr := 1
  gsr0MisoHsRead := 2
  gsr0FouErr := 3
  mainFrameStart := 0
  mainSwReset := 1
  mainFsmReset := 2
  mainFifoReset := 3
  sfctlCrefHi := 12
  sfctlCrefLo := 0
  sfctlLpMode := 13
  sfctlLfsrEn := 17
  sfctlPrefixEn := 18
  chipIdRfLo := 0
  chipIdDigitalLo := 8
  burstTaddr := addrFifoSpec
  burstDir := 0
  fifoLimitRule := .pow2Even
  rfIdTr13c := none
  digitalIdUtr11 := none
  accept := acceptSpec
  lfsrTaps := [0, 1, 2, 8]
  lfsrSeed := 0x0001
  lfsrCombine := .or
  cfgCountBits := 32
  hostOp := hostOpSpec

/-- The alternative burst word of decision D9 (30_encoding.md R76), one more value that the machine can be given. -/
def paramsBurstAlternative : Params :=
  { params with burstTaddr := fun _ => 0x7F, burstDir := 1 }

/-- The alternative `FIFO_LIMIT_RULE` of decision D15 (41_control_sequences.md R125), one more value that the machine can
be given. -/
def paramsEvenLimit : Params :=
  { params with fifoLimitRule := .even }

/-- `DIR_WRITE = 1 − DIR_READ` (decision D3). -/
def dirWrite (p : Params) : BitVec 1 := ~~~p.dirRead

/-- `N_REGWORDS`. -/
def nRegwords : Nat := 38

/-- `MAX_BLOCKS(v)` (10_state.md R30). -/
def maxBlocks : Variant → Nat
  | .tr13c => 8192
  | .utr11aip => 2048

/-- `HW_RESET_DELAY_NS`. -/
def hwResetDelayNs : Word32 := 100

/-- `SW_RESET_WAIT_NS`. -/
def swResetWaitNs : Word32 := 100

/-- `SW_RESET_POLLS`. -/
def swResetPolls : Nat := 5

/-- `SW_RESET_POLL_MS`. -/
def swResetPollMs : Word32 := 10

/-- `SW_RESET_SETTLE_MS`. -/
def swResetSettleMs : Word32 := 10

end Sys2Proof.Machine
end

