-- ==== Sys2Proof/Syntax.lean ====
section
/-! DEFINITION. The instructions: one constructor of `Instr` per row of spec/opcode_table.json, with the operand forms of
30_encoding.md R80 and R81, and the two surfaces a request arrives on. -/

namespace Sys2Proof

/-- A configuration field that the block stores and never interprets (10_state.md R24 "opaque"): bytes of any number.
Log entry 15. -/
abbrev Opaque := List Byte

/-- The value the host hands to `CONFIGURE` (10_state.md R24). The three counts are numbers of `CFG_COUNT_BITS` bits (00_scope.md
R6, decision D16); `Machine.configurationFormed` checks it. -/
structure Configuration where
  rxAntennas : Nat
  txAntennas : Opaque
  txPower : Opaque
  ifGain : Opaque
  fLower : Opaque
  fUpper : Opaque
  chirpsPerFrame : Nat
  samplesPerChirp : Nat
  chirpRepTime : Opaque
  frameRepTime : Opaque
  sampleRate : Opaque
  /-- The register words; exactly 38 in a well-formed configuration (00_scope.md R5 `N_REGWORDS`). -/
  words : List Word32
deriving DecidableEq, Repr

/-- The fields of the burst command word, most significant first (30_encoding.md R75). -/
structure BurstFields where
  taddr : RegAddr
  rw : BitVec 1
  saddr : RegAddr
  rwb : BitVec 1
  nbursts : BitVec 7
  pad : BitVec 9
deriving DecidableEq, Repr

/-- One constructor per row of spec/opcode_table.json. -/
inductive Instr where
  /-- `INIT variant`, code 0x01 (R129). -/
  | init (v : Variant)
  /-- `CONFIGURE cfg`, code 0x02 (R130). -/
  | configure (cfg : Configuration)
  /-- `ENABLE_TEST_MODE`, code 0x03 (R131). -/
  | enableTestMode
  /-- `START`, code 0x04 (R132). -/
  | start
  /-- `STOP`, code 0x05 (R133). -/
  | stop
  /-- `ACQUIRE_FIFO cmd, out`, code 0x06 (R162): the two host buffers as they are handed over. -/
  | acquireFifo (cmd : List Byte) (out : List Sample)
  /-- `READ_CHIP_ID`, code 0x07 (R201). -/
  | readChipId
  /-- `NEXT_TEST_WORD w`, code 0x08 (R211). -/
  | nextTestWord (w : BitVec 16)
  /-- `RESET_FIFO`, code 0x09 (R134). -/
  | resetFifo
  /-- `SPI_READ addr`, the read frame (R71, R101). -/
  | spiRead (addr : RegAddr)
  /-- `SPI_WRITE addr, value`, the write frame (R72, R102). -/
  | spiWrite (addr : RegAddr) (value : RegValue)
  /-- `SPI_BURST_READ`, the burst transfer: its command word (R75, R76) and the bytes sent after it (R77). -/
  | spiBurstRead (w : BurstFields) (tail : List Byte)
deriving DecidableEq, Repr

/-- What is issued to the block, as bytes: a host command on the command port (code, then operands: log entry 10), or one
wire transfer handed to the framer by itself (its MOSI bytes: log entry 11). -/
inductive Request where
  | command (bytes : List Byte)
  | transfer (mosi : List Byte)
deriving DecidableEq, Repr

/-- The host command an instruction is, `none` for a wire transfer. -/
def Instr.hostOp : Instr → Option HostOp
  | .init _ => some .init
  | .configure _ => some .configure
  | .enableTestMode => some .enableTestMode
  | .start => some .start
  | .stop => some .stop
  | .acquireFifo _ _ => some .acquireFifo
  | .readChipId => some .readChipId
  | .nextTestWord _ => some .nextTestWord
  | .resetFifo => some .resetFifo
  | .spiRead _ => none
  | .spiWrite _ _ => none
  | .spiBurstRead _ _ => none

end Sys2Proof
end

