-- ==== Sys2Proof/Machine/Bytes.lean ====
section
/-! DEFINITION. Byte order and bit fields of the wire (00_scope.md R15, 20_memory.md R52, 30_encoding.md R70 to R76). -/

namespace Sys2Proof.Machine

open Sys2Proof.Config

/-- `BE24(x)`: three bytes, the most significant first (00_scope.md R15). -/
def be24 (x : RegValue) : List Byte :=
  [x.extractLsb' 16 8, x.extractLsb' 8 8, x.extractLsb' 0 8]

/-- `BE32(x)`: four bytes, the most significant first (00_scope.md R15). -/
def be32 (x : Word32) : List Byte :=
  [x.extractLsb' 24 8, x.extractLsb' 16 8, x.extractLsb' 8 8, x.extractLsb' 0 8]

/-- `BE16(x)`: two bytes, the most significant first. Only the host port's own layout uses it (log entry 10). -/
def be16 (x : BitVec 16) : List Byte :=
  [x.extractLsb' 8 8, x.extractLsb' 0 8]

/-- A number in `n` bytes, the most significant first. Only the host port's own layout uses it (log entry 10). -/
def natBytes : Nat → Nat → List Byte
  | 0, _ => []
  | n + 1, x => BitVec.ofNat 8 (x >>> (8 * n)) :: natBytes n x

/-- `fromBE24([a, b, c])` (00_scope.md R15). -/
def fromBE24 (a b c : Byte) : RegValue := a ++ b ++ c

/-- The 32-bit word whose `BE32` is `[a, b, c, d]`. -/
def fromBE32 (a b c d : Byte) : Word32 := a ++ b ++ c ++ d

/-- The 16-bit value whose `BE16` is `[a, b]`. -/
def fromBE16 (a b : Byte) : BitVec 16 := a ++ b

/-- The command byte of a single-register frame: address in bits 7:1, direction in bit 0 (30_encoding.md R70). -/
def cmdByte (a : RegAddr) (d : BitVec 1) : Byte := a ++ d

/-- The read frame `SPI-R` (30_encoding.md R71). -/
def readFrame (p : Params) (a : RegAddr) : List Byte :=
  [cmdByte a p.dirRead, 0, 0, 0]

/-- The write frame `SPI-W` (30_encoding.md R72). -/
def writeFrame (p : Params) (a : RegAddr) (v : RegValue) : List Byte :=
  cmdByte a (dirWrite p) :: be24 v

/-- The burst command word from its fields, most significant first (30_encoding.md R75). -/
def packBurst (f : BurstFields) : Word32 :=
  f.taddr ++ f.rw ++ f.saddr ++ f.rwb ++ f.nbursts ++ f.pad

/-- The fields of a burst command word (30_encoding.md R75). -/
def unpackBurst (w : Word32) : BurstFields where
  taddr := w.extractLsb' 25 7
  rw := w.extractLsb' 24 1
  saddr := w.extractLsb' 17 7
  rwb := w.extractLsb' 16 1
  nbursts := w.extractLsb' 9 7
  pad := w.extractLsb' 0 9

/-- The field values of the FIFO burst read on variant `v` (30_encoding.md R76). -/
def burstFields (p : Params) (v : Variant) : BurstFields where
  taddr := p.burstTaddr v
  rw := p.burstDir
  saddr := p.addrFifo v
  rwb := 0
  nbursts := 0
  pad := 0

/-- `BURST_WORD(v)` (42_fifo_acquisition.md R160). -/
def burstWord (p : Params) (v : Variant) : Word32 := packBurst (burstFields p v)

/-- The burst word of one of the two variants: (30_encoding.md R76). -/
def isFifoBurst (p : Params) (f : BurstFields) : Bool :=
  f == burstFields p .tr13c || f == burstFields p .utr11aip

end Sys2Proof.Machine
end

