-- ==== Sys2Proof/Machine/Limits.lean ====
section
/-! DEFINITION. The configuration arithmetic: the operand form of `CONFIGURE` (30_encoding.md R81), the FIFO limit and what is
derived from it (41_control_sequences.md R124 to R126, 42_fifo_acquisition.md R161), and the only transfers that are a FIFO
burst (30_encoding.md R77, R83). -/

namespace Sys2Proof.Machine

open Sys2Proof.Config

/-- The operand form of a configuration: exactly 38 register words, and counts of `CFG_COUNT_BITS` bits (30_encoding.md R81,
decision D16). -/
def configurationFormed (p : Params) (cfg : Configuration) : Bool :=
  cfg.words.length == nRegwords && decide (cfg.rxAntennas < 2 ^ p.cfgCountBits) &&
  decide (cfg.chirpsPerFrame < 2 ^ p.cfgCountBits) && decide (cfg.samplesPerChirp < 2 ^ p.cfgCountBits)

/-- `FIFO_LIMIT(cfg)`: the exact product (41_control_sequences.md R124). -/
def fifoLimit (cfg : Configuration) : Nat :=
  cfg.rxAntennas * cfg.chirpsPerFrame * cfg.samplesPerChirp

/-- `FIFO_LIMIT_VALID(v, L)` under the parameter `FIFO_LIMIT_RULE` (41_control_sequences.md R125). -/
def fifoLimitValid (p : Params) (v : Variant) (limit : Nat) : Bool :=
  decide (2 ≤ limit) &&
  (match p.fifoLimitRule with
    | .pow2Even => limit &&& (limit - 1) == 0
    | .even => limit % 2 == 0) &&
  decide (limit / 2 ≤ maxBlocks v)

/-- `CREF(L)` (41_control_sequences.md R126). -/
def cref (limit : Nat) : BitVec 13 := BitVec.ofNat 13 (limit / 2 - 1)

/-- `PAYLOAD_BYTES(L)` (42_fifo_acquisition.md R161). -/
def payloadBytes (limit : Nat) : Nat := (12 * limit + 7) / 8

/-- Whether `n` bytes are the payload of a burst on variant `v`: `PAYLOAD_BYTES(L)` for a FIFO limit `L` that is valid there
(30_encoding.md R77, 41_control_sequences.md R125). A valid limit is even, so its payload is three bytes for two samples
(42_fifo_acquisition.md R161). -/
def isPayload (p : Params) (v : Variant) (n : Nat) : Bool := n % 3 == 0 && fifoLimitValid p v (n / 3 * 2)

/-- Whether a burst word with `n` bytes after it is a transfer of 30_encoding.md R77 on one of the two variants: the only bursts
the block sends (R83). -/
def isBurstTransfer (p : Params) (f : BurstFields) (n : Nat) : Bool :=
  (f == burstFields p .tr13c && isPayload p .tr13c n) || (f == burstFields p .utr11aip && isPayload p .utr11aip n)

end Sys2Proof.Machine
end

