-- ==== Sys2Proof/WellFormed.lean ====
section
/-! DEFINITION. Which instructions are well formed: the operand forms of 30_encoding.md R81 and the only wire encodings the
block emits (R83), and, for the model's byte layout of the host port (log entry 10), lengths that fit their 32-bit count. -/

namespace Sys2Proof

open Sys2Proof.Config Sys2Proof.Machine

/-- A length that fits the 32-bit counts of the host port's layout (log entry 10). -/
def fitsCount (n : Nat) : Bool := decide (n < 2 ^ 32)

/-- A `Configuration` of R81, with opaque fields that can be written on the port. -/
def Configuration.wellFormed (p : Params) (c : Configuration) : Bool :=
  configurationFormed p c &&
  fitsCount c.txAntennas.length && fitsCount c.txPower.length && fitsCount c.ifGain.length &&
  fitsCount c.fLower.length && fitsCount c.fUpper.length && fitsCount c.chirpRepTime.length &&
  fitsCount c.frameRepTime.length && fitsCount c.sampleRate.length

/-- The well-formed instructions: operand forms by R81, burst transfers by R76, R77 and R83. -/
def Instr.wellFormed (p : Params) : Instr → Bool
  | .init _ => true
  | .configure cfg => cfg.wellFormed p
  | .enableTestMode => true
  | .start => true
  | .stop => true
  | .acquireFifo cmd out => fitsCount cmd.length && fitsCount out.length
  | .readChipId => true
  | .nextTestWord _ => true
  | .resetFifo => true
  | .spiRead _ => true
  | .spiWrite _ _ => true
  | .spiBurstRead w tail => isBurstTransfer p w tail.length

/-- `Instr.wellFormed` as a proposition. -/
abbrev Instr.WellFormed (p : Params) (i : Instr) : Prop := i.wellFormed p = true

end Sys2Proof
end

