-- ==== Sys2Proof/Decode.lean ====
section
/-! DEFINITION. Decoding of what is issued to the block, total on any bytes and rejecting by name, and the encoder.
Host commands: 30_encoding.md R80 to R82, with the byte layout of the operands of log entry 10. Wire transfers: R71, R72,
R75 to R77, told apart as R87 and 93_implementation_defined.md U18 say. -/

namespace Sys2Proof

open Sys2Proof.Config Sys2Proof.Machine

/-- Why the bytes spell no instruction. -/
inductive DecodeError where
  /-- No code byte on the command port. -/
  | emptyCommand
  /-- A reserved host code (30_encoding.md R82). -/
  | reservedCode (op : Byte)
  /-- Operands that do not have the command's form (30_encoding.md R81). -/
  | operandForm (c : HostOp)
  /-- A wire transfer whose length no format has (30_encoding.md R77, R84). -/
  | transferLength (n : Nat)
  /-- A frame of four bytes in read direction with non-zero bytes 1 to 3 (30_encoding.md R71, R83). -/
  | reservedFrameBits (w : Word32)
  /-- A transfer of more than four bytes whose first word is no burst word of R76 (30_encoding.md R83). -/
  | burstWord (w : Word32)
deriving DecidableEq, Repr

/-- The host command of a code, `none` for the reserved codes (30_encoding.md R80, R82). -/
def hostOpOf (p : Params) (op : Byte) : Option HostOp := HostOp.all.find? fun c => p.hostOp c == op

/-- One 32-bit operand and the bytes after it. -/
def takeU32 : List Byte → Option (Word32 × List Byte)
  | a :: b :: c :: d :: rest => some (fromBE32 a b c d, rest)
  | _ => none

/-- `n` bytes and the bytes after them. -/
def takeBytes : Nat → List Byte → Option (List Byte × List Byte)
  | 0, bs => some ([], bs)
  | n + 1, b :: rest => (takeBytes n rest).map fun (xs, rest') => (b :: xs, rest')
  | _ + 1, [] => none

/-- A byte string with its 32-bit count before it. -/
def takeCounted (bs : List Byte) : Option (List Byte × List Byte) :=
  (takeU32 bs).bind fun (n, rest) => takeBytes n.toNat rest

/-- A number in `n` bytes, the most significant first, and the bytes after it. -/
def takeNat : Nat → List Byte → Option (Nat × List Byte)
  | 0, bs => some (0, bs)
  | n + 1, b :: rest => (takeNat n rest).map fun (x, rest') => (b.toNat * 2 ^ (8 * n) + x, rest')
  | _ + 1, [] => none

/-- How many bytes hold a count of `CFG_COUNT_BITS` bits (log entry 10). -/
def countBytes (p : Params) : Nat := (p.cfgCountBits + 7) / 8

/-- A count of a configuration: a value of more than `CFG_COUNT_BITS` bits is none (30_encoding.md R81, decision D16). -/
def takeCount (p : Params) (bs : List Byte) : Option (Nat × List Byte) :=
  (takeNat (countBytes p) bs).bind fun (n, rest) => if n < 2 ^ p.cfgCountBits then some (n, rest) else none

/-- `n` 32-bit words. -/
def takeWords : Nat → List Byte → Option (List Word32 × List Byte)
  | 0, bs => some ([], bs)
  | n + 1, bs =>
    (takeU32 bs).bind fun (w, rest) => (takeWords n rest).map fun (ws, rest') => (w :: ws, rest')

/-- `n` 16-bit elements. -/
def takeSamples : Nat → List Byte → Option (List Sample × List Byte)
  | 0, bs => some ([], bs)
  | n + 1, a :: b :: rest => (takeSamples n rest).map fun (ss, rest') => (fromBE16 a b :: ss, rest')
  | _ + 1, _ => none

/-- `INIT`'s operand: one bit, in a byte (30_encoding.md R80, R81). -/
def takeVariant : List Byte → Option (Variant × List Byte)
  | b :: rest => if b = 0 then some (.tr13c, rest) else if b = 1 then some (.utr11aip, rest) else none
  | [] => none

/-- Two operands, one after the other. -/
def takeBoth {α β : Type} (p : List Byte → Option (α × List Byte)) (q : List Byte → Option (β × List Byte))
    (bs : List Byte) : Option ((α × β) × List Byte) :=
  (p bs).bind fun (a, rest) => (q rest).map fun (b, rest') => ((a, b), rest')

/-- `CONFIGURE`'s operand in the field order of 10_state.md R24. -/
def takeConfiguration (p : Params) (bs : List Byte) : Option (Configuration × List Byte) :=
  (takeBoth (takeCount p) (takeBoth takeCounted (takeBoth takeCounted (takeBoth takeCounted (takeBoth takeCounted
    (takeBoth takeCounted (takeBoth (takeCount p) (takeBoth (takeCount p) (takeBoth takeCounted (takeBoth takeCounted
    (takeBoth takeCounted (takeWords nRegwords))))))))))) bs).map
    fun ((rx, tx, power, gain, lower, upper, chirps, samples, chirpRep, frameRep, rate, words), rest) =>
      ({ rxAntennas := rx, txAntennas := tx, txPower := power, ifGain := gain, fLower := lower, fUpper := upper,
         chirpsPerFrame := chirps, samplesPerChirp := samples, chirpRepTime := chirpRep, frameRepTime := frameRep,
         sampleRate := rate, words := words }, rest)

/-- A sequence of 16-bit elements with its 32-bit count before it. -/
def takeCountedSamples (bs : List Byte) : Option (List Sample × List Byte) :=
  (takeU32 bs).bind fun (n, rest) => takeSamples n.toNat rest

/-- `ACQUIRE_FIFO`'s operands: the two buffers, each with its length before it. -/
def takeBuffers : List Byte → Option ((List Byte × List Sample) × List Byte) := takeBoth takeCounted takeCountedSamples

/-- The operands of a host command and the bytes after them (30_encoding.md R80, R81). -/
def takeOperands (p : Params) (c : HostOp) (bs : List Byte) : Option (Instr × List Byte) :=
  match c with
  | .init => (takeVariant bs).map fun (v, r) => (.init v, r)
  | .configure => (takeConfiguration p bs).map fun (cfg, r) => (.configure cfg, r)
  | .enableTestMode => some (.enableTestMode, bs)
  | .start => some (.start, bs)
  | .stop => some (.stop, bs)
  | .acquireFifo => (takeBuffers bs).map fun (b, r) => (.acquireFifo b.1 b.2, r)
  | .readChipId => some (.readChipId, bs)
  | .nextTestWord =>
    match bs with
    | a :: b :: r => some (.nextTestWord (fromBE16 a b), r)
    | _ => none
  | .resetFifo => some (.resetFifo, bs)

/-- Decoding of a host command: every byte belongs to it (30_encoding.md R80 to R82). -/
def decodeCommand (p : Params) (bytes : List Byte) : Except DecodeError Instr :=
  match bytes with
  | [] => .error .emptyCommand
  | op :: operands =>
    match hostOpOf p op with
    | none => .error (.reservedCode op)
    | some c =>
      match takeOperands p c operands with
      | some (i, []) => .ok i
      | _ => .error (.operandForm c)

/-- Decoding of one wire transfer from its MOSI bytes. Four bytes are a single-register frame, told write from read by bit 24 of
its big-endian view; more bytes are a burst of 30_encoding.md R77 (R71, R72, R84, R87, 93_implementation_defined.md U18). -/
def decodeTransfer (p : Params) (mosi : List Byte) : Except DecodeError Instr :=
  match mosi with
  | b0 :: b1 :: b2 :: b3 :: tail =>
    let w := fromBE32 b0 b1 b2 b3
    if tail = [] then
      if w.extractLsb' 24 1 = dirWrite p then .ok (.spiWrite (w.extractLsb' 25 7) (w.extractLsb' 0 24))
      else if w.extractLsb' 0 24 = 0 then .ok (.spiRead (w.extractLsb' 25 7))
      else .error (.reservedFrameBits w)
    else if isFifoBurst p (unpackBurst w) then
      if isBurstTransfer p (unpackBurst w) tail.length then .ok (.spiBurstRead (unpackBurst w) tail)
      else .error (.transferLength mosi.length)
    else .error (.burstWord w)
  | _ => .error (.transferLength mosi.length)

/-- Decoding of a request, total on any bytes. -/
def decodeRequest (p : Params) : Request → Except DecodeError Instr
  | .command bytes => decodeCommand p bytes
  | .transfer mosi => decodeTransfer p mosi

/-- A byte string with its 32-bit count before it. -/
def counted (bs : List Byte) : List Byte := be32 (BitVec.ofNat 32 bs.length) ++ bs

/-- A sequence of 16-bit elements with its 32-bit count before it. -/
def countedSamples (ss : List Sample) : List Byte := be32 (BitVec.ofNat 32 ss.length) ++ ss.flatMap be16

/-- `INIT`'s operand byte (30_encoding.md R80). -/
def variantByte : Variant → Byte
  | .tr13c => 0
  | .utr11aip => 1

/-- `CONFIGURE`'s operand bytes. -/
def configurationBytes (p : Params) (c : Configuration) : List Byte :=
  natBytes (countBytes p) c.rxAntennas ++ (counted c.txAntennas ++ (counted c.txPower ++ (counted c.ifGain ++
    (counted c.fLower ++ (counted c.fUpper ++ (natBytes (countBytes p) c.chirpsPerFrame ++
    (natBytes (countBytes p) c.samplesPerChirp ++ (counted c.chirpRepTime ++ (counted c.frameRepTime ++
    (counted c.sampleRate ++ c.words.flatMap be32))))))))))

/-- The request that spells an instruction. -/
def encode (p : Params) : Instr → Request
  | .init v => .command [p.hostOp .init, variantByte v]
  | .configure cfg => .command (p.hostOp .configure :: configurationBytes p cfg)
  | .enableTestMode => .command [p.hostOp .enableTestMode]
  | .start => .command [p.hostOp .start]
  | .stop => .command [p.hostOp .stop]
  | .acquireFifo cmd out => .command (p.hostOp .acquireFifo :: (counted cmd ++ countedSamples out))
  | .readChipId => .command [p.hostOp .readChipId]
  | .nextTestWord w => .command (p.hostOp .nextTestWord :: be16 w)
  | .resetFifo => .command [p.hostOp .resetFifo]
  | .spiRead a => .transfer (readFrame p a)
  | .spiWrite a v => .transfer (writeFrame p a v)
  | .spiBurstRead w tail => .transfer (be32 (packBurst w) ++ tail)

/-- How many operand bytes follow the code when every operand bit is 0 (log entry 10). -/
def zeroOperandBytes (p : Params) : Option HostOp → Nat
  | some .init => 1
  | some .configure => 3 * countBytes p + 184
  | some .acquireFifo => 8
  | some .nextTestWord => 2
  | _ => 0

/-- The zero bytes after the 32 bits of a wire row: none after a single-register frame, the payload of the smallest valid limit,
three bytes, after a burst word (30_encoding.md R77; log entry 24). -/
def zeroTailBytes (p : Params) (w : Word32) : List Byte :=
  if isFifoBurst p (unpackBurst w) then List.replicate 3 0 else []

/-- The request whose bits are `w`, numbered as spec/opcode_table.json numbers them: a 32-bit row is the big-endian view of
a wire transfer's first four bytes, any other row a host command, its code in bits 7:0 and the operand bytes above it. -/
def tableRequest (nbits w : Nat) : Request :=
  if nbits = 32 then .transfer (be32 (BitVec.ofNat 32 w) ++ zeroTailBytes params (BitVec.ofNat 32 w))
  else
    let op := BitVec.ofNat 8 w
    .command (op ::
      (List.range (zeroOperandBytes params (hostOpOf params op))).map fun k => BitVec.ofNat 8 (w >>> (8 * (k + 1))))

/-- The instruction the decoder reads from the bits of a row of spec/opcode_table.json, at the spec values of the parameters. -/
def decodeTableWord (nbits w : Nat) : Option Instr :=
  match decodeRequest params (tableRequest nbits w) with
  | .ok i => some i
  | .error _ => none

end Sys2Proof
end

