-- ==== Sys2Proof/Machine/State.lean ====
section
/-! DEFINITION. The state of the block as plain data: the record of 10_state.md R20, the host buffers of 20_memory.md R50, the
ports and the trace of 00_scope.md R8, R9, R12, and the errors of 60_exceptions.md R230. -/

namespace Sys2Proof.Machine

/-- The lifecycle state (10_state.md R21). -/
inductive Life where
  | uninit
  | idle
  | armed
  | running
deriving DecidableEq, Repr

/-- A pin level (10_state.md R25). -/
inductive Level where
  | low
  | high
deriving DecidableEq, Repr

/-- Which buffer a `BufferSizeMismatch` is about (60_exceptions.md R230). -/
inductive Which where
  | cmdBuf
  | outBuf
deriving DecidableEq, Repr

/-- The error kinds with their details (60_exceptions.md R230). -/
inductive Error where
  | transport
  | pin
  | status (g : Byte)
  | variantMismatch (digitalId : BitVec 16) (rfId : BitVec 8)
  | resetTimeout
  | invalidFifoLimit (limit : Nat)
  | noConfiguration
  | bufferSizeMismatch (which : Which) (expected actual : Nat)
deriving DecidableEq, Repr

/-- The result value of a successful command (30_encoding.md R80). -/
inductive Value where
  | none
  | chipId (digitalId : BitVec 16) (rfId : BitVec 8)
  | word (w : BitVec 16)
deriving DecidableEq, Repr

/-- What the result port carries (60_exceptions.md R231). -/
inductive CmdResult where
  | ok (v : Value)
  | err (e : Error)
deriving DecidableEq, Repr

/-- An answer of the `Exchange` port (00_scope.md R9). As a pending answer, the bytes are the first of the response: the
response has the request's length, and every byte not listed is free (log entry 6). -/
inductive XferAnswer where
  | bytes (rx : List Byte)
  | transportError
deriving DecidableEq, Repr

/-- An answer of a pin port (00_scope.md R9). -/
inductive PinAnswer where
  | ok
  | pinError
deriving DecidableEq, Repr

/-- What a wait observes on the interrupt input: its level, or a failure of the pin (00_scope.md R9, 60_exceptions.md R236;
log entry 7). -/
inductive IrqObs where
  | level (l : Level)
  | pinError
deriving DecidableEq, Repr

/-- An event of the trace (00_scope.md R12). -/
inductive Event where
  | xfer (tx : List Byte) (rx : XferAnswer)
  | rst (l : Level) (a : PinAnswer)
  | irqRise (a : PinAnswer)
  | waitNs (n : Word32)
  | waitMs (n : Word32)
  | result (c : HostOp) (r : CmdResult)
deriving DecidableEq, Repr

/-- The host command in flight (10_state.md R26). The model runs a command in one step, so between steps only an
`ACQUIRE_FIFO` that waits for its interrupt is in flight: its variant, its FIFO limit, and the last level the wait has seen
(log entry 8). -/
inductive InFlight where
  | acquireWait (v : Variant) (limit : Nat) (last : Option Level)
deriving DecidableEq, Repr

/-- What the framer returns to its caller: `READ_REGISTER` a value and a status (40_framer.md R101), `WRITE_REGISTER` and a
burst a status (R102), or the error raised (log entry 11). -/
inductive FramerReturn where
  | value (v : RegValue) (status : Byte)
  | status (g : Byte)
  | failed (e : Error)
deriving DecidableEq, Repr

/-- The bytes of the command buffer `CMD` by offset (20_memory.md R50): offsets strictly rising, no byte equal to the one an
unlisted offset reads as (log entry 13). -/
abbrev Memory := List Host.Cell

/-- What an unlisted offset of `CMD` reads as. DESIGN CHOICE, log entry 13: all bytes of `CMD` are handed over by the host
(42_fifo_acquisition.md R162), so this only says which of them stand in the list. -/
def Memory.blank : Byte := 0

/-- The canonical form of the memory. -/
abbrev Memory.wf (m : Memory) : Prop :=
  m.Pairwise (fun c d => c.1 < d.1) ∧ ∀ c ∈ m, c.2 ≠ Memory.blank

/-- The state of the machine. -/
structure State where
  /-- The lifecycle state (10_state.md R21). -/
  life : Life
  /-- The chip variant (10_state.md R22). -/
  variant : Option Variant
  /-- The active configuration (10_state.md R23). -/
  config : Option Configuration
  /-- `rst_level`: the level last requested on the reset output (10_state.md R25). -/
  rstLevel : Level
  /-- The host command in flight (10_state.md R26). -/
  cmd : Option InFlight
  /-- `len(CMD)` of the host command buffer (20_memory.md R50). -/
  cmdLen : Nat
  /-- The bytes of the host command buffer `CMD` (20_memory.md R50). -/
  cmdMem : Memory
  /-- The host sample buffer `OUT` (20_memory.md R50, R54). -/
  outBuf : List Sample
  /-- What is issued to the block and not yet taken, in order (00_scope.md R8; log entry 9). -/
  requests : List Request
  /-- The pending answers of the `Exchange` port (00_scope.md R13; log entry 6). -/
  xferIn : List XferAnswer
  /-- The pending answers of the `RstSet` port (00_scope.md R13; log entry 6). -/
  rstIn : List PinAnswer
  /-- What waits are going to observe on the interrupt input (60_exceptions.md R236; log entry 7). -/
  irqIn : List IrqObs
  /-- The model's counter of free draws (log entry 6). -/
  draws : Nat
  /-- What the last stand-alone wire transfer returned (log entry 11). -/
  framer : Option FramerReturn
  /-- The events performed, oldest first (00_scope.md R12). -/
  trace : List Event
deriving DecidableEq, Repr

/-- Why the machine stops with a fault. -/
inductive Fault where
  /-- A constructed block (life not UNINIT) without a variant. Raised by `CONFIGURE`, `ACQUIRE_FIFO` and
  `SPI_BURST_READ`, whose rules read `state.variant`; no run from reset reaches such a state (10_state.md R22). Safe: the
  model stops. Log entry 16. -/
  | variantMissing
deriving DecidableEq, Repr

/-- Why a request is refused: no step is taken. -/
inductive Refusal where
  /-- An instruction that has no meaning yet. Raised by `exec`'s arms only; no arm raises it now. Safe. -/
  | notModelled (mnemonic : String)
  /-- Bytes that spell no instruction (30_encoding.md R81, R82, R83). Raised by `step`. Safe: D2 "toward unprovable". -/
  | undecodable (e : DecodeError)
  /-- The lifecycle guard excludes the command (41_control_sequences.md R135, decision D24). Raised by the meanings of the
  host commands and, in UNINIT, of the wire rows (70_reset_and_hazards.md R262). Safe: "a refused command takes no step
  and gives no result". -/
  | lifecycleGuard
  /-- Another command is in flight (10_state.md R26). Raised by every meaning. Safe: the block accepts no other command. -/
  | commandInFlight
  /-- A configuration of other than 38 words, or with a count that is too wide (30_encoding.md R81). Raised by
  `CONFIGURE`. Safe: it spells no command. -/
  | operandForm
  /-- A burst word that is not that of R76 for the block's variant (30_encoding.md R83; log entries 2 and 11). Raised by
  `SPI_BURST_READ`. Safe: the block never emits it. -/
  | wireForm
deriving DecidableEq, Repr

/-- The block right after reset (10_state.md R41, 70_reset_and_hazards.md R260). The host buffers, the ports and the model's
own fields are empty: log entry 17. -/
def State.reset : State where
  life := .uninit
  variant := none
  config := none
  rstLevel := .high
  cmd := none
  cmdLen := 0
  cmdMem := []
  outBuf := []
  requests := []
  xferIn := []
  rstIn := []
  irqIn := []
  draws := 0
  framer := none
  trace := []

end Sys2Proof.Machine
end

