-- ==== Sys2Proof/Machine/Flags.lean ====
section
/-! DEFINITION. The status byte GSR0 and its classification (10_state.md R37, 40_framer.md R100), and the numeric codes of the
errors (60_exceptions.md R230). The block keeps no flags (10_state.md R29). -/

namespace Sys2Proof.Machine

open Sys2Proof.Config

/-- The fields of GSR0 (10_state.md R37); its reserved bits are ignored. -/
structure Gsr0View where
  clkNumErr : Bool
  spiBurstErr : Bool
  misoHsRead : Bool
  fouErr : Bool
deriving DecidableEq, Repr

/-- The fields of a status byte (10_state.md R37). -/
def gsr0View (p : Params) (g : Byte) : Gsr0View where
  clkNumErr := g.getLsbD p.gsr0ClkNumErr
  spiBurstErr := g.getLsbD p.gsr0SpiBurstErr
  misoHsRead := g.getLsbD p.gsr0MisoHsRead
  fouErr := g.getLsbD p.gsr0FouErr

/-- `IsError(g)`: clock-number error or SPI-burst error or FIFO over/under-flow error (10_state.md R37, decision D36). -/
def isError (p : Params) (g : Byte) : Bool :=
  (gsr0View p g).clkNumErr || (gsr0View p g).spiBurstErr || (gsr0View p g).fouErr

/-- The numeric code of an error (60_exceptions.md R230). -/
def Error.code : Error → Nat
  | .transport => 1
  | .pin => 2
  | .status _ => 3
  | .variantMismatch _ _ => 4
  | .resetTimeout => 5
  | .invalidFifoLimit _ => 6
  | .noConfiguration => 7
  | .bufferSizeMismatch _ _ _ => 8

/-- The numeric code of a result: 0 for `Ok` (60_exceptions.md R230). -/
def CmdResult.code : CmdResult → Nat
  | .ok _ => 0
  | .err e => e.code

end Sys2Proof.Machine
end

