-- ==== Sys2Proof/Machine/Operands.lean ====
section
/-! DEFINITION. The pure functions over operands and register images: field insertion (40_framer.md R103), the typed views of
MAIN, SFCTL and CHIP_ID (10_state.md R31 to R34), the register words (41_control_sequences.md R128), the strides
(42_fifo_acquisition.md R164). -/

namespace Sys2Proof.Machine

open Sys2Proof.Config

/-- The mask of field `hi:lo` in 24 bits (40_framer.md R103). -/
def fieldMask (hi lo : Nat) : RegValue := ((1#24 <<< (hi - lo + 1)) - 1#24) <<< lo

/-- The value a read-modify-write writes: `r` with field `hi:lo` set to `f`, every other bit as read (40_framer.md R103). -/
def insertField (r : RegValue) (hi lo : Nat) (f : RegValue) : RegValue :=
  (r &&& ~~~fieldMask hi lo) ||| ((f <<< lo) &&& fieldMask hi lo)

/-- The fields of MAIN that the source places (10_state.md R32); bits 23:4 are preserved and never interpreted. -/
structure MainView where
  frameStart : Bool
  swReset : Bool
  fsmReset : Bool
  fifoReset : Bool
deriving DecidableEq, Repr

/-- The view of a MAIN image (10_state.md R32). -/
def mainView (p : Params) (r : RegValue) : MainView where
  frameStart := r.getLsbD p.mainFrameStart
  swReset := r.getLsbD p.mainSwReset
  fsmReset := r.getLsbD p.mainFsmReset
  fifoReset := r.getLsbD p.mainFifoReset

/-- One bit of a register image built from fields. -/
def bitAt (k : Nat) (b : Bool) : RegValue := (BitVec.ofBool b).setWidth 24 <<< k

/-- A MAIN image built from its fields alone, reserved bits zero (10_state.md R31). -/
def mainImage (p : Params) (m : MainView) : RegValue :=
  bitAt p.mainFrameStart m.frameStart ||| bitAt p.mainSwReset m.swReset |||
  bitAt p.mainFsmReset m.fsmReset ||| bitAt p.mainFifoReset m.fifoReset

/-- The fields of SFCTL (10_state.md R34). -/
structure SfctlView where
  fifoCref : BitVec 13
  fifoLpMode : Bool
  lfsrEn : Bool
  prefixEn : Bool
deriving DecidableEq, Repr

/-- The view of an SFCTL image (10_state.md R34). -/
def sfctlView (p : Params) (r : RegValue) : SfctlView where
  fifoCref := r.extractLsb' p.sfctlCrefLo 13
  fifoLpMode := r.getLsbD p.sfctlLpMode
  lfsrEn := r.getLsbD p.sfctlLfsrEn
  prefixEn := r.getLsbD p.sfctlPrefixEn

/-- An SFCTL image built from its fields alone, reserved bits zero (10_state.md R31). -/
def sfctlImage (p : Params) (v : SfctlView) : RegValue :=
  (v.fifoCref.setWidth 24 <<< p.sfctlCrefLo) ||| bitAt p.sfctlLpMode v.fifoLpMode |||
  bitAt p.sfctlLfsrEn v.lfsrEn ||| bitAt p.sfctlPrefixEn v.prefixEn

/-- The fields of CHIP_ID, which fill the register (10_state.md R33). -/
structure ChipIdView where
  digitalId : BitVec 16
  rfId : BitVec 8
deriving DecidableEq, Repr

/-- The view of a CHIP_ID image (10_state.md R33, 44_chip_id.md R200). -/
def chipIdView (p : Params) (r : RegValue) : ChipIdView where
  digitalId := r.extractLsb' p.chipIdDigitalLo 16
  rfId := r.extractLsb' p.chipIdRfLo 8

/-- The CHIP_ID image of its fields (10_state.md R33). The block never writes it. -/
def chipIdImage (p : Params) (v : ChipIdView) : RegValue :=
  (v.digitalId.setWidth 24 <<< p.chipIdDigitalLo) ||| (v.rfId.setWidth 24 <<< p.chipIdRfLo)

/-- The address of a register word (41_control_sequences.md R128). -/
def regwordAddr (w : Word32) : RegAddr := w.extractLsb' 25 7

/-- The payload of a register word; bit 24 is dropped (41_control_sequences.md R128). -/
def regwordPayload (w : Word32) : RegValue := w.extractLsb' 0 24

/-- The index in `OUT` of sample `s` of chirp `c` of antenna `a`, with `R` antennas and `S` samples per chirp
(42_fifo_acquisition.md R164). The block performs no reshaping: this is for the host. -/
def strideIndex (R S a c s : Nat) : Nat := a * 1 + c * (R * S) + s * R

end Sys2Proof.Machine
end

