-- ==== Sys2Proof/Machine/Unpacker.lean ====
section
/-! DEFINITION. The 12-bit sample unpacker (43_unpacker.md). -/

namespace Sys2Proof.Machine

/-- `blk(i)`, the first byte of sample `i`'s window (43_unpacker.md R180, R181). -/
def windowAt (i : Nat) : Nat := i * 12 / 8

/-- The even sample of a window: its high 12 bits (43_unpacker.md R182). The bytes are widened before the shift: log entry 21. -/
def evenSample (b0 b1 : Byte) : Sample := (b0.setWidth 16 <<< 4) ||| (b1.setWidth 16 >>> 4)

/-- The odd sample of a window: its low 12 bits (43_unpacker.md R183). -/
def oddSample (b0 b1 : Byte) : Sample := ((b0 &&& 0x0F).setWidth 16 <<< 8) ||| b1.setWidth 16

/-- `UNPACK(p, i)` (43_unpacker.md R180). Every index read is inside `p` for `i < L` (R187). -/
def unpack (p : List Byte) (i : Nat) : Sample :=
  if i % 2 = 0 then evenSample (p.getD (windowAt i) 0) (p.getD (windowAt i + 1) 0)
  else oddSample (p.getD (windowAt i) 0) (p.getD (windowAt i + 1) 0)

/-- All samples of a radar frame of `limit` samples, in order (42_fifo_acquisition.md R162 step 5). -/
def unpackFrame (p : List Byte) (limit : Nat) : List Sample := (List.range limit).map (unpack p)

/-- `PACK(a, b)`, the inverse that tests use; the block does not perform it (43_unpacker.md R184). -/
def pack (a b : BitVec 12) : List Byte :=
  [a.extractLsb' 4 8, a.extractLsb' 0 4 ++ b.extractLsb' 8 4, b.extractLsb' 0 8]

end Sys2Proof.Machine
end

