-- ==== Sys2Proof/Machine/Ops.lean ====
section
/-! DEFINITION. The shared operations: the command buffer, the environment ports (00_scope.md R9, R12, R16), raising an error
and returning a result (60_exceptions.md R231, R232), the acceptance of a request (41_control_sequences.md R129, R135). -/

namespace Sys2Proof.Machine

open Sys2Proof.Config

/-! ### The command buffer -/

/-- Reading one byte of the command buffer: `MemRead((CMD, a), 1)` (00_scope.md R16). -/
def Memory.read (m : Memory) (a : Nat) : Byte :=
  match m.find? (fun c => c.1 == a) with
  | some c => c.2
  | none => Memory.blank

/-- Bytes `a` to `a + n - 1` of the command buffer. -/
def Memory.readBytes (m : Memory) (a n : Nat) : List Byte := (List.range n).map fun j => m.read (a + j)

/-- The entries of a byte sequence that stands from offset `a` on; blank bytes are not listed. -/
def Memory.listed : Nat → List Byte → Memory
  | _, [] => []
  | a, b :: bs => if b = Memory.blank then Memory.listed (a + 1) bs else (a, b) :: Memory.listed (a + 1) bs

/-- Writing a byte sequence from offset `a` on: `MemWrite((CMD, a + j), 1, bs[j])` for every `j` (00_scope.md R16). -/
def Memory.writeBytes (m : Memory) (a : Nat) (bs : List Byte) : Memory :=
  m.filter (fun c => c.1 < a) ++ Memory.listed a bs ++ m.filter (fun c => a + bs.length ≤ c.1)

/-- The host hands over `CMD` and `OUT` for the duration of a command (30_encoding.md R81). -/
def handOver (cmd : List Byte) (out : List Sample) (s : State) : State :=
  { s with cmdLen := cmd.length, cmdMem := Memory.writeBytes [] 0 cmd, outBuf := out }

/-- The content of `CMD`, byte by byte. -/
def cmdBytes (s : State) : List Byte := s.cmdMem.readBytes 0 s.cmdLen

/-- Writing bytes of `CMD` from offset `a` on. -/
def writeCmd (a : Nat) (bs : List Byte) (s : State) : State := { s with cmdMem := s.cmdMem.writeBytes a bs }

/-! ### Sequences that can raise -/

/-- How an internal sequence ends: with a value, or by `raise` (00_scope.md R16, R17). Every state write made before stays
(60_exceptions.md R232). -/
inductive Res (α : Type) where
  | ok (a : α) (s : State)
  | raised (e : Error) (s : State)
deriving DecidableEq, Repr

/-- One sequence after another: a raise ends both (00_scope.md R17). -/
def Res.bind {α β : Type} (r : Res α) (f : α → State → Res β) : Res β :=
  match r with
  | .ok a s => f a s
  | .raised e s => .raised e s

/-- The state a sequence leaves, whichever way it ends. -/
def Res.state {α : Type} : Res α → State
  | .ok _ s => s
  | .raised _ s => s

/-! ### The environment ports -/

/-- Performing one event (00_scope.md R12). -/
def emit (e : Event) (s : State) : State := { s with trace := s.trace ++ [e] }

/-- `n` free bytes, the draws from `d` on. -/
def freeBytes (d n : Nat) : List Byte := (List.range n).map fun j => freeByte (d + j)

/-- A response of length `n` whose first bytes are listed: bytes past `n` are dropped, missing ones are free (log entry 6). -/
def fitTo (n : Nat) (bs : List Byte) (d : Nat) : List Byte := bs.take n ++ freeBytes d (n - bs.length)

/-- The `Exchange` port's answer to a request of `n` bytes (00_scope.md R9, R13): the next listed one, or a free draw. -/
def drawXfer (n : Nat) (s : State) : XferAnswer × State :=
  match s.xferIn with
  | .bytes bs :: r => (.bytes (fitTo n bs s.draws), { s with xferIn := r, draws := s.draws + (n - bs.length) })
  | .transportError :: r => (.transportError, { s with xferIn := r })
  | [] =>
    (if freeXferFails s.draws then .transportError else .bytes (freeBytes (s.draws + 1) n),
      { s with draws := s.draws + 1 + n })

/-- The `RstSet` port's answer (00_scope.md R9, R13): the next listed one, or a free draw. -/
def drawPin (s : State) : PinAnswer × State :=
  match s.rstIn with
  | a :: r => (a, { s with rstIn := r })
  | [] => (if freePinFails s.draws then .pinError else .ok, { s with draws := s.draws + 1 })

/-- `rx <- Exchange(tx)`: one event, `raise Transport()` on `TransportError` (00_scope.md R16, 40_framer.md R106). -/
def exchange (tx : List Byte) (s : State) : Res (List Byte) :=
  match drawXfer tx.length s with
  | (.bytes rx, s') => .ok rx (emit (.xfer tx (.bytes rx)) s')
  | (.transportError, s') => .raised .transport (emit (.xfer tx .transportError) s')

/-- `RstSet(level)`: `rst_level` records the level requested, whatever the answer (10_state.md R25); `raise Pin()` on
`PinError` (00_scope.md R16). -/
def rstSet (l : Level) (s : State) : Res Unit :=
  match drawPin s with
  | (.ok, s') => .ok () (emit (.rst l .ok) { s' with rstLevel := l })
  | (.pinError, s') => .raised .pin (emit (.rst l .pinError) { s' with rstLevel := l })

/-- `DelayNs(n)`: always answers (00_scope.md R9). -/
def delayNs (n : Word32) (s : State) : State := emit (.waitNs n) s

/-- `DelayMs(n)`: always answers (00_scope.md R9). -/
def delayMs (n : Word32) (s : State) : State := emit (.waitMs n) s

/-- How far a wait for a rising edge has come. -/
inductive IrqScan where
  /-- A rising edge; what is left to observe. -/
  | risen (rest : List IrqObs)
  /-- The pin failed; what is left to observe. -/
  | failed (rest : List IrqObs)
  /-- No rising edge yet; the last level seen. -/
  | pending (last : Option Level)
deriving DecidableEq, Repr

/-- `IrqWaitRise()` on what the wait observes: it completes on the first change from LOW to HIGH seen after it started, so a
line that is already HIGH does not satisfy it (60_exceptions.md R236, 70_reset_and_hazards.md R264). -/
def irqScan (last : Option Level) : List IrqObs → IrqScan
  | [] => .pending last
  | .pinError :: rest => .failed rest
  | .level l :: rest => if last = some .low ∧ l = .high then .risen rest else irqScan (some l) rest

/-! ### Raising an error and returning a result -/

/-- `raise E(info)` (60_exceptions.md R232): the host command ends, its `Result` event carries the error (R231), nothing is
rolled back, and the block accepts the next command (R234). -/
def raiseError (c : HostOp) (e : Error) (s : State) : State := { emit (.result c (.err e)) s with cmd := none }

/-- A host command that succeeds: its `Result` event carries its value (60_exceptions.md R231), and the block accepts the next
command (R234). -/
def returnValue (c : HostOp) (v : Value) (s : State) : State := { emit (.result c (.ok v)) s with cmd := none }

/-- The end of a host command whose sequence has ended (60_exceptions.md R231, R232). -/
def finish (c : HostOp) : Res Value → State
  | .ok v s => returnValue c v s
  | .raised e s => raiseError c e s

/-- The end of a wire transfer that was issued by itself: what the framer returns to its caller (log entry 11). -/
def finishTransfer : Res FramerReturn → State
  | .ok r s => { s with framer := some r }
  | .raised e s => { s with framer := some (.failed e) }

/-- The acceptance of a request: refused while a command is in flight (10_state.md R26), refused when its lifecycle guard fails
(41_control_sequences.md R129, decision D24), else it does `k`. -/
def accept (s : State) (guard : Bool) (k : Host.Outcome State Fault Refusal) : Host.Outcome State Fault Refusal :=
  if s.cmd ≠ none then .refused .commandInFlight
  else if guard then k
  else .refused .lifecycleGuard

/-- The lifecycle guard of every command but `INIT` and `NEXT_TEST_WORD`: `state.life ≠ UNINIT` (41_control_sequences.md R135). It
guards the wire rows too: no register access comes before the hardware reset (70_reset_and_hazards.md R262). -/
def constructed (s : State) : Bool := s.life != .uninit

end Sys2Proof.Machine
end

