-- ==== Sys2Proof/Machine/Framer.lean ====
section
/-! DEFINITION. The framer (40_framer.md): single-register transfers, and the meanings of the wire rows `SPI_READ` and
`SPI_WRITE`. Each call is exactly one exchange and nothing is retried here (R105). `p` holds the open parameters (00_scope.md R6);
`exec…With` is a meaning at any of their values, `exec…` the same at the spec values (log entry 25). -/

namespace Sys2Proof.Machine

open Sys2Proof.Config

/-- `CHECK_STATUS(g)` (40_framer.md R100). -/
def checkStatus (p : Params) (g : Byte) (s : State) : Res Unit :=
  if isError p g then .raised (.status g) s else .ok () s

/-- The status byte GSR0, byte 0 of every response (30_encoding.md R74). -/
def responseStatus (rx : List Byte) : Byte := rx.getD 0 0

/-- The 24-bit value of a response, its bytes 1 to 3 (30_encoding.md R73). -/
def responseValue (rx : List Byte) : RegValue := fromBE24 (rx.getD 1 0) (rx.getD 2 0) (rx.getD 3 0)

/-- `READ_REGISTER(a)` (40_framer.md R101): the value and the status byte. -/
def readRegister (p : Params) (a : RegAddr) (s : State) : Res (RegValue × Byte) :=
  (exchange (readFrame p a) s).bind fun rx s1 =>
    (checkStatus p (responseStatus rx) s1).bind fun _ s2 =>
      .ok (responseValue rx, responseStatus rx) s2

/-- `WRITE_REGISTER(a, v)` (40_framer.md R102): the status byte; bytes 1 to 3 of the response are not examined. -/
def writeRegister (p : Params) (a : RegAddr) (v : RegValue) (s : State) : Res Byte :=
  (exchange (writeFrame p a v) s).bind fun rx s1 =>
    (checkStatus p (responseStatus rx) s1).bind fun _ s2 =>
      .ok (responseStatus rx) s2

/-- `READ_MODIFY_WRITE(a, hi, lo, f)` (40_framer.md R103): two exchanges, the second only if the first succeeds. -/
def readModifyWrite (p : Params) (a : RegAddr) (hi lo : Nat) (f : RegValue) (s : State) : Res Unit :=
  (readRegister p a s).bind fun r s1 =>
    (writeRegister p a (insertField r.1 hi lo f) s1).bind fun _ s2 =>
      .ok () s2

/-- `STROBE(a, b)` (40_framer.md R104). DESIGN CHOICE: it does not wait for a software reset that an `SPI_WRITE` by itself began
(70_reset_and_hazards.md R268; log entry 28). -/
def strobe (p : Params) (a : RegAddr) (b : Nat) (s : State) : Res Unit := readModifyWrite p a b b 1 s

/-- `SPI_READ addr`: one `READ_REGISTER` by itself (40_framer.md R101; log entry 11). DESIGN CHOICE: every address is sent, the FIFO
port's too, which no host command reads singly of itself (10_state.md R36; log entry 26). -/
def execSpiReadWith (p : Params) (addr : RegAddr) (s : State) : Host.Outcome State Fault Refusal :=
  accept s (constructed s)
    (.next (finishTransfer ((readRegister p addr s).bind fun r s1 => .ok (.value r.1 r.2) s1)))

/-- `SPI_READ addr` at the spec values. -/
def execSpiRead (addr : RegAddr) (s : State) : Host.Outcome State Fault Refusal := execSpiReadWith params addr s

/-- `SPI_WRITE addr, value`: one `WRITE_REGISTER` by itself (40_framer.md R102; log entry 11). DESIGN CHOICE: every address is sent,
those of CHIP_ID and of the FIFO port too, which no host command writes of itself (10_state.md R33, R36; log entry 26). DESIGN
CHOICE: it waits for no settle after a software reset, which the block enforces inside CONFIGURE (70_reset_and_hazards.md R263; log
entry 27), and a software reset that it begins holds back no later read-modify-write (R268; log entry 28). -/
def execSpiWriteWith (p : Params) (addr : RegAddr) (value : RegValue) (s : State) : Host.Outcome State Fault Refusal :=
  accept s (constructed s)
    (.next (finishTransfer ((writeRegister p addr value s).bind fun g s1 => .ok (.status g) s1)))

/-- `SPI_WRITE addr, value` at the spec values. -/
def execSpiWrite (addr : RegAddr) (value : RegValue) (s : State) : Host.Outcome State Fault Refusal :=
  execSpiWriteWith params addr value s

end Sys2Proof.Machine
end

