-- ==== Sys2Proof/Machine/ChipId.lean ====
section
/-! DEFINITION. Chip identification (44_chip_id.md). -/

namespace Sys2Proof.Machine

open Sys2Proof.Config

/-- `CHIP_ID_SEQ()` (44_chip_id.md R200). -/
def chipIdSeq (p : Params) (s : State) : Res ChipIdView :=
  (readRegister p p.addrChipId s).bind fun r s1 => .ok (chipIdView p r.1) s1

/-- `ACCEPT(v, d, r)`, a parameter (44_chip_id.md R202). -/
def acceptId (p : Params) (v : Variant) (d : BitVec 16) (r : BitVec 8) : Bool :=
  p.accept p.rfIdTr13c p.digitalIdUtr11 v d r

/-- `READ_CHIP_ID` (44_chip_id.md R201). -/
def execReadChipIdWith (p : Params) (s : State) : Host.Outcome State Fault Refusal :=
  accept s (constructed s)
    (.next (finish .readChipId ((chipIdSeq p s).bind fun id s1 => .ok (.chipId id.digitalId id.rfId) s1)))

/-- `READ_CHIP_ID` at the spec values. -/
def execReadChipId (s : State) : Host.Outcome State Fault Refusal := execReadChipIdWith params s

end Sys2Proof.Machine
end

