-- ==== Sys2Proof/Machine/Control.lean ====
section
/-! DEFINITION. The reset and configuration sequences and their host commands (41_control_sequences.md). -/

namespace Sys2Proof.Machine

open Sys2Proof.Config

/-! ### Internal sequences -/

/-- `RESET_HARDWARE()` (41_control_sequences.md R120). -/
def resetHardware (s : State) : Res Unit :=
  (rstSet .high s).bind fun _ s1 =>
    (rstSet .low (delayNs hwResetDelayNs s1)).bind fun _ s2 =>
      (rstSet .high (delayNs hwResetDelayNs s2)).bind fun _ s3 =>
        .ok () (delayNs hwResetDelayNs s3)

/-- Whether a poll of MAIN saw `SW_RESET` cleared (41_control_sequences.md R121): a status error counts as a failed poll, a
transport error ends the command. -/
def pollSwReset (p : Params) (s : State) : Res Bool :=
  match readRegister p p.addrMain s with
  | .ok r s1 => .ok (!r.1.getLsbD p.mainSwReset) s1
  | .raised (.status _) s1 => .ok false s1
  | .raised e s1 => .raised e s1

/-- Up to `n` polls with a delay between two of them; whether one saw the bit cleared (41_control_sequences.md R121). -/
def pollLoop (p : Params) : Nat → State → Res Bool
  | 0, s => .ok false s
  | n + 1, s =>
    (pollSwReset p s).bind fun cleared s1 =>
      if cleared then .ok true s1
      else if n = 0 then .ok false s1
      else pollLoop p n (delayMs swResetPollMs s1)

/-- `RESET_SOFTWARE()` (41_control_sequences.md R121): the settle delay comes before success and before `ResetTimeout`. -/
def resetSoftware (p : Params) (s : State) : Res Unit :=
  (strobe p p.addrMain p.mainSwReset s).bind fun _ s1 =>
    (pollLoop p swResetPolls (delayNs swResetWaitNs s1)).bind fun cleared s2 =>
      if cleared then .ok () (delayMs swResetSettleMs s2)
      else .raised .resetTimeout (delayMs swResetSettleMs s2)

/-- `RESET_FIFO_SEQ()` (41_control_sequences.md R122). -/
def resetFifoSeq (p : Params) (s : State) : Res Unit := strobe p p.addrMain p.mainFifoReset s

/-- `RESET_FSM()` (41_control_sequences.md R123). -/
def resetFsm (p : Params) (s : State) : Res Unit := strobe p p.addrMain p.mainFsmReset s

/-- `APPLY_FIFO_LIMIT(L)` (41_control_sequences.md R127). -/
def applyFifoLimit (p : Params) (limit : Nat) (s : State) : Res Unit :=
  readModifyWrite p p.addrSfctl p.sfctlCrefHi p.sfctlCrefLo ((cref limit).setWidth 24) s

/-- The register words, written in array order; the first error ends it (41_control_sequences.md R128, R130). -/
def writeWords (p : Params) : List Word32 → State → Res Unit
  | [], s => .ok () s
  | w :: ws, s =>
    (writeRegister p (regwordAddr w) (regwordPayload w) s).bind fun _ s1 => writeWords p ws s1

/-! ### Host commands -/

/-- The sequence of `INIT` (41_control_sequences.md R129, 44_chip_id.md R203). -/
def initSeq (p : Params) (v : Variant) (s : State) : Res Value :=
  (resetHardware s).bind fun _ s1 =>
    (chipIdSeq p s1).bind fun id s2 =>
      if acceptId p v id.digitalId id.rfId then
        .ok .none { s2 with variant := some v, config := none, life := .idle }
      else .raised (.variantMismatch id.digitalId id.rfId) s2

/-- `INIT variant` (41_control_sequences.md R129). -/
def execInitWith (p : Params) (v : Variant) (s : State) : Host.Outcome State Fault Refusal :=
  accept s (s.life == .uninit) (.next (finish .init (initSeq p v s)))

/-- `INIT variant` at the spec values. -/
def execInit (v : Variant) (s : State) : Host.Outcome State Fault Refusal := execInitWith params v s

/-- The sequence of `CONFIGURE` on a block of variant `v` (41_control_sequences.md R130). -/
def configureSeq (p : Params) (v : Variant) (cfg : Configuration) (s : State) : Res Value :=
  let s0 := { s with config := none, life := .idle }
  if fifoLimitValid p v (fifoLimit cfg) then
    (resetSoftware p s0).bind fun _ s1 =>
      (writeWords p cfg.words s1).bind fun _ s2 =>
        (applyFifoLimit p (fifoLimit cfg) s2).bind fun _ s3 =>
          .ok .none { s3 with config := some cfg, life := .armed }
  else .raised (.invalidFifoLimit (fifoLimit cfg)) s0

/-- `CONFIGURE cfg` (41_control_sequences.md R130). A configuration of other than 38 words, or with a count of more
than `CFG_COUNT_BITS` bits, spells no command (30_encoding.md R81). -/
def execConfigureWith (p : Params) (cfg : Configuration) (s : State) : Host.Outcome State Fault Refusal :=
  accept s (constructed s)
    (if configurationFormed p cfg then
      match s.variant with
      | none => .fault .variantMissing
      | some v => .next (finish .configure (configureSeq p v cfg s))
    else .refused .operandForm)

/-- `CONFIGURE cfg` at the spec values. -/
def execConfigure (cfg : Configuration) (s : State) : Host.Outcome State Fault Refusal := execConfigureWith params cfg s

/-- `ENABLE_TEST_MODE` (41_control_sequences.md R131; with a software reset in progress: log entry 28). -/
def execEnableTestModeWith (p : Params) (s : State) : Host.Outcome State Fault Refusal :=
  accept s (constructed s)
    (.next (finish .enableTestMode
      ((strobe p p.addrSfctl p.sfctlLfsrEn s).bind fun _ s1 => .ok .none s1)))

/-- `ENABLE_TEST_MODE` at the spec values. -/
def execEnableTestMode (s : State) : Host.Outcome State Fault Refusal := execEnableTestModeWith params s

/-- The sequence of `START` (41_control_sequences.md R132). -/
def startSeq (p : Params) (s : State) : Res Value :=
  if s.config = none then .raised .noConfiguration s
  else (strobe p p.addrMain p.mainFrameStart s).bind fun _ s1 => .ok .none { s1 with life := .running }

/-- `START` (41_control_sequences.md R132; with a software reset in progress: log entry 28). -/
def execStartWith (p : Params) (s : State) : Host.Outcome State Fault Refusal :=
  accept s (constructed s) (.next (finish .start (startSeq p s)))

/-- `START` at the spec values. -/
def execStart (s : State) : Host.Outcome State Fault Refusal := execStartWith params s

/-- `STOP` (41_control_sequences.md R133; with a software reset in progress: log entry 28). -/
def execStopWith (p : Params) (s : State) : Host.Outcome State Fault Refusal :=
  accept s (constructed s)
    (.next (finish .stop
      ((resetFsm p s).bind fun _ s1 =>
        .ok .none (if s1.life = .running then { s1 with life := .armed } else s1))))

/-- `STOP` at the spec values. -/
def execStop (s : State) : Host.Outcome State Fault Refusal := execStopWith params s

/-- `RESET_FIFO` (41_control_sequences.md R134; with a software reset in progress: log entry 28). -/
def execResetFifoWith (p : Params) (s : State) : Host.Outcome State Fault Refusal :=
  accept s (constructed s)
    (.next (finish .resetFifo ((resetFifoSeq p s).bind fun _ s1 => .ok .none s1)))

/-- `RESET_FIFO` at the spec values. -/
def execResetFifo (s : State) : Host.Outcome State Fault Refusal := execResetFifoWith params s

end Sys2Proof.Machine
end

