-- ==== Sys2Proof/Machine/Fifo.lean ====
section
/-! DEFINITION. The FIFO burst acquisition (42_fifo_acquisition.md): the burst transfer, `ACQUIRE_FIFO` with its wait, and the
meaning of the wire row `SPI_BURST_READ`. -/

namespace Sys2Proof.Machine

open Sys2Proof.Config

/-- The end of a burst exchange that failed: the burst word stays in `CMD[0..4]`, and `CMD[4..]` is any value
(42_fifo_acquisition.md R162, 93_implementation_defined.md U2; log entry 14). -/
def scrambleTail (s : State) : State :=
  { writeCmd 4 (freeBytes s.draws (s.cmdLen - 4)) s with draws := s.draws + (s.cmdLen - 4) }

/-- One burst transfer over the whole of `CMD`, whose first four bytes hold the burst word: one exchange, the response in place,
the status check (42_fifo_acquisition.md R162 steps 3 and 4, R163; 30_encoding.md R77). The status byte and the response. -/
def burstTransfer (p : Params) (s : State) : Res (Byte × List Byte) :=
  match exchange (cmdBytes s) s with
  | .raised e s1 => .raised e (scrambleTail s1)
  | .ok rx s1 =>
    (checkStatus p (responseStatus rx) (writeCmd 0 rx s1)).bind fun _ s2 => .ok (responseStatus rx, rx) s2

/-- `ACQUIRE_FIFO` after its interrupt, steps 2 to 5 (42_fifo_acquisition.md R162). -/
def acquireBurst (p : Params) (v : Variant) (limit : Nat) (s : State) : Res Value :=
  (burstTransfer p (writeCmd 0 (be32 (burstWord p v)) s)).bind fun r s1 =>
    .ok .none { s1 with outBuf := unpackFrame (r.2.drop 4) limit }

/-- `ACQUIRE_FIFO` from its wait on, step 1 onward (42_fifo_acquisition.md R162). Without a rising edge the command stays in
flight (60_exceptions.md R236, 93_implementation_defined.md U4). -/
def acquireFromWait (p : Params) (v : Variant) (limit : Nat) (last : Option Level) (s : State) : State :=
  match irqScan last s.irqIn with
  | .pending last' => { s with irqIn := [], cmd := some (.acquireWait v limit last') }
  | .failed rest => raiseError .acquireFifo .pin (emit (.irqRise .pinError) { s with irqIn := rest })
  | .risen rest => finish .acquireFifo (acquireBurst p v limit (emit (.irqRise .ok) { s with irqIn := rest }))

/-- `ACQUIRE_FIFO` with the active configuration `cfg` on a block of variant `v`: the two size checks, then the wait
(42_fifo_acquisition.md R162). `s` holds the buffers handed over. -/
def acquireChecked (p : Params) (v : Variant) (cfg : Configuration) (s : State) : State :=
  if s.cmdLen ≠ 4 + payloadBytes (fifoLimit cfg) then
    raiseError .acquireFifo (.bufferSizeMismatch .cmdBuf (4 + payloadBytes (fifoLimit cfg)) s.cmdLen) s
  else if s.outBuf.length ≠ fifoLimit cfg then
    raiseError .acquireFifo (.bufferSizeMismatch .outBuf (fifoLimit cfg) s.outBuf.length) s
  else acquireFromWait p v (fifoLimit cfg) none s

/-- `ACQUIRE_FIFO cmd, out` (42_fifo_acquisition.md R162). -/
def execAcquireFifoWith (p : Params) (cmd : List Byte) (out : List Sample) (s : State) : Host.Outcome State Fault Refusal :=
  accept s (constructed s)
    (match s.config with
    | none => .next (raiseError .acquireFifo .noConfiguration (handOver cmd out s))
    | some cfg =>
      match s.variant with
      | none => .fault .variantMissing
      | some v => .next (acquireChecked p v cfg (handOver cmd out s)))

/-- `ACQUIRE_FIFO cmd, out` at the spec values. -/
def execAcquireFifo (cmd : List Byte) (out : List Sample) (s : State) : Host.Outcome State Fault Refusal :=
  execAcquireFifoWith params cmd out s

/-- The command in flight goes on (10_state.md R26). -/
def resume (p : Params) (f : InFlight) (s : State) : State :=
  match f with
  | .acquireWait v limit last => acquireFromWait p v limit last s

/-- A burst transfer by itself, over the bytes of `CMD`: the two checks of `ACQUIRE_FIFO` that fix its length, `4 + P` for the FIFO
limit of the active configuration (30_encoding.md R77, 42_fifo_acquisition.md R162), then the transfer. No other burst is sent
(30_encoding.md R83; log entry 11). -/
def burstChecked (p : Params) (s : State) : Res (Byte × List Byte) :=
  match s.config with
  | none => .raised .noConfiguration s
  | some cfg =>
    if s.cmdLen ≠ 4 + payloadBytes (fifoLimit cfg) then
      .raised (.bufferSizeMismatch .cmdBuf (4 + payloadBytes (fifoLimit cfg)) s.cmdLen) s
    else burstTransfer p s

/-- `SPI_BURST_READ`: one burst transfer by itself, its MOSI bytes the content of `CMD` (30_encoding.md R75 to R77; log entry
11). A burst word other than that of R76 for the block's variant is one the block never emits (R83). -/
def execSpiBurstReadWith (p : Params) (w : BurstFields) (tail : List Byte) (s : State) : Host.Outcome State Fault Refusal :=
  accept s (constructed s)
    (match s.variant with
    | none => .fault .variantMissing
    | some v =>
      if w = burstFields p v then
        .next (finishTransfer ((burstChecked p (handOver (be32 (packBurst w) ++ tail) s.outBuf s)).bind fun r s1 =>
          .ok (.status r.1) s1))
      else .refused .wireForm)

/-- `SPI_BURST_READ` at the spec values. -/
def execSpiBurstRead (w : BurstFields) (tail : List Byte) (s : State) : Host.Outcome State Fault Refusal :=
  execSpiBurstReadWith params w tail s

end Sys2Proof.Machine
end

