-- ==== Sys2Proof/Machine/Lfsr.lean ====
section
/-! DEFINITION. The LFSR test-pattern generator (45_lfsr.md). -/

namespace Sys2Proof.Machine

open Sys2Proof.Config

/-- The feedback: the tapped bits of `c` XOR-ed, in bit 11 (45_lfsr.md R210). A tap is a position of the 12-bit word, at
most 11. -/
def lfsrFeedback (taps : List Nat) (c : BitVec 16) : BitVec 16 :=
  taps.foldl (fun fb k => fb ^^^ (c <<< (11 - k))) 0 &&& 0x0800

/-- `NEXT(c)`: the feedback put into the right shift (45_lfsr.md R210), OR-ed at the spec values (decision D22), defined for every
16-bit word. -/
def lfsrNext (p : Params) (c : BitVec 16) : BitVec 16 :=
  match p.lfsrCombine with
  | .or => (c >>> 1) ||| lfsrFeedback p.lfsrTaps c
  | .xor => (c >>> 1) ^^^ lfsrFeedback p.lfsrTaps c

/-- `NEXT_TEST_WORD w` (45_lfsr.md R211): accepted in every lifecycle state; no event but `Result`. -/
def execNextTestWordWith (p : Params) (w : BitVec 16) (s : State) : Host.Outcome State Fault Refusal :=
  accept s true (.next (finish .nextTestWord (.ok (.word (lfsrNext p w)) s)))

/-- `NEXT_TEST_WORD w` at the spec values. -/
def execNextTestWord (w : BitVec 16) (s : State) : Host.Outcome State Fault Refusal := execNextTestWordWith params w s

end Sys2Proof.Machine
end

