-- ==== Sys2Proof/Machine/Dispatch.lean ====
section
/-! DEFINITION. The meaning of every instruction, one arm per constructor. -/

namespace Sys2Proof.Machine

def exec (i : Instr) (s : State) : Host.Outcome State Fault Refusal :=
  match i with
  | .init v => Sys2Proof.Machine.execInit v s
  | .configure cfg => Sys2Proof.Machine.execConfigure cfg s
  | .enableTestMode => Sys2Proof.Machine.execEnableTestMode s
  | .start => Sys2Proof.Machine.execStart s
  | .stop => Sys2Proof.Machine.execStop s
  | .acquireFifo cmd out => Sys2Proof.Machine.execAcquireFifo cmd out s
  | .readChipId => Sys2Proof.Machine.execReadChipId s
  | .nextTestWord w => Sys2Proof.Machine.execNextTestWord w s
  | .resetFifo => Sys2Proof.Machine.execResetFifo s
  | .spiRead addr => Sys2Proof.Machine.execSpiRead addr s
  | .spiWrite addr value => Sys2Proof.Machine.execSpiWrite addr value s
  | .spiBurstRead w tail => Sys2Proof.Machine.execSpiBurstRead w tail s

end Sys2Proof.Machine
end

