-- ==== Sys2Proof/Machine/Parametric.lean ====
section
/-! DEFINITION. The meaning of every instruction at any values of the open parameters (00_scope.md R6, 10_state.md R40; log entry
25). -/

namespace Sys2Proof.Machine

open Sys2Proof.Config

/-- What an instruction does in a block with parameters `p`. -/
def execWith (p : Params) (i : Instr) (s : State) : Host.Outcome State Fault Refusal :=
  match i with
  | .init v => execInitWith p v s
  | .configure cfg => execConfigureWith p cfg s
  | .enableTestMode => execEnableTestModeWith p s
  | .start => execStartWith p s
  | .stop => execStopWith p s
  | .acquireFifo cmd out => execAcquireFifoWith p cmd out s
  | .readChipId => execReadChipIdWith p s
  | .nextTestWord w => execNextTestWordWith p w s
  | .resetFifo => execResetFifoWith p s
  | .spiRead addr => execSpiReadWith p addr s
  | .spiWrite addr value => execSpiWriteWith p addr value s
  | .spiBurstRead w tail => execSpiBurstReadWith p w tail s

/-- One step of a block with parameters `p`, in which an instruction does what `run` says. A command in flight goes on (10_state.md
R26); otherwise the block waits for a request (70_reset_and_hazards.md R260), decodes the one issued first and runs it. -/
def stepBy (p : Params) (run : Instr → State → Host.Outcome State Fault Refusal) (s : State) :
    Host.Outcome State Fault Refusal :=
  match s.cmd with
  | some f => .next (resume p f s)
  | none =>
    match s.requests with
    | [] => .next s
    | r :: rest =>
      match decodeRequest p r with
      | .error e => .refused (.undecodable e)
      | .ok i => run i { s with requests := rest }

/-- One step of a block with parameters `p`. -/
def stepWith (p : Params) (s : State) : Host.Outcome State Fault Refusal := stepBy p (execWith p) s

/-- The machine with parameters `p`, behind the host's interface. -/
def coreWith (p : Params) : Host.Core where
  State := State
  Fault := Fault
  Refusal := Refusal
  step := stepWith p
  reset := State.reset

end Sys2Proof.Machine
end

