-- ==== Sys2Proof/Machine/Step.lean ====
section
/-! DEFINITION. One step of the block at the spec values of the parameters (00_scope.md R6, R8, 10_state.md R26, R28). -/

namespace Sys2Proof.Machine

/-- One step: `stepWith` at the spec values (log entry 25). -/
def step (s : State) : Host.Outcome State Fault Refusal := stepBy params exec s

/-- `s` with the instruction of the given bits issued to it, so that the next step takes it (log entry 9). -/
def State.withFetchWord (s : State) (nbits w : Nat) : State :=
  { s with cmd := none, requests := tableRequest nbits w :: s.requests }

end Sys2Proof.Machine
end

