-- ==== Sys2Proof/Safety.lean ====
section
/-! DEFINITION. What a legal state and a safe run are, in the terms the statements use, and names for the events and answers of
single-register transfers. -/

namespace Sys2Proof.Machine

open Sys2Proof.Config

/-! ### Events and answers -/

/-- The answer of a single-register exchange: status byte, then three bytes big-endian (30_encoding.md R73). -/
def answer (g : Byte) (v : RegValue) : XferAnswer := .bytes (g :: be24 v)

/-- The event of a read frame of register `a` answered with status `g` and value `v` (30_encoding.md R71, R73). -/
def readEvent (p : Params) (a : RegAddr) (g : Byte) (v : RegValue) : Event := .xfer (readFrame p a) (answer g v)

/-- The event of a write frame of `v` to register `a`, answered with status `g` and three further bytes `x`
(30_encoding.md R72, R73). -/
def writeEvent (p : Params) (a : RegAddr) (v : RegValue) (g : Byte) (x : RegValue) : Event :=
  .xfer (writeFrame p a v) (answer g x)

/-- Whether an event is a transfer. -/
def Event.isXfer : Event → Bool
  | .xfer _ _ => true
  | _ => false

/-- Whether an event is a command's result. -/
def Event.isResult : Event → Bool
  | .result _ _ => true
  | _ => false

/-- How many transfers a trace holds. -/
def xferCount (t : List Event) : Nat := (t.filter Event.isXfer).length

/-- Whether a result is `Ok` (60_exceptions.md R231). -/
def CmdResult.isOk : CmdResult → Bool
  | .ok _ => true
  | .err _ => false

/-- The trace of a completed hardware reset pulse (41_control_sequences.md R120). -/
def resetPulse : List Event :=
  [.rst .high .ok, .waitNs 100, .rst .low .ok, .waitNs 100, .rst .high .ok, .waitNs 100]

/-- What a wait observes on a line with no rising edge: HIGH `n` times, then LOW `m` times (60_exceptions.md R236). A sequence of
levels in which no LOW stands right before a HIGH has this form. -/
def restingLine (n m : Nat) : List IrqObs := List.replicate n (.level .high) ++ List.replicate m (.level .low)

/-- What a wait observes when the line is HIGH `n` times, then LOW `m + 1` times, then HIGH: its first rising edge
(60_exceptions.md R236). -/
def risingLine (n m : Nat) : List IrqObs := restingLine n (m + 1) ++ [.level .high]

/-- The last level that a wait has seen after a resting line, `last` being the one before it. -/
def lastSeen (last : Option Level) (n m : Nat) : Option Level :=
  if m ≠ 0 then some .low else if n ≠ 0 then some .high else last

/-- The register value `r` with bit `b` set. -/
def setBit (r : RegValue) (b : Nat) : RegValue := r ||| (1#24 <<< b)

/-- A pending answer from a status byte and a value. -/
def answerOf (q : Byte × RegValue) : XferAnswer := answer q.1 q.2

/-- The events of polls of MAIN with a 10 ms delay after each (41_control_sequences.md R121). -/
def pollEvents (p : Params) (qs : List (Byte × RegValue)) : List Event :=
  qs.flatMap fun q => [readEvent p p.addrMain q.1 q.2, .waitMs 10]

/-- The events that open a software reset: the strobe of `SW_RESET`, whose two exchanges are answered by `q1` and `q2`, and the
100 ns delay (41_control_sequences.md R121). -/
def strobeEvents (p : Params) (q1 q2 : Byte × RegValue) : List Event :=
  [readEvent p p.addrMain q1.1 q1.2, writeEvent p p.addrMain (setBit q1.2 p.mainSwReset) q2.1 q2.2, .waitNs 100]

/-- The events of a software reset that succeeds: the strobe, polls that fail, one that `q3` answers, and the settle delay
(41_control_sequences.md R121). -/
def softResetEvents (p : Params) (q1 q2 : Byte × RegValue) (fails : List (Byte × RegValue)) (q3 : Byte × RegValue) :
    List Event :=
  strobeEvents p q1 q2 ++ pollEvents p fails ++ [readEvent p p.addrMain q3.1 q3.2, .waitMs 10]

/-- The events of the register words, each with its answer (41_control_sequences.md R130). -/
def wordEvents (p : Params) (ws : List Word32) (qs : List (Byte × RegValue)) : List Event :=
  (ws.zip qs).map fun wq => writeEvent p (wq.1.extractLsb' 25 7) (wq.1.extractLsb' 0 24) wq.2.1 wq.2.2

/-- A poll that does not see the reset completed: a status error, or `SW_RESET` reading 1 (41_control_sequences.md R121). -/
def PollFails (p : Params) (q : Byte × RegValue) : Prop := isError p q.1 = true ∨ q.2.getLsbD p.mainSwReset = true

/-- An answer without an error bit in its status byte (10_state.md R37). -/
def Good (p : Params) (q : Byte × RegValue) : Prop := isError p q.1 = false

/-- A poll that sees the reset completed (41_control_sequences.md R121). -/
def PollDone (p : Params) (q : Byte × RegValue) : Prop := Good p q ∧ q.2.getLsbD p.mainSwReset = false

/-- The answer `a` makes a single-register transfer raise `e`: the exchange fails, or the status byte has an error bit (40_framer.md
R100, R106). -/
def Raises (p : Params) (a : XferAnswer) (e : Error) : Prop :=
  (a = .transportError ∧ e = .transport) ∨ ∃ g x, a = answer g x ∧ isError p g = true ∧ e = .status g

/-- The value that programs the FIFO threshold into an SFCTL image `r` (41_control_sequences.md R126, R127). -/
def thresholdValue (p : Params) (r : RegValue) (limit : Nat) : RegValue :=
  insertField r p.sfctlCrefHi p.sfctlCrefLo (BitVec.ofNat 24 (limit / 2 - 1))

/-- The answers to a software reset that succeeds: those of the strobe, of at most four polls that fail, of a poll that sees the
reset completed (41_control_sequences.md R121). -/
def resetAnswers (q1 q2 : Byte × RegValue) (fails : List (Byte × RegValue)) (q3 : Byte × RegValue) : List XferAnswer :=
  answerOf q1 :: answerOf q2 :: (fails.map answerOf ++ [answerOf q3])

/-- The software reset succeeds on the answers `resetAnswers q1 q2 fails q3` (41_control_sequences.md R121). -/
def ResetSucceeds (p : Params) (q1 q2 : Byte × RegValue) (fails : List (Byte × RegValue)) (q3 : Byte × RegValue) : Prop :=
  Good p q1 ∧ Good p q2 ∧ fails.length ≤ 4 ∧ (∀ q ∈ fails, PollFails p q) ∧ PollDone p q3

/-- The event of an exchange that writes `v` to register `a`, whatever its answer (30_encoding.md R72). -/
def writeAnswered (p : Params) (a : RegAddr) (v : RegValue) (x : XferAnswer) : Event := .xfer (writeFrame p a v) x

/-- The event of an exchange that writes a register word, whatever its answer (41_control_sequences.md R128). -/
def wordAnswered (p : Params) (w : Word32) (x : XferAnswer) : Event :=
  writeAnswered p (w.extractLsb' 25 7) (w.extractLsb' 0 24) x

/-- The state after a `CONFIGURE` that has performed the events `es` and raised `e`: no configuration, and the answers `X` are left
(41_control_sequences.md R130). -/
def configureStopped (s : State) (X : List XferAnswer) (es : List Event) (e : Error) : State :=
  { s with life := .idle, config := none, xferIn := X, trace := s.trace ++ es ++ [.result .configure (.err e)] }

/-! ### Legal states -/

/-- A legal state: the invariants of 10_state.md R21, R22 and R24, a valid FIFO limit in every active configuration
(41_control_sequences.md R125, R130), the sizes of the buffers of an acquisition that waits (42_fifo_acquisition.md R162), and
the canonical form of the command buffer. -/
structure State.Inv (p : Params) (s : State) : Prop where
  /-- `variant` is `none` exactly in UNINIT (R22). -/
  variant_iff : s.variant = none ↔ s.life = .uninit
  /-- `life ∈ {ARMED, RUNNING} ⇔ config ≠ none` (R21). -/
  config_iff : s.config ≠ none ↔ (s.life = .armed ∨ s.life = .running)
  /-- An active configuration is one that `CONFIGURE` accepts on this variant (R125, R130). -/
  config_valid : ∀ cfg v, s.config = some cfg → s.variant = some v →
    fifoLimitValid p v (fifoLimit cfg) = true ∧ configurationFormed p cfg = true
  /-- A waiting acquisition has the buffers that its configuration asks for (R162). -/
  waiting : ∀ v limit last, s.cmd = some (.acquireWait v limit last) →
    s.variant = some v ∧ (∃ cfg, s.config = some cfg ∧ fifoLimit cfg = limit) ∧
      s.cmdLen = 4 + payloadBytes limit ∧ s.outBuf.length = limit
  /-- The command buffer has its canonical form. -/
  mem_wf : s.cmdMem.wf
  /-- No byte stands outside the command buffer (20_memory.md R50). -/
  mem_bound : ∀ c ∈ s.cmdMem, c.1 < s.cmdLen

/-! ### What the block sends -/

/-- The bytes of a single-register frame (30_encoding.md R71, R72). -/
def SingleFrame (p : Params) (tx : List Byte) : Prop := (∃ a, tx = readFrame p a) ∨ ∃ a v, tx = writeFrame p a v

/-- The bytes of the burst transfer of variant `v` for FIFO limit `limit`: the burst word, then `P` bytes (30_encoding.md R77). -/
def BurstFrame (p : Params) (v : Variant) (limit : Nat) (tx : List Byte) : Prop :=
  ∃ tail, tx = be32 (burstWord p v) ++ tail ∧ tail.length = payloadBytes limit

/-- The transfers that the block can send in a state: a single-register frame, or the burst of its variant for the FIFO limit of
its active configuration (30_encoding.md R83). -/
def Emits (p : Params) (s : State) (tx : List Byte) : Prop :=
  SingleFrame p tx ∨ ∃ v cfg, s.variant = some v ∧ s.config = some cfg ∧ BurstFrame p v (fifoLimit cfg) tx

/-! ### The reset pulse comes first -/

/-- Every transfer of a trace comes after a completed reset pulse (70_reset_and_hazards.md R262). -/
def XfersAfterPulse (t : List Event) : Prop :=
  ∀ pre tx rx post, t = pre ++ Event.xfer tx rx :: post → resetPulse <:+: pre

/-- The hardware reset precedes every register access (70_reset_and_hazards.md R262), whatever is issued to the block. -/
structure State.PulseFirst (p : Params) (s : State) : Prop where
  inv : s.Inv p
  pulsed : s.life ≠ .uninit → resetPulse <:+: s.trace
  order : XfersAfterPulse s.trace

/-! ### The lifecycle table -/

/-- The `life` after a host command that ended with success or error (41_control_sequences.md R135). -/
def lifeAfter (c : HostOp) (l : Life) (ok : Bool) : Life :=
  match c with
  | .init => if ok then .idle else l
  | .configure => if ok then .armed else .idle
  | .start => if ok then .running else l
  | .stop => if ok && l == .running then .armed else l
  | .enableTestMode => l
  | .acquireFifo => l
  | .readChipId => l
  | .nextTestWord => l
  | .resetFifo => l

/-- The lifecycle states in which a host command is accepted (41_control_sequences.md R135). -/
def lifeAccepts (c : HostOp) (l : Life) : Bool :=
  match c with
  | .init => l == .uninit
  | .nextTestWord => true
  | .configure => l != .uninit
  | .enableTestMode => l != .uninit
  | .start => l != .uninit
  | .stop => l != .uninit
  | .acquireFifo => l != .uninit
  | .readChipId => l != .uninit
  | .resetFifo => l != .uninit

end Sys2Proof.Machine
end

