-- ==== Sys2Proof/Certificates/Slice0/Obligations.lean ====
section
/-! DEFINITION. The statements for the provers. Each names the rule of spec/ it formalises; a statement says "model's choice"
where it rests on a choice of the model's own, with the log entry. Values of the open parameters (00_scope.md R6) are
named through `params`, never written as numbers, except where a statement is about the spec values themselves. -/

open Sys2Proof Sys2Proof.Machine

/-! ### Encoding -/

/-- Decoding what encoding an instruction gives is that instruction, for every well-formed instruction with every operand, at any
values of the parameters whose host codes are distinct. The byte layout of the host port is the model's choice (log entry 10). -/
def Obligations.DecodeOfEncodeIsTheInstruction : Prop :=
  ∀ (p : Config.Params) (i : Instr), p.CodesDistinct → i.WellFormed p → decodeRequest p (encode p i) = .ok i

/-- A request that decodes is the encoding of what it decodes to, which is well formed: one request per instruction, at any values
of the parameters. The byte layout of the host port is the model's choice (log entry 10). -/
def Obligations.EncodeOfDecodeIsTheRequest : Prop :=
  ∀ (p : Config.Params) (r : Request) (i : Instr), decodeRequest p r = .ok i → i.WellFormed p ∧ encode p i = r

/-- Words written out from the spec's encodings decode to their instructions (30_encoding.md R71, R72, R76, R80; the zero operand
bytes after a host code and the three zero bytes after a burst word are the model's layout, log entries 10 and 24). -/
def Obligations.WordsOfTheSpecDecode : Prop :=
  decodeTableWord 8 0x01 = some (.init .tr13c) ∧
  decodeTableWord 8 0x04 = some .start ∧
  decodeTableWord 8 0x07 = some .readChipId ∧
  decodeTableWord 32 0x0C000000 = some (.spiRead 0x06) ∧
  decodeTableWord 32 0x0D0203FF = some (.spiWrite 0x06 0x0203FF) ∧
  decodeTableWord 32 0xC0C00000 = some (.spiBurstRead ⟨0x60, 0, 0x60, 0, 0, 0⟩ [0, 0, 0])

/-- R82: the codes 0x00, 0x0A to 0x0F and every code with a bit of 7:4 set spell no command: the step refuses, so no step is taken. -/
def Obligations.ReservedHostCodesAreRefused : Prop :=
  ∀ (s : State) (op : Byte) (operands : List Byte) (rest : List Request),
    s.cmd = none → s.requests = .command (op :: operands) :: rest →
    (op = 0x00 ∨ (0x0A ≤ op.toNat ∧ op.toNat ≤ 0x0F) ∨ op.extractLsb' 4 4 ≠ 0) →
    step s = .refused (.undecodable (.reservedCode op))

/-- R71, R72: the read frame is the command byte and three zero bytes, the write frame the command byte and the value big-endian;
the command byte holds the address in bits 7:1 and the direction in bit 0. -/
def Obligations.FramesCarryAddressDirectionAndValue : Prop :=
  ∀ (p : Config.Params) (a : RegAddr) (v : RegValue),
    (∃ c : Byte, encode p (.spiRead a) = .transfer [c, 0, 0, 0] ∧ c.toNat = 2 * a.toNat + p.dirRead.toNat) ∧
    (∃ c b1 b2 b3 : Byte, encode p (.spiWrite a v) = .transfer [c, b1, b2, b3] ∧
      c.toNat = 2 * a.toNat + (1 - p.dirRead.toNat) ∧
      b1.toNat * 65536 + b2.toNat * 256 + b3.toNat = v.toNat)

/-- The burst word packs its six fields at the positions of 30_encoding.md R75, and unpacking gives them back. -/
def Obligations.BurstWordPacksItsFields : Prop :=
  ∀ f : BurstFields,
    (packBurst f).toNat = f.taddr.toNat * 2 ^ 25 + f.rw.toNat * 2 ^ 24 + f.saddr.toNat * 2 ^ 17 + f.rwb.toNat * 2 ^ 16 +
      f.nbursts.toNat * 2 ^ 9 + f.pad.toNat ∧
    unpackBurst (packBurst f) = f

/-! ### One step -/

/-- A step with no command in flight takes the request issued first, and runs what it decodes to; at any values of the parameters,
of which `exec` and `step` are the machine at the spec values (log entry 25). -/
def Obligations.StepRunsTheDecodedRequest : Prop :=
  (∀ (s : State) (r : Request) (rest : List Request) (i : Instr),
    s.cmd = none → s.requests = r :: rest → decodeRequest params r = .ok i →
    step s = exec i { s with requests := rest }) ∧
  (∀ (p : Config.Params) (s : State) (r : Request) (rest : List Request) (i : Instr),
    s.cmd = none → s.requests = r :: rest → decodeRequest p r = .ok i →
    stepWith p s = execWith p i { s with requests := rest }) ∧
  (∀ (i : Instr) (s : State), exec i s = execWith params i s ∧ step s = stepWith params s)

/-- A step with no command in flight and no request waits (70_reset_and_hazards.md R260), and a request that does not decode is
refused by the decoder's name. For a host command that refusal is the spec's (30_encoding.md R81, R82). For a wire transfer of
no form of R71, R72 or R77 it is THE MODEL'S OWN (log entries 11, 12 and 24): the spec says only that the block emits none. -/
def Obligations.StepWaitsOrRefusesWithoutACommand : Prop :=
  ∀ s : State, s.cmd = none →
    (s.requests = [] → step s = .next s) ∧
    (∀ r rest e, s.requests = r :: rest → decodeRequest params r = .error e → step s = .refused (.undecodable e))

/-- A configuration of other than 38 words, or with a count of more than 32 bits, spells no command and is refused (30_encoding.md
R81). The second clause is THE MODEL'S CHOICE (log entries 2 and 11): R83 says only that the block never emits a burst word
other than that of R76; that `SPI_BURST_READ`, run by itself with such a word, is refused is the model's. -/
def Obligations.IllFormedOperandsAreRefused : Prop :=
  (∀ (cfg : Configuration) (s : State), s.cmd = none → s.life ≠ .uninit →
    (cfg.words.length ≠ 38 ∨ 2 ^ 32 ≤ cfg.rxAntennas ∨ 2 ^ 32 ≤ cfg.chirpsPerFrame ∨ 2 ^ 32 ≤ cfg.samplesPerChirp) →
    exec (.configure cfg) s = .refused .operandForm) ∧
  (∀ (w : BurstFields) (tail : List Byte) (s : State) (v : Variant), s.cmd = none → s.life ≠ .uninit → s.variant = some v →
    w ≠ burstFields params v → exec (.spiBurstRead w tail) s = .refused .wireForm)

/-- R83: whatever a step of a legal state sends is a read frame, a write frame or the burst of the block's variant for its active
configuration; bytes 1 to 3 of a read frame, and RWB, NBURSTS and PAD of the burst word, are zero. -/
def Obligations.OnlyTheThreeWireEncodingsAreSent : Prop :=
  ∀ p : Config.Params,
    (∀ (s t : State) (es : List Event) (tx : List Byte) (rx : XferAnswer),
      s.Inv p → stepWith p s = .next t → t.trace = s.trace ++ es → .xfer tx rx ∈ es → Emits p s tx) ∧
    (∀ a : RegAddr, (readFrame p a).drop 1 = [0, 0, 0]) ∧
    (∀ v : Variant, burstWord p v &&& 0x0001FFFF = 0)

/-! ### The framer -/

/-- `CHECK_STATUS` at the spec positions: the error bits are 0, 1 and 3 (10_state.md R37, 40_framer.md R100; the model's choice of
positions: log entry 1). -/
def Obligations.StatusErrorBits : Prop :=
  ∀ (g : Byte) (s : State),
    (g &&& 0x0B ≠ 0 → checkStatus params g s = .raised (.status g) s) ∧ (g &&& 0x0B = 0 → checkStatus params g s = .ok () s)

/-- `SPI_READ` completes in a constructed block: it returns the three response bytes and the status, or the error of the exchange
or of the status byte (40_framer.md, `READ_REGISTER`). That it is run by itself, and at every address, is the model's choice (log
entries 11 and 26). -/
def Obligations.SpiReadReturnsTheRegister : Prop :=
  ∀ (s : State) (a : RegAddr) (X : List XferAnswer), s.cmd = none → s.life ≠ .uninit →
    (∀ g v, s.xferIn = answer g v :: X → isError params g = false →
      exec (.spiRead a) s = .next { s with
        xferIn := X, framer := some (.value v g), trace := s.trace ++ [readEvent params a g v] }) ∧
    (∀ g v, s.xferIn = answer g v :: X → isError params g = true →
      exec (.spiRead a) s = .next { s with
        xferIn := X, framer := some (.failed (.status g)), trace := s.trace ++ [readEvent params a g v] }) ∧
    (s.xferIn = .transportError :: X →
      exec (.spiRead a) s = .next { s with
        xferIn := X, framer := some (.failed .transport),
        trace := s.trace ++ [.xfer (readFrame params a) .transportError] })

/-- `SPI_WRITE` completes in a constructed block: it returns the status, whatever bytes 1 to 3 of the response are, or the error
(40_framer.md, `WRITE_REGISTER`). That it is run by itself, at every
address, and with no settle after a software reset, is the model's choice (log entries 11, 26 and 27). -/
def Obligations.SpiWriteReturnsTheStatus : Prop :=
  ∀ (s : State) (a : RegAddr) (v : RegValue) (X : List XferAnswer), s.cmd = none → s.life ≠ .uninit →
    (∀ g x, s.xferIn = answer g x :: X → isError params g = false →
      exec (.spiWrite a v) s = .next { s with
        xferIn := X, framer := some (.status g), trace := s.trace ++ [writeEvent params a v g x] }) ∧
    (∀ g x, s.xferIn = answer g x :: X → isError params g = true →
      exec (.spiWrite a v) s = .next { s with
        xferIn := X, framer := some (.failed (.status g)), trace := s.trace ++ [writeEvent params a v g x] }) ∧
    (s.xferIn = .transportError :: X →
      exec (.spiWrite a v) s = .next { s with
        xferIn := X, framer := some (.failed .transport),
        trace := s.trace ++ [.xfer (writeFrame params a v) .transportError] })

/-- `SPI_BURST_READ` with the burst word of the block's variant completes. With an active configuration and `P` bytes after the word
they go out in one transfer, the response takes the place of the buffer, the status or its error is returned, and `OUT` is not
touched (30_encoding.md, burst transfer); after a failed exchange the burst word stands in the buffer, followed by any bytes.
Without a configuration, or with another number of bytes, nothing is sent. It is run by itself, and the two errors are those of
`ACQUIRE_FIFO`, the model's choice (log entry 11). -/
def Obligations.SpiBurstReadFillsTheCommandBuffer : Prop :=
  ∀ (s : State) (v : Variant) (tail : List Byte), s.cmd = none → s.life ≠ .uninit → s.variant = some v →
    (∀ cfg rx X, s.config = some cfg → tail.length = payloadBytes (fifoLimit cfg) →
      s.xferIn = .bytes rx :: X → rx.length = 4 + tail.length →
      ∃ mem : Memory, mem.readBytes 0 (4 + tail.length) = rx ∧ (∀ a, 4 + tail.length ≤ a → mem.read a = Memory.blank) ∧
        exec (.spiBurstRead (burstFields params v) tail) s = .next { s with
          cmdLen := 4 + tail.length, cmdMem := mem, xferIn := X,
          framer := some (if isError params (responseStatus rx) = true then .failed (.status (responseStatus rx))
            else .status (responseStatus rx)),
          trace := s.trace ++ [.xfer (be32 (burstWord params v) ++ tail) (.bytes rx)] }) ∧
    (∀ cfg X, s.config = some cfg → tail.length = payloadBytes (fifoLimit cfg) → s.xferIn = .transportError :: X →
      ∃ (mem : Memory) (d : Nat), mem.readBytes 0 4 = be32 (burstWord params v) ∧
        (∀ a, 4 + tail.length ≤ a → mem.read a = Memory.blank) ∧
        exec (.spiBurstRead (burstFields params v) tail) s = .next { s with
          cmdLen := 4 + tail.length, cmdMem := mem, xferIn := X, draws := d, framer := some (.failed .transport),
          trace := s.trace ++ [.xfer (be32 (burstWord params v) ++ tail) .transportError] }) ∧
    (∃ mem : Memory, mem.readBytes 0 (4 + tail.length) = be32 (burstWord params v) ++ tail ∧
      (∀ a, 4 + tail.length ≤ a → mem.read a = Memory.blank) ∧
      (s.config = none →
        exec (.spiBurstRead (burstFields params v) tail) s = .next { s with
          cmdLen := 4 + tail.length, cmdMem := mem, framer := some (.failed .noConfiguration) }) ∧
      (∀ cfg, s.config = some cfg → tail.length ≠ payloadBytes (fifoLimit cfg) →
        exec (.spiBurstRead (burstFields params v) tail) s = .next { s with
          cmdLen := 4 + tail.length, cmdMem := mem,
          framer := some (.failed
            (.bufferSizeMismatch .cmdBuf (4 + payloadBytes (fifoLimit cfg)) (4 + tail.length))) }))

/-- R103: a read-modify-write writes the value read with field `hi:lo` set to `f` and every other bit kept; if the read fails no
write is sent. -/
def Obligations.ReadModifyWriteKeepsOtherBits : Prop :=
  ∀ (p : Config.Params) (a : RegAddr) (hi lo : Nat) (f : RegValue) (s : State) (X : List XferAnswer), lo ≤ hi → hi ≤ 23 →
    (∀ g1 r x2, s.xferIn = answer g1 r :: x2 :: X → isError p g1 = false →
      ∃ w : RegValue,
        (∀ k, k < 24 → w.getLsbD k = if lo ≤ k ∧ k ≤ hi then f.getLsbD (k - lo) else r.getLsbD k) ∧
        (∀ g2 x, x2 = answer g2 x → isError p g2 = false →
          readModifyWrite p a hi lo f s =
            .ok () { s with xferIn := X, trace := s.trace ++ [readEvent p a g1 r, writeEvent p a w g2 x] }) ∧
        (∀ e, Raises p x2 e →
          readModifyWrite p a hi lo f s = .raised e { s with
            xferIn := X, trace := s.trace ++ [readEvent p a g1 r, writeAnswered p a w x2] })) ∧
    (∀ x1 e, s.xferIn = x1 :: X → Raises p x1 e →
      readModifyWrite p a hi lo f s =
        .raised e { s with xferIn := X, trace := s.trace ++ [.xfer (readFrame p a) x1] })

/-- R105: one exchange per `READ_REGISTER` and `WRITE_REGISTER`; two per `READ_MODIFY_WRITE` and `STROBE` when the read
succeeds, one when it fails; whatever the environment answers. -/
def Obligations.OneExchangePerFramerCall : Prop :=
  ∀ (p : Config.Params) (a : RegAddr) (v f : RegValue) (hi lo b : Nat) (s : State),
    xferCount (readRegister p a s).state.trace = xferCount s.trace + 1 ∧
    xferCount (writeRegister p a v s).state.trace = xferCount s.trace + 1 ∧
    ((∃ r s', readRegister p a s = .ok r s') →
      xferCount (readModifyWrite p a hi lo f s).state.trace = xferCount s.trace + 2 ∧
      xferCount (strobe p a b s).state.trace = xferCount s.trace + 2) ∧
    ((∃ e s', readRegister p a s = .raised e s') →
      xferCount (readModifyWrite p a hi lo f s).state.trace = xferCount s.trace + 1 ∧
      xferCount (strobe p a b s).state.trace = xferCount s.trace + 1)

/-! ### Reset and configuration -/

/-- R120: the reset pulse drives HIGH, LOW, HIGH with 100 ns after each; a pin error ends it there, with `rst_level` the level last
requested. -/
def Obligations.HardwareResetPulsesThePin : Prop :=
  ∀ (s : State) (R : List PinAnswer),
    (s.rstIn = .ok :: .ok :: .ok :: R →
      resetHardware s = .ok () { s with rstLevel := .high, rstIn := R, trace := s.trace ++
        [.rst .high .ok, .waitNs 100, .rst .low .ok, .waitNs 100, .rst .high .ok, .waitNs 100] }) ∧
    (s.rstIn = .pinError :: R →
      resetHardware s = .raised .pin { s with rstLevel := .high, rstIn := R, trace := s.trace ++ [.rst .high .pinError] }) ∧
    (s.rstIn = .ok :: .pinError :: R →
      resetHardware s = .raised .pin { s with rstLevel := .low, rstIn := R, trace := s.trace ++
        [.rst .high .ok, .waitNs 100, .rst .low .pinError] }) ∧
    (s.rstIn = .ok :: .ok :: .pinError :: R →
      resetHardware s = .raised .pin { s with rstLevel := .high, rstIn := R, trace := s.trace ++
        [.rst .high .ok, .waitNs 100, .rst .low .ok, .waitNs 100, .rst .high .pinError] })

/-- `INIT` completes on a chip whose identity is accepted: pulse, one read of CHIP_ID, and the block is IDLE with its variant. -/
def Obligations.InitBringsTheBlockToIdle : Prop :=
  ∀ (s : State) (v : Variant) (g : Byte) (id : RegValue) (R : List PinAnswer) (X : List XferAnswer),
    s.cmd = none → s.life = .uninit → s.rstIn = .ok :: .ok :: .ok :: R → s.xferIn = answer g id :: X →
    isError params g = false →
    acceptId params v (chipIdView params id).digitalId (chipIdView params id).rfId = true →
    exec (.init v) s = .next { s with
      life := .idle, variant := some v, config := none, rstLevel := .high, rstIn := R, xferIn := X,
      trace := s.trace ++ resetPulse ++ [readEvent params params.addrChipId g id, .result .init (.ok .none)] }

/-- R203: a failed acceptance ends `INIT` with `VariantMismatch(d, r)`, carrying the identity read, and the block stays UNINIT. -/
def Obligations.InitRejectsAnotherChip : Prop :=
  ∀ (s : State) (v : Variant) (g : Byte) (id : RegValue) (R : List PinAnswer) (X : List XferAnswer),
    s.cmd = none → s.life = .uninit → s.rstIn = .ok :: .ok :: .ok :: R → s.xferIn = answer g id :: X →
    isError params g = false →
    acceptId params v (chipIdView params id).digitalId (chipIdView params id).rfId = false →
    exec (.init v) s = .next { s with
      rstLevel := .high, rstIn := R, xferIn := X,
      trace := s.trace ++ resetPulse ++ [readEvent params params.addrChipId g id,
        .result .init (.err (.variantMismatch (chipIdView params id).digitalId (chipIdView params id).rfId))] }

/-- `INIT`, for every answer of the environment, ends in IDLE with its variant and `Ok`, or leaves the block UNINIT with an error:
never in between. Which error it is the answers say: a pin error at the first, second or third `RstSet` ends it there with `Pin`,
with no exchange performed and the pin level last requested; a status error or a transport error of the CHIP_ID read ends it with
`Status` or `Transport` after the whole pulse. In all four nothing else changes. -/
def Obligations.InitSucceedsOrStaysUninit : Prop :=
  ∀ (s : State) (v : Variant), s.cmd = none → s.life = .uninit →
    (∃ t, exec (.init v) s = .next t ∧ t.cmd = none ∧
      ((t.life = .idle ∧ t.variant = some v ∧ t.config = none ∧ t.trace.getLast? = some (.result .init (.ok .none))) ∨
        (t.life = .uninit ∧ t.variant = s.variant ∧ t.config = s.config ∧
          ∃ e, t.trace.getLast? = some (.result .init (.err e))))) ∧
    (∀ R, s.rstIn = .pinError :: R →
      exec (.init v) s = .next { s with
        rstLevel := .high, rstIn := R, trace := s.trace ++ [.rst .high .pinError, .result .init (.err .pin)] }) ∧
    (∀ R, s.rstIn = .ok :: .pinError :: R →
      exec (.init v) s = .next { s with
        rstLevel := .low, rstIn := R,
        trace := s.trace ++ [.rst .high .ok, .waitNs 100, .rst .low .pinError, .result .init (.err .pin)] }) ∧
    (∀ R, s.rstIn = .ok :: .ok :: .pinError :: R →
      exec (.init v) s = .next { s with
        rstLevel := .high, rstIn := R,
        trace := s.trace ++ [.rst .high .ok, .waitNs 100, .rst .low .ok, .waitNs 100, .rst .high .pinError,
          .result .init (.err .pin)] }) ∧
    (∀ R x e X, s.rstIn = .ok :: .ok :: .ok :: R → s.xferIn = x :: X → Raises params x e →
      exec (.init v) s = .next { s with
        rstLevel := .high, rstIn := R, xferIn := X,
        trace := s.trace ++ resetPulse ++ [.xfer (readFrame params params.addrChipId) x, .result .init (.err e)] })

/-- `CONFIGURE` completes: a software reset whose first polls may fail (at most four), the 38 words in array order, the FIFO
threshold by read-modify-write, and the configuration is active. -/
def Obligations.ConfigureProgramsTheChipAndArms : Prop :=
  ∀ (s : State) (v : Variant) (cfg : Configuration) (q1 q2 q3 q4 q5 : Byte × RegValue)
    (fails qs : List (Byte × RegValue)) (X : List XferAnswer),
    s.cmd = none → s.life ≠ .uninit → s.variant = some v → configurationFormed params cfg = true →
    fifoLimitValid params v (fifoLimit cfg) = true →
    s.xferIn = resetAnswers q1 q2 fails q3 ++ qs.map answerOf ++ [answerOf q4, answerOf q5] ++ X →
    ResetSucceeds params q1 q2 fails q3 → qs.length = 38 → (∀ q ∈ qs, Good params q) → Good params q4 → Good params q5 →
    exec (.configure cfg) s = .next { s with
      life := .armed, config := some cfg, xferIn := X,
      trace := s.trace ++ softResetEvents params q1 q2 fails q3 ++ wordEvents params cfg.words qs ++
        [readEvent params params.addrSfctl q4.1 q4.2,
          writeEvent params params.addrSfctl (thresholdValue params q4.2 (fifoLimit cfg)) q5.1 q5.2,
          .result .configure (.ok .none)] }

/-- `CONFIGURE` ends at its first error, with the events performed until then and no other: a failed strobe is followed by no poll
and no word; a transport error in a poll by no delay, and five failed polls by the settle delay and `ResetTimeout`; a failed
register word by no later word and no access to SFCTL; a failed read of SFCTL by no write (41_control_sequences.md,
`RESET_SOFTWARE` and `CONFIGURE`). -/
def Obligations.ConfigureStopsAtItsFirstError : Prop :=
  ∀ (s : State) (v : Variant) (cfg : Configuration) (X : List XferAnswer),
    s.cmd = none → s.life ≠ .uninit → s.variant = some v → configurationFormed params cfg = true →
    fifoLimitValid params v (fifoLimit cfg) = true →
    (∀ x e, s.xferIn = x :: X → Raises params x e →
      exec (.configure cfg) s = .next (configureStopped s X [.xfer (readFrame params params.addrMain) x] e)) ∧
    (∀ q1 x e, s.xferIn = answerOf q1 :: x :: X → Good params q1 → Raises params x e →
      exec (.configure cfg) s = .next (configureStopped s X
        [readEvent params params.addrMain q1.1 q1.2,
          writeAnswered params params.addrMain (setBit q1.2 params.mainSwReset) x] e)) ∧
    (∀ q1 q2 fails, s.xferIn = answerOf q1 :: answerOf q2 :: (fails.map answerOf ++ .transportError :: X) →
      Good params q1 → Good params q2 → fails.length ≤ 4 → (∀ q ∈ fails, PollFails params q) →
      exec (.configure cfg) s = .next (configureStopped s X
        (strobeEvents params q1 q2 ++ pollEvents params fails ++ [.xfer (readFrame params params.addrMain) .transportError])
        .transport)) ∧
    (∀ q1 q2 fails, s.xferIn = answerOf q1 :: answerOf q2 :: (fails.map answerOf ++ X) →
      Good params q1 → Good params q2 → fails.length = 5 → (∀ q ∈ fails, PollFails params q) →
      exec (.configure cfg) s = .next (configureStopped s X
        (strobeEvents params q1 q2 ++ pollEvents params fails) .resetTimeout)) ∧
    (∀ q1 q2 fails q3 qs w x e, s.xferIn = resetAnswers q1 q2 fails q3 ++ qs.map answerOf ++ x :: X →
      ResetSucceeds params q1 q2 fails q3 → (∀ q ∈ qs, Good params q) → cfg.words[qs.length]? = some w → Raises params x e →
      exec (.configure cfg) s = .next (configureStopped s X
        (softResetEvents params q1 q2 fails q3 ++ wordEvents params cfg.words qs ++ [wordAnswered params w x]) e)) ∧
    (∀ q1 q2 fails q3 qs x e, s.xferIn = resetAnswers q1 q2 fails q3 ++ qs.map answerOf ++ x :: X →
      ResetSucceeds params q1 q2 fails q3 → (∀ q ∈ qs, Good params q) → qs.length = 38 → Raises params x e →
      exec (.configure cfg) s = .next (configureStopped s X
        (softResetEvents params q1 q2 fails q3 ++ wordEvents params cfg.words qs ++
          [.xfer (readFrame params params.addrSfctl) x]) e)) ∧
    (∀ q1 q2 fails q3 qs q4 x e, s.xferIn = resetAnswers q1 q2 fails q3 ++ qs.map answerOf ++ answerOf q4 :: x :: X →
      ResetSucceeds params q1 q2 fails q3 → (∀ q ∈ qs, Good params q) → qs.length = 38 → Good params q4 → Raises params x e →
      exec (.configure cfg) s = .next (configureStopped s X
        (softResetEvents params q1 q2 fails q3 ++ wordEvents params cfg.words qs ++
          [readEvent params params.addrSfctl q4.1 q4.2,
            writeAnswered params params.addrSfctl (thresholdValue params q4.2 (fifoLimit cfg)) x]) e))

/-- `CONFIGURE` with an invalid FIFO limit performs no event on any port and leaves the block without a configuration. -/
def Obligations.ConfigureRejectsAnInvalidLimit : Prop :=
  ∀ (s : State) (v : Variant) (cfg : Configuration),
    s.cmd = none → s.life ≠ .uninit → s.variant = some v → configurationFormed params cfg = true →
    fifoLimitValid params v (fifoLimit cfg) = false →
    exec (.configure cfg) s = .next { s with
      life := .idle, config := none,
      trace := s.trace ++ [.result .configure (.err (.invalidFifoLimit
        (cfg.rxAntennas * cfg.chirpsPerFrame * cfg.samplesPerChirp)))] }

/-- `CONFIGURE`, for every answer of the environment, ends ARMED with the new configuration or IDLE with none: the previous
configuration is never left (10_state.md, `config`). -/
def Obligations.ConfigureActivatesOrDiscards : Prop :=
  ∀ (s : State) (v : Variant) (cfg : Configuration),
    s.cmd = none → s.life ≠ .uninit → s.variant = some v → configurationFormed params cfg = true →
    ∃ t, exec (.configure cfg) s = .next t ∧ t.variant = s.variant ∧
      ((t.life = .armed ∧ t.config = some cfg ∧ t.trace.getLast? = some (.result .configure (.ok .none))) ∨
        (t.life = .idle ∧ t.config = none ∧ ∃ e, t.trace.getLast? = some (.result .configure (.err e))))

/-- The valid FIFO limits under `POW2_EVEN` are the powers of two from 2 to twice the variant's bound, and under `EVEN` the even
numbers in that range; the threshold of a valid limit fits its 13-bit field (41_control_sequences.md, `FIFO_LIMIT_VALID`,
`CREF`). Which rule the block has is a parameter; that `step` has `POW2_EVEN` is the model's choice (log entry 3). -/
def Obligations.ValidLimitsAndTheirThreshold : Prop :=
  ∀ (p : Config.Params) (limit : Nat),
    (p.fifoLimitRule = .pow2Even →
      (fifoLimitValid p .tr13c limit = true ↔ ∃ k, 1 ≤ k ∧ k ≤ 14 ∧ limit = 2 ^ k) ∧
      (fifoLimitValid p .utr11aip limit = true ↔ ∃ k, 1 ≤ k ∧ k ≤ 12 ∧ limit = 2 ^ k)) ∧
    (p.fifoLimitRule = .even → ∀ v,
      (fifoLimitValid p v limit = true ↔ 2 ≤ limit ∧ limit % 2 = 0 ∧ limit ≤ 2 * maxBlocks v)) ∧
    (∀ v, fifoLimitValid p v limit = true →
      (cref limit).toNat = limit / 2 - 1 ∧ (cref limit).toNat ≤ maxBlocks v - 1)

/-- R128: a register word's address is its top 7 bits and its payload its low 24 bits; bit 24 is dropped. -/
def Obligations.RegisterWordSplits : Prop :=
  ∀ w : Word32,
    (regwordAddr w).toNat = w.toNat / 2 ^ 25 ∧ (regwordPayload w).toNat = w.toNat % 2 ^ 24

/-- `START` completes: the frame-start bit is set by read-modify-write of MAIN and the block is RUNNING. Without an active
configuration it ends with `NoConfiguration` before any event on a port. That it runs at once also after an `SPI_WRITE` by itself
began a software reset is the model's choice (log entry 28). -/
def Obligations.StartSetsFrameStart : Prop :=
  ∀ s : State, s.cmd = none → s.life ≠ .uninit →
    (∀ (g1 g2 : Byte) (r x : RegValue) (X : List XferAnswer),
      s.config ≠ none → s.xferIn = answer g1 r :: answer g2 x :: X →
      isError params g1 = false → isError params g2 = false →
      exec .start s = .next { s with
        life := .running, xferIn := X,
        trace := s.trace ++ [readEvent params params.addrMain g1 r,
          writeEvent params params.addrMain (setBit r params.mainFrameStart) g2 x, .result .start (.ok .none)] }) ∧
    (s.config = none →
      exec .start s = .next { s with trace := s.trace ++ [.result .start (.err .noConfiguration)] })

/-- `STOP` completes: the fsm-reset bit is set by read-modify-write of MAIN, RUNNING becomes ARMED, any other `life` and the
configuration stay. That it runs at once also after an `SPI_WRITE` by itself began a software reset is the model's
choice (log entry 28). -/
def Obligations.StopSetsFsmReset : Prop :=
  ∀ (s : State) (g1 g2 : Byte) (r x : RegValue) (X : List XferAnswer),
    s.cmd = none → s.life ≠ .uninit → s.xferIn = answer g1 r :: answer g2 x :: X →
    isError params g1 = false → isError params g2 = false →
    exec .stop s = .next { s with
      life := if s.life = .running then .armed else s.life, xferIn := X,
      trace := s.trace ++ [readEvent params params.addrMain g1 r,
        writeEvent params params.addrMain (setBit r params.mainFsmReset) g2 x, .result .stop (.ok .none)] }

/-- `ENABLE_TEST_MODE` and `RESET_FIFO` complete: one bit of SFCTL, or of MAIN, is set by read-modify-write, and the block's own
state stays. That they run at once also after an `SPI_WRITE` by itself began a software reset is the model's
choice (log entry 28). -/
def Obligations.TestModeAndFifoResetSetTheirBit : Prop :=
  ∀ (s : State) (g1 g2 : Byte) (r x : RegValue) (X : List XferAnswer),
    s.cmd = none → s.life ≠ .uninit → s.xferIn = answer g1 r :: answer g2 x :: X →
    isError params g1 = false → isError params g2 = false →
    exec .enableTestMode s = .next { s with
      xferIn := X,
      trace := s.trace ++ [readEvent params params.addrSfctl g1 r,
        writeEvent params params.addrSfctl (setBit r params.sfctlLfsrEn) g2 x, .result .enableTestMode (.ok .none)] } ∧
    exec .resetFifo s = .next { s with
      xferIn := X,
      trace := s.trace ++ [readEvent params params.addrMain g1 r,
        writeEvent params params.addrMain (setBit r params.mainFifoReset) g2 x, .result .resetFifo (.ok .none)] }

/-- The commands that strobe a bit, when one of their two exchanges fails: the error is reported, nothing is retried, no write
follows a failed read, and the block's own state stays (40_framer.md, read-modify-write; 60_exceptions.md, state after each
error). That they run at once also after an `SPI_WRITE` by itself began a software reset is the model's
choice (log entry 28). -/
def Obligations.FailedStrobesChangeNothing : Prop :=
  ∀ (s : State) (i : Instr) (c : HostOp) (a : RegAddr) (b : Nat) (X : List XferAnswer),
    s.cmd = none → s.life ≠ .uninit → (i = .start → s.config ≠ none) →
    ((i = .start ∧ c = .start ∧ a = params.addrMain ∧ b = params.mainFrameStart) ∨
      (i = .stop ∧ c = .stop ∧ a = params.addrMain ∧ b = params.mainFsmReset) ∨
      (i = .resetFifo ∧ c = .resetFifo ∧ a = params.addrMain ∧ b = params.mainFifoReset) ∨
      (i = .enableTestMode ∧ c = .enableTestMode ∧ a = params.addrSfctl ∧ b = params.sfctlLfsrEn)) →
    (∀ x e, s.xferIn = x :: X → Raises params x e →
      exec i s = .next { s with
        xferIn := X, trace := s.trace ++ [.xfer (readFrame params a) x, .result c (.err e)] }) ∧
    (∀ g r x e, s.xferIn = answer g r :: x :: X → isError params g = false → Raises params x e →
      exec i s = .next { s with
        xferIn := X,
        trace := s.trace ++ [readEvent params a g r, writeAnswered params a (setBit r b) x, .result c (.err e)] })

/-! ### The lifecycle -/

/-- A host command outside its lifecycle states is refused, and the others never are refused by the guard (41_control_sequences.md,
lifecycle summary, column by column); while a command is in flight no request at all is accepted (10_state.md, `cmd`). A wire
transfer issued by itself is refused by the guard exactly in UNINIT, so that none comes before the hardware reset
(70_reset_and_hazards.md, boot); that it can be issued by itself is the model's choice (log entry 11). -/
def Obligations.LifecycleGuardRefusesExactly : Prop :=
  (∀ (i : Instr) (c : HostOp) (s : State), i.hostOp = some c → s.cmd = none →
    (exec i s = .refused .lifecycleGuard ↔ lifeAccepts c s.life = false)) ∧
  (∀ (i : Instr) (s : State), i.hostOp = none → s.cmd = none →
    (exec i s = .refused .lifecycleGuard ↔ s.life = .uninit)) ∧
  (∀ (i : Instr) (s : State), s.cmd ≠ none → exec i s = .refused .commandInFlight)

/-- Every host command reports exactly once, after its last event, and leaves the `life` of the lifecycle summary; or it is an
`ACQUIRE_FIFO` that waits, with nothing done yet. A step that goes on with a waiting `ACQUIRE_FIFO` does the same. -/
def Obligations.CommandsReportOnceAndFollowTheTable : Prop :=
  (∀ (i : Instr) (c : HostOp) (s t : State), i.hostOp = some c → exec i s = .next t →
    (t.cmd ≠ none ∧ c = .acquireFifo ∧ t.life = s.life ∧ t.trace = s.trace) ∨
    (t.cmd = none ∧ ∃ es r, t.trace = s.trace ++ es ++ [.result c r] ∧ (∀ e ∈ es, e.isResult = false) ∧
      t.life = lifeAfter c s.life r.isOk)) ∧
  (∀ (s t : State) (v : Variant) (limit : Nat) (last : Option Level),
    s.cmd = some (.acquireWait v limit last) → step s = .next t →
    (t.cmd ≠ none ∧ t.life = s.life ∧ t.trace = s.trace) ∨
    (t.cmd = none ∧ t.life = s.life ∧
      ∃ es r, t.trace = s.trace ++ es ++ [.result .acquireFifo r] ∧ ∀ e ∈ es, e.isResult = false))

/-- An error of any host command but `CONFIGURE` leaves `life`, `variant` and `config` as they were, and, of any but `INIT`, the
reset output too (60_exceptions.md, state after each error). So does an error that ends a waiting `ACQUIRE_FIFO`, which leaves
`OUT` as well. -/
def Obligations.ErrorsLeaveTheBlockState : Prop :=
  (∀ (i : Instr) (c : HostOp) (s t : State) (es : List Event) (e : Error),
    i.hostOp = some c → c ≠ .configure → exec i s = .next t → t.trace = s.trace ++ es ++ [.result c (.err e)] →
    t.life = s.life ∧ t.variant = s.variant ∧ t.config = s.config ∧ (c ≠ .init → t.rstLevel = s.rstLevel)) ∧
  (∀ (s t : State) (v : Variant) (limit : Nat) (last : Option Level) (es : List Event) (e : Error),
    s.cmd = some (.acquireWait v limit last) → step s = .next t →
    t.trace = s.trace ++ es ++ [.result .acquireFifo (.err e)] →
    t.life = s.life ∧ t.variant = s.variant ∧ t.config = s.config ∧ t.rstLevel = s.rstLevel ∧ t.outBuf = s.outBuf)

/-! ### FIFO acquisition -/

/-- `ACQUIRE_FIFO` completes: after the first rising edge of the interrupt line, the burst word and the bytes the host left go out
in one transfer, the response takes their place in `CMD`, and `OUT` holds the unpacked samples. -/
def Obligations.AcquireReadsOneFrame : Prop :=
  ∀ (s : State) (v : Variant) (cfg : Configuration) (cmd rx : List Byte) (out : List Sample) (n m : Nat)
    (rest : List IrqObs) (X : List XferAnswer),
    s.cmd = none → s.life ≠ .uninit → s.variant = some v → s.config = some cfg →
    cmd.length = 4 + payloadBytes (fifoLimit cfg) → out.length = fifoLimit cfg →
    s.irqIn = risingLine n m ++ rest → s.xferIn = .bytes rx :: X → rx.length = cmd.length →
    isError params (responseStatus rx) = false →
    ∃ mem : Memory, mem.readBytes 0 cmd.length = rx ∧ (∀ a, cmd.length ≤ a → mem.read a = Memory.blank) ∧
      exec (.acquireFifo cmd out) s = .next { s with
        cmdLen := cmd.length, cmdMem := mem, outBuf := (List.range (fifoLimit cfg)).map (unpack (rx.drop 4)),
        irqIn := rest, xferIn := X,
        trace := s.trace ++ [.irqRise .ok, .xfer (be32 (burstWord params v) ++ cmd.drop 4) (.bytes rx),
          .result .acquireFifo (.ok .none)] }

/-- `ACQUIRE_FIFO` checks, in this order, the configuration, the length of `CMD`, the length of `OUT`; each failure performs no
event on a port and writes neither buffer. -/
def Obligations.AcquireChecksItsBuffersFirst : Prop :=
  ∀ (s : State) (v : Variant) (cmd : List Byte) (out : List Sample), s.cmd = none → s.life ≠ .uninit → s.variant = some v →
    ∃ mem : Memory, mem.readBytes 0 cmd.length = cmd ∧
      (s.config = none →
        exec (.acquireFifo cmd out) s = .next { s with
          cmdLen := cmd.length, cmdMem := mem, outBuf := out,
          trace := s.trace ++ [.result .acquireFifo (.err .noConfiguration)] }) ∧
      (∀ cfg, s.config = some cfg → cmd.length ≠ 4 + payloadBytes (fifoLimit cfg) →
        exec (.acquireFifo cmd out) s = .next { s with
          cmdLen := cmd.length, cmdMem := mem, outBuf := out,
          trace := s.trace ++ [.result .acquireFifo (.err
            (.bufferSizeMismatch .cmdBuf (4 + payloadBytes (fifoLimit cfg)) cmd.length))] }) ∧
      (∀ cfg, s.config = some cfg → cmd.length = 4 + payloadBytes (fifoLimit cfg) → out.length ≠ fifoLimit cfg →
        exec (.acquireFifo cmd out) s = .next { s with
          cmdLen := cmd.length, cmdMem := mem, outBuf := out,
          trace := s.trace ++ [.result .acquireFifo (.err
            (.bufferSizeMismatch .outBuf (fifoLimit cfg) out.length))] })

/-- `ACQUIRE_FIFO` after the interrupt, when the burst fails: a status error leaves the response in `CMD`, a transport error the
burst word followed by any bytes; `OUT` is written by neither. -/
def Obligations.FailedBurstsLeaveTheSamples : Prop :=
  ∀ (s : State) (v : Variant) (cfg : Configuration) (cmd : List Byte) (out : List Sample) (n m : Nat)
    (rest : List IrqObs) (X : List XferAnswer),
    s.cmd = none → s.life ≠ .uninit → s.variant = some v → s.config = some cfg →
    cmd.length = 4 + payloadBytes (fifoLimit cfg) → out.length = fifoLimit cfg → s.irqIn = risingLine n m ++ rest →
    (∀ rx, s.xferIn = .bytes rx :: X → rx.length = cmd.length → isError params (responseStatus rx) = true →
      ∃ mem : Memory, mem.readBytes 0 cmd.length = rx ∧ (∀ a, cmd.length ≤ a → mem.read a = Memory.blank) ∧
        exec (.acquireFifo cmd out) s = .next { s with
          cmdLen := cmd.length, cmdMem := mem, outBuf := out, irqIn := rest, xferIn := X,
          trace := s.trace ++ [.irqRise .ok, .xfer (be32 (burstWord params v) ++ cmd.drop 4) (.bytes rx),
            .result .acquireFifo (.err (.status (responseStatus rx)))] }) ∧
    (s.xferIn = .transportError :: X →
      ∃ (mem : Memory) (d : Nat), mem.readBytes 0 4 = be32 (burstWord params v) ∧
        (∀ a, cmd.length ≤ a → mem.read a = Memory.blank) ∧
        exec (.acquireFifo cmd out) s = .next { s with
          cmdLen := cmd.length, cmdMem := mem, outBuf := out, irqIn := rest, xferIn := X, draws := d,
          trace := s.trace ++ [.irqRise .ok, .xfer (be32 (burstWord params v) ++ cmd.drop 4) .transportError,
            .result .acquireFifo (.err .transport)] })

/-- `ACQUIRE_FIFO` whose wait meets a pin error before any rising edge, on a line that is HIGH any number of times and then LOW any
number of times, ends with `Pin`, and neither buffer is written. -/
def Obligations.WaitReportsAPinError : Prop :=
  ∀ (s : State) (v : Variant) (cfg : Configuration) (cmd : List Byte) (out : List Sample) (n m : Nat) (rest : List IrqObs),
    s.cmd = none → s.life ≠ .uninit → s.variant = some v → s.config = some cfg →
    cmd.length = 4 + payloadBytes (fifoLimit cfg) → out.length = fifoLimit cfg →
    s.irqIn = restingLine n m ++ .pinError :: rest →
    ∃ mem : Memory, mem.readBytes 0 cmd.length = cmd ∧ (∀ a, cmd.length ≤ a → mem.read a = Memory.blank) ∧
      exec (.acquireFifo cmd out) s = .next { s with
        cmdLen := cmd.length, cmdMem := mem, outBuf := out, irqIn := rest,
        trace := s.trace ++ [.irqRise .pinError, .result .acquireFifo (.err .pin)] }

/-- An interrupt line that is HIGH throughout never satisfies the wait: the command stays in flight with no event performed, and
every further step leaves it there, with no observation and with any number of further HIGH ones, while the wait has not seen
LOW (60_exceptions.md, the interrupt input; 70_reset_and_hazards.md, IRQ edge hazard; 93_implementation_defined.md U4). -/
def Obligations.LineHeldHighNeverEndsTheWait : Prop :=
  (∀ (s : State) (v : Variant) (cfg : Configuration) (cmd : List Byte) (out : List Sample) (n : Nat),
    s.cmd = none → s.life ≠ .uninit → s.variant = some v → s.config = some cfg →
    cmd.length = 4 + payloadBytes (fifoLimit cfg) → out.length = fifoLimit cfg →
    s.irqIn = List.replicate n (.level .high) →
    ∃ (mem : Memory) (last : Option Level), last ≠ some .low ∧ mem.readBytes 0 cmd.length = cmd ∧
      (∀ a, cmd.length ≤ a → mem.read a = Memory.blank) ∧
      exec (.acquireFifo cmd out) s = .next { s with
        cmdLen := cmd.length, cmdMem := mem, outBuf := out, irqIn := [],
        cmd := some (.acquireWait v (fifoLimit cfg) last) }) ∧
  (∀ (s : State) (v : Variant) (limit : Nat) (last : Option Level) (k : Nat),
    s.cmd = some (.acquireWait v limit last) → last ≠ some .low → s.irqIn = List.replicate k (.level .high) →
    ∃ last', last' ≠ some .low ∧ step s = .next { s with irqIn := [], cmd := some (.acquireWait v limit last') })

/-- An acquisition that waits, and one that goes on. Issued on a line that rests, HIGH any number of times and then LOW any number
of times, `ACQUIRE_FIFO` is in flight with the last level the line showed, so that a LOW seen there counts for a later rising edge;
no event is performed and both buffers are as handed over. From a wait the step goes on. At a rising edge, which the line makes
after it has rested any number of times, it performs the burst of the word and the bytes the host left, in one transfer, and ends
the command as R162 says: with its samples, with `Status` and the response in `CMD`, or with `Transport` and the burst word
followed by any bytes. At a pin error it ends with `Pin` and writes neither buffer. While the line rests it waits on. -/
def Obligations.WaitingAcquisitionGoesOn : Prop :=
  (∀ (s : State) (v : Variant) (cfg : Configuration) (cmd : List Byte) (out : List Sample) (n m : Nat),
    s.cmd = none → s.life ≠ .uninit → s.variant = some v → s.config = some cfg →
    cmd.length = 4 + payloadBytes (fifoLimit cfg) → out.length = fifoLimit cfg → s.irqIn = restingLine n m →
    ∃ mem : Memory, mem.readBytes 0 cmd.length = cmd ∧ (∀ a, cmd.length ≤ a → mem.read a = Memory.blank) ∧
      exec (.acquireFifo cmd out) s = .next { s with
        cmdLen := cmd.length, cmdMem := mem, outBuf := out, irqIn := [],
        cmd := some (.acquireWait v (fifoLimit cfg) (lastSeen none n m)) }) ∧
  (∀ (s : State) (v : Variant) (limit : Nat) (last : Option Level) (n m : Nat),
    s.cmd = some (.acquireWait v limit last) → (last = some .low → n = 0) →
    (∀ rest, s.irqIn = restingLine n m ++ .level .high :: rest → (m ≠ 0 ∨ last = some .low) →
      s.cmdLen = 4 + payloadBytes limit →
      (∀ rx X, s.xferIn = .bytes rx :: X → rx.length = s.cmdLen →
        ∃ mem : Memory, mem.readBytes 0 s.cmdLen = rx ∧ (∀ a, s.cmdLen ≤ a → mem.read a = s.cmdMem.read a) ∧
          (isError params (responseStatus rx) = false →
            step s = .next { s with
              cmd := none, irqIn := rest, xferIn := X, cmdMem := mem,
              outBuf := (List.range limit).map (unpack (rx.drop 4)),
              trace := s.trace ++ [.irqRise .ok,
                .xfer (be32 (burstWord params v) ++ (s.cmdMem.readBytes 0 s.cmdLen).drop 4) (.bytes rx),
                .result .acquireFifo (.ok .none)] }) ∧
          (isError params (responseStatus rx) = true →
            step s = .next { s with
              cmd := none, irqIn := rest, xferIn := X, cmdMem := mem,
              trace := s.trace ++ [.irqRise .ok,
                .xfer (be32 (burstWord params v) ++ (s.cmdMem.readBytes 0 s.cmdLen).drop 4) (.bytes rx),
                .result .acquireFifo (.err (.status (responseStatus rx)))] })) ∧
      (∀ X, s.xferIn = .transportError :: X →
        ∃ (mem : Memory) (d : Nat), mem.readBytes 0 4 = be32 (burstWord params v) ∧
          (∀ a, s.cmdLen ≤ a → mem.read a = s.cmdMem.read a) ∧
          step s = .next { s with
            cmd := none, irqIn := rest, xferIn := X, cmdMem := mem, draws := d,
            trace := s.trace ++ [.irqRise .ok,
              .xfer (be32 (burstWord params v) ++ (s.cmdMem.readBytes 0 s.cmdLen).drop 4) .transportError,
              .result .acquireFifo (.err .transport)] })) ∧
    (∀ rest, s.irqIn = restingLine n m ++ .pinError :: rest →
      step s = .next { s with
        cmd := none, irqIn := rest, trace := s.trace ++ [.irqRise .pinError, .result .acquireFifo (.err .pin)] }) ∧
    (s.irqIn = restingLine n m →
      step s = .next { s with irqIn := [], cmd := some (.acquireWait v limit (lastSeen last n m)) }))

/-- `ACQUIRE_FIFO`, for every answer of the environment, writes `OUT` only when it succeeds, and then every element is a 12-bit
value and their number is that of the buffer handed over. A step that goes on with a waiting `ACQUIRE_FIFO` does the same, with
the number of samples that it waits for. -/
def Obligations.SamplesAreWrittenOnlyOnSuccess : Prop :=
  (∀ (s t : State) (cmd : List Byte) (out : List Sample), exec (.acquireFifo cmd out) s = .next t →
    t.cmdLen = cmd.length ∧
      (t.outBuf = out ∨
        (t.trace.getLast? = some (.result .acquireFifo (.ok .none)) ∧ t.outBuf.length = out.length ∧
          ∀ x ∈ t.outBuf, x.toNat ≤ 0x0FFF))) ∧
  (∀ (s t : State) (v : Variant) (limit : Nat) (last : Option Level),
    s.cmd = some (.acquireWait v limit last) → step s = .next t →
    t.cmdLen = s.cmdLen ∧
      (t.outBuf = s.outBuf ∨
        (t.trace.getLast? = some (.result .acquireFifo (.ok .none)) ∧ t.outBuf.length = limit ∧
          ∀ x ∈ t.outBuf, x.toNat ≤ 0x0FFF)))

/-- R161: `PAYLOAD_BYTES(L)` is 12 L bits in whole bytes, rounded up, and exactly 3 L / 2 for even L. -/
def Obligations.PayloadHoldsTwelveBitsPerSample : Prop :=
  ∀ limit : Nat,
    12 * limit ≤ 8 * payloadBytes limit ∧ 8 * payloadBytes limit < 12 * limit + 8 ∧
      (limit % 2 = 0 → payloadBytes limit = 3 * limit / 2)

/-! ### The unpacker -/

/-- The two samples of a packed block are its upper and lower 12 bits (43_unpacker.md, even and odd sample), and the window of
sample `i` starts at byte 3 (i / 2) + i % 2. Every unpacked sample is a 12-bit value, and every byte read for a sample below the
limit is inside the payload (output range and bounds). -/
def Obligations.SamplesAreTheHalvesOfABlock : Prop :=
  (∀ (p : List Byte) (k : Nat) (b0 b1 b2 : Byte),
    p[3 * k]? = some b0 → p[3 * k + 1]? = some b1 → p[3 * k + 2]? = some b2 →
    (unpack p (2 * k)).toNat = (fromBE24 b0 b1 b2).toNat / 2 ^ 12 ∧
    (unpack p (2 * k + 1)).toNat = (fromBE24 b0 b1 b2).toNat % 2 ^ 12 ∧
    windowAt (2 * k) = 3 * k ∧ windowAt (2 * k + 1) = 3 * k + 1) ∧
  (∀ (p : List Byte) (i : Nat), (unpack p i).toNat ≤ 0x0FFF) ∧
  (∀ limit i : Nat, i < limit → windowAt i + 1 ≤ payloadBytes limit - 1)

/-- Unpacking the concatenated packed pairs gives every sample back (43_unpacker.md, round-trip law). -/
def Obligations.UnpackInvertsPack : Prop :=
  ∀ (ps : List (BitVec 12 × BitVec 12)) (k : Nat) (h : k < ps.length),
    unpack (ps.flatMap fun q => pack q.1 q.2) (2 * k) = (ps[k]).1.setWidth 16 ∧
    unpack (ps.flatMap fun q => pack q.1 q.2) (2 * k + 1) = (ps[k]).2.setWidth 16

/-- The strides map the index triples of a frame one to one onto the elements of `OUT` (42_fifo_acquisition.md, frame shape). -/
def Obligations.StridesCoverTheFrame : Prop :=
  ∀ R C S : Nat,
    (∀ a c s, a < R → c < C → s < S → strideIndex R S a c s < R * C * S) ∧
    (∀ j, j < R * C * S → ∃ a c s, a < R ∧ c < C ∧ s < S ∧ strideIndex R S a c s = j) ∧
    (∀ a c s a' c' s', a < R → c < C → s < S → a' < R → c' < C → s' < S →
      strideIndex R S a c s = strideIndex R S a' c' s' → a = a' ∧ c = c' ∧ s = s')

/-! ### Chip identification and the LFSR -/

/-- `READ_CHIP_ID` completes with the two fields of the register read and changes no state of the block; a status error or a
transport error is reported instead. -/
def Obligations.ReadChipIdReportsTheIdentity : Prop :=
  ∀ (s : State) (X : List XferAnswer), s.cmd = none → s.life ≠ .uninit →
    (∀ g id, s.xferIn = answer g id :: X → isError params g = false →
      exec .readChipId s = .next { s with
        xferIn := X,
        trace := s.trace ++ [readEvent params params.addrChipId g id,
          .result .readChipId (.ok (.chipId (chipIdView params id).digitalId (chipIdView params id).rfId))] }) ∧
    (∀ g id, s.xferIn = answer g id :: X → isError params g = true →
      exec .readChipId s = .next { s with
        xferIn := X,
        trace := s.trace ++ [readEvent params params.addrChipId g id, .result .readChipId (.err (.status g))] }) ∧
    (s.xferIn = .transportError :: X →
      exec .readChipId s = .next { s with
        xferIn := X,
        trace := s.trace ++ [.xfer (readFrame params params.addrChipId) .transportError,
          .result .readChipId (.err .transport)] })

/-- The acceptance predicate at the spec values (44_chip_id.md, `ACCEPT`; the two open constants are none, the model's choice: log
entry 4). -/
def Obligations.AcceptAtTheSpecValues : Prop :=
  ∀ (d : BitVec 16) (r : BitVec 8),
    (acceptId params .tr13c d r = true ↔ d = 3) ∧
    (acceptId params .utr11aip d r = true ↔ (r = 7 ∨ r = 9 ∨ r = 12))

/-- The register images: building an image from its fields and reading them back loses nothing, unnamed bits are zero on write and
ignored on read, and the identity fields fill CHIP_ID (10_state.md, register images; positions: log entry 1). -/
def Obligations.RegisterViewsAreLossless : Prop :=
  (∀ m : MainView, mainView params (mainImage params m) = m ∧ mainImage params m &&& 0xFFFFF0 = 0) ∧
  (∀ v : SfctlView, sfctlView params (sfctlImage params v) = v ∧ sfctlImage params v &&& 0xF9C000 = 0) ∧
  (∀ v : ChipIdView, chipIdView params (chipIdImage params v) = v) ∧
  (∀ r : RegValue, chipIdImage params (chipIdView params r) = r) ∧
  (∀ r x : RegValue, mainView params (r ||| (x &&& 0xFFFFF0)) = mainView params r) ∧
  (∀ r x : RegValue, sfctlView params (r ||| (x &&& 0xF9C000)) = sfctlView params r)

/-- `NEXT_TEST_WORD` completes in every lifecycle state, with the next word, no event but its result, and no state changed. -/
def Obligations.NextTestWordIsPure : Prop :=
  ∀ (s : State) (w : BitVec 16), s.cmd = none →
    exec (.nextTestWord w) s = .next { s with
      trace := s.trace ++ [.result .nextTestWord (.ok (.word (lfsrNext params w)))] }

/-- The recurrence at the spec taps, for every 16-bit word (45_lfsr.md, `NEXT`; the taps are the model's choice: log entry 5). -/
def Obligations.LfsrRecurrence : Prop :=
  ∀ c : BitVec 16,
    lfsrNext params c = ((c >>> 1) ||| (((c <<< 11) ^^^ (c <<< 10) ^^^ (c <<< 9) ^^^ (c <<< 3)) &&& 0x0800)) ∧
    (c.toNat ≤ 0x0FFF →
      (lfsrNext params c).toNat =
        c.toNat / 2 + (c.toNat + c.toNat / 2 + c.toNat / 4 + c.toNat / 256) % 2 * 2048)

/-- The recurrence permutes the 12-bit words (45_lfsr.md, properties; the taps are the model's choice: log entry 5). -/
def Obligations.LfsrPermutesTwelveBitWords : Prop :=
  (∀ c : BitVec 16, c.toNat ≤ 0x0FFF → (lfsrNext params c).toNat ≤ 0x0FFF) ∧
  (∀ c d : BitVec 16, c.toNat ≤ 0x0FFF → d.toNat ≤ 0x0FFF → lfsrNext params c = lfsrNext params d → c = d) ∧
  (∀ d : BitVec 16, d.toNat ≤ 0x0FFF → ∃ c : BitVec 16, c.toNat ≤ 0x0FFF ∧ lfsrNext params c = d)

/-- From the golden seed the sequence comes back after exactly 4095 steps (45_lfsr.md, properties; the taps are the model's choice:
log entry 5). -/
def Obligations.LfsrPeriodIsMaximal : Prop :=
  Nat.repeat (lfsrNext params) 4095 params.lfsrSeed = params.lfsrSeed ∧
  ∀ k, 0 < k → k < 4095 → Nat.repeat (lfsrNext params) k params.lfsrSeed ≠ params.lfsrSeed

/-! ### The open parameters -/

/-- Four commands, in which most of the open parameters (00_scope.md R6) appear, run at any values of them, of which `EVEN` and the
burst word of decision D9 are two: `INIT` accepts by the parameter's predicate, `CONFIGURE` takes every limit that the parameter's rule finds valid and
programs it at the parameter's positions, `ACQUIRE_FIFO` sends the parameter's burst word, and `NEXT_TEST_WORD` has the parameter's
taps. -/
def Obligations.OtherParameterValuesRun : Prop :=
  ∀ (p : Config.Params) (s : State), s.cmd = none →
    (∀ (v : Variant) (q : Byte × RegValue) (R : List PinAnswer) (X : List XferAnswer),
      s.life = .uninit → s.rstIn = .ok :: .ok :: .ok :: R → s.xferIn = answerOf q :: X → Good p q →
      p.accept p.rfIdTr13c p.digitalIdUtr11 v (q.2.extractLsb' p.chipIdDigitalLo 16) (q.2.extractLsb' p.chipIdRfLo 8) = true →
      execWith p (.init v) s = .next { s with
        life := .idle, variant := some v, config := none, rstLevel := .high, rstIn := R, xferIn := X,
        trace := s.trace ++ resetPulse ++ [readEvent p p.addrChipId q.1 q.2, .result .init (.ok .none)] }) ∧
    (∀ (v : Variant) (cfg : Configuration) (q1 q2 q3 q4 q5 : Byte × RegValue) (fails qs : List (Byte × RegValue))
      (X : List XferAnswer),
      s.life ≠ .uninit → s.variant = some v → configurationFormed p cfg = true → fifoLimitValid p v (fifoLimit cfg) = true →
      s.xferIn = resetAnswers q1 q2 fails q3 ++ qs.map answerOf ++ [answerOf q4, answerOf q5] ++ X →
      ResetSucceeds p q1 q2 fails q3 → qs.length = 38 → (∀ q ∈ qs, Good p q) → Good p q4 → Good p q5 →
      execWith p (.configure cfg) s = .next { s with
        life := .armed, config := some cfg, xferIn := X,
        trace := s.trace ++ softResetEvents p q1 q2 fails q3 ++ wordEvents p cfg.words qs ++
          [readEvent p p.addrSfctl q4.1 q4.2,
            writeEvent p p.addrSfctl (thresholdValue p q4.2 (fifoLimit cfg)) q5.1 q5.2,
            .result .configure (.ok .none)] }) ∧
    (∀ (v : Variant) (cfg : Configuration) (cmd rx : List Byte) (out : List Sample) (n m : Nat) (rest : List IrqObs)
      (X : List XferAnswer),
      s.life ≠ .uninit → s.variant = some v → s.config = some cfg →
      cmd.length = 4 + payloadBytes (fifoLimit cfg) → out.length = fifoLimit cfg →
      s.irqIn = risingLine n m ++ rest → s.xferIn = .bytes rx :: X → rx.length = cmd.length →
      isError p (responseStatus rx) = false →
      ∃ (w : Word32) (mem : Memory),
        w.toNat = (p.burstTaddr v).toNat * 2 ^ 25 + p.burstDir.toNat * 2 ^ 24 + (p.addrFifo v).toNat * 2 ^ 17 ∧
        mem.readBytes 0 cmd.length = rx ∧ (∀ a, cmd.length ≤ a → mem.read a = Memory.blank) ∧
        execWith p (.acquireFifo cmd out) s = .next { s with
          cmdLen := cmd.length, cmdMem := mem, outBuf := (List.range (fifoLimit cfg)).map (unpack (rx.drop 4)),
          irqIn := rest, xferIn := X,
          trace := s.trace ++ [.irqRise .ok, .xfer (be32 w ++ cmd.drop 4) (.bytes rx),
            .result .acquireFifo (.ok .none)] }) ∧
    (∀ w : BitVec 16, w.toNat ≤ 0x0FFF → (∀ k ∈ p.lfsrTaps, k ≤ 11) →
      ∃ w' : BitVec 16,
        w'.toNat = w.toNat / 2 + (p.lfsrTaps.map fun k => w.toNat / 2 ^ k).sum % 2 * 2048 ∧
        execWith p (.nextTestWord w) s = .next { s with
          trace := s.trace ++ [.result .nextTestWord (.ok (.word w'))] })

/-! ### The machine -/

/-- R41: the state after reset. -/
def Obligations.ResetLeavesTheSpecValues : Prop :=
  State.reset.life = .uninit ∧ State.reset.variant = none ∧ State.reset.config = none ∧
  State.reset.rstLevel = .high ∧ State.reset.cmd = none ∧ State.reset.trace = []

/-- The state after reset is legal, and no transfer has been performed. -/
def Obligations.ResetIsLegal : Prop := ∀ p : Config.Params, State.reset.Inv p ∧ State.reset.PulseFirst p

/-- Every step keeps a legal state legal: variant and configuration agree with `life`, every active configuration has a valid FIFO
limit and the operand form, a waiting acquisition has its buffers, and the command buffer keeps its canonical form and its
bounds. And a variant, once there, is never changed (10_state.md, `life`, `variant`, `config`). At the spec values, and at any. -/
def Obligations.StepKeepsLegalStates : Prop :=
  (∀ s t : State, s.Inv params → step s = .next t →
    t.Inv params ∧ ∀ v, s.variant = some v → t.variant = some v) ∧
  (∀ (p : Config.Params) (s t : State), s.Inv p → stepWith p s = .next t →
    t.Inv p ∧ ∀ v, s.variant = some v → t.variant = some v)

/-- No legal state faults: neither an instruction nor a step ends in a fault. -/
def Obligations.LegalStatesNeverFault : Prop :=
  ∀ s : State, s.Inv params → (∀ (i : Instr) (f : Fault), exec i s ≠ .fault f) ∧ ∀ f : Fault, step s ≠ .fault f

/-- Every accepted, well-formed instruction completes in every legal state, whatever the environment answers: a host command in a
lifecycle state of its guard, a wire transfer in a constructed block, a burst with the word of the block's variant. That a wire
row is run by itself, at every address and with no settle after a software reset, that a read-modify-write does not wait for a
software reset which such a row began, and that a burst completes also without a configuration or with another length (it then
returns an error and sends nothing), is THE MODEL'S CHOICE (log entries 2, 11, 26, 27 and 28). -/
def Obligations.AcceptedInstructionsComplete : Prop :=
  ∀ (i : Instr) (s : State), s.Inv params → s.cmd = none → i.WellFormed params →
    (∀ c, i.hostOp = some c → lifeAccepts c s.life = true) → (i.hostOp = none → s.life ≠ .uninit) →
    (∀ w tail, i = .spiBurstRead w tail → ∃ v, s.variant = some v ∧ w = burstFields params v) →
    ∃ t, exec i s = .next t

/-- The hardware reset precedes every register access: whatever is issued, every step keeps every transfer of the trace behind a
completed reset pulse (70_reset_and_hazards.md, boot). At the spec values, and at any. That a wire row can be
issued by itself is THE MODEL'S CHOICE (log entry 11). -/
def Obligations.ResetPulsePrecedesEveryTransfer : Prop :=
  (∀ s t : State, s.PulseFirst params → step s = .next t → t.PulseFirst params) ∧
  (∀ (p : Config.Params) (s t : State), s.PulseFirst p → stepWith p s = .next t → t.PulseFirst p)

/-- The frame of every instruction: what it is issued, the other ports, the reset output, the variant, the configuration and the
framer's last return change only by the instructions named, and the trace only grows. For the host commands the spec says which
parts of the block's state they write (10_state.md, the block's own state; 41_control_sequences.md, state written by each command).
What it says of a wire row run by itself, that it changes neither `life`, variant nor configuration, and what it says of the
framer's return, a field of the model, is THE MODEL'S CHOICE (log entry 11); so is the form of the ports and of the trace as lists
(log entries 6, 7, 9 and 22). -/
def Obligations.FrameOfEveryInstruction : Prop :=
  ∀ (i : Instr) (s t : State), exec i s = .next t →
    t.requests = s.requests ∧ s.trace <+: t.trace ∧
    ((∀ v, i ≠ .init v) → t.rstLevel = s.rstLevel ∧ t.rstIn = s.rstIn ∧ t.variant = s.variant) ∧
    ((∀ v, i ≠ .init v) → (∀ cfg, i ≠ .configure cfg) → t.config = s.config) ∧
    ((∀ cmd out, i ≠ .acquireFifo cmd out) → t.irqIn = s.irqIn ∧ t.cmd = s.cmd) ∧
    (i.hostOp ≠ none → t.framer = s.framer) ∧
    (i.hostOp = none → t.life = s.life)

/-- The frame of the host buffers: only `ACQUIRE_FIFO` and the burst transfer write the command buffer, only `ACQUIRE_FIFO` the
sample buffer; every other instruction leaves every byte and every element (20_memory.md, address spaces). That a burst transfer is
run by itself, and writes the command buffer alone, and that both buffers are kept after a command is THE MODEL'S CHOICE (log entries
11 and 13). -/
def Obligations.FrameOfTheHostBuffers : Prop :=
  ∀ (i : Instr) (s t : State), exec i s = .next t →
    ((∀ cmd out, i ≠ .acquireFifo cmd out) → t.outBuf = s.outBuf) ∧
    ((∀ cmd out, i ≠ .acquireFifo cmd out) → (∀ w tail, i ≠ .spiBurstRead w tail) →
      t.cmdLen = s.cmdLen ∧ ∀ a, t.cmdMem.read a = s.cmdMem.read a)
end

