-- ==== Sys2Proof/Laws/State.lean ====
section
/-! SUPPORT. The fields of the state after each update of Machine/Ops.lean: one lemma per field per update. -/

namespace Sys2Proof.Machine

variable (s : State)

@[simp] theorem emit_life (e : Event) : (emit e s).life = s.life := rfl
@[simp] theorem emit_variant (e : Event) : (emit e s).variant = s.variant := rfl
@[simp] theorem emit_config (e : Event) : (emit e s).config = s.config := rfl
@[simp] theorem emit_rstLevel (e : Event) : (emit e s).rstLevel = s.rstLevel := rfl
@[simp] theorem emit_cmd (e : Event) : (emit e s).cmd = s.cmd := rfl
@[simp] theorem emit_cmdLen (e : Event) : (emit e s).cmdLen = s.cmdLen := rfl
@[simp] theorem emit_cmdMem (e : Event) : (emit e s).cmdMem = s.cmdMem := rfl
@[simp] theorem emit_outBuf (e : Event) : (emit e s).outBuf = s.outBuf := rfl
@[simp] theorem emit_requests (e : Event) : (emit e s).requests = s.requests := rfl
@[simp] theorem emit_xferIn (e : Event) : (emit e s).xferIn = s.xferIn := rfl
@[simp] theorem emit_rstIn (e : Event) : (emit e s).rstIn = s.rstIn := rfl
@[simp] theorem emit_irqIn (e : Event) : (emit e s).irqIn = s.irqIn := rfl
@[simp] theorem emit_draws (e : Event) : (emit e s).draws = s.draws := rfl
@[simp] theorem emit_framer (e : Event) : (emit e s).framer = s.framer := rfl
@[simp] theorem emit_trace (e : Event) : (emit e s).trace = s.trace ++ [e] := rfl

@[simp] theorem delayNs_life (n : Word32) : (delayNs n s).life = s.life := rfl
@[simp] theorem delayNs_variant (n : Word32) : (delayNs n s).variant = s.variant := rfl
@[simp] theorem delayNs_config (n : Word32) : (delayNs n s).config = s.config := rfl
@[simp] theorem delayNs_rstLevel (n : Word32) : (delayNs n s).rstLevel = s.rstLevel := rfl
@[simp] theorem delayNs_cmd (n : Word32) : (delayNs n s).cmd = s.cmd := rfl
@[simp] theorem delayNs_cmdLen (n : Word32) : (delayNs n s).cmdLen = s.cmdLen := rfl
@[simp] theorem delayNs_cmdMem (n : Word32) : (delayNs n s).cmdMem = s.cmdMem := rfl
@[simp] theorem delayNs_outBuf (n : Word32) : (delayNs n s).outBuf = s.outBuf := rfl
@[simp] theorem delayNs_requests (n : Word32) : (delayNs n s).requests = s.requests := rfl
@[simp] theorem delayNs_xferIn (n : Word32) : (delayNs n s).xferIn = s.xferIn := rfl
@[simp] theorem delayNs_rstIn (n : Word32) : (delayNs n s).rstIn = s.rstIn := rfl
@[simp] theorem delayNs_irqIn (n : Word32) : (delayNs n s).irqIn = s.irqIn := rfl
@[simp] theorem delayNs_draws (n : Word32) : (delayNs n s).draws = s.draws := rfl
@[simp] theorem delayNs_framer (n : Word32) : (delayNs n s).framer = s.framer := rfl
@[simp] theorem delayNs_trace (n : Word32) : (delayNs n s).trace = s.trace ++ [.waitNs n] := rfl

@[simp] theorem delayMs_life (n : Word32) : (delayMs n s).life = s.life := rfl
@[simp] theorem delayMs_variant (n : Word32) : (delayMs n s).variant = s.variant := rfl
@[simp] theorem delayMs_config (n : Word32) : (delayMs n s).config = s.config := rfl
@[simp] theorem delayMs_rstLevel (n : Word32) : (delayMs n s).rstLevel = s.rstLevel := rfl
@[simp] theorem delayMs_cmd (n : Word32) : (delayMs n s).cmd = s.cmd := rfl
@[simp] theorem delayMs_cmdLen (n : Word32) : (delayMs n s).cmdLen = s.cmdLen := rfl
@[simp] theorem delayMs_cmdMem (n : Word32) : (delayMs n s).cmdMem = s.cmdMem := rfl
@[simp] theorem delayMs_outBuf (n : Word32) : (delayMs n s).outBuf = s.outBuf := rfl
@[simp] theorem delayMs_requests (n : Word32) : (delayMs n s).requests = s.requests := rfl
@[simp] theorem delayMs_xferIn (n : Word32) : (delayMs n s).xferIn = s.xferIn := rfl
@[simp] theorem delayMs_rstIn (n : Word32) : (delayMs n s).rstIn = s.rstIn := rfl
@[simp] theorem delayMs_irqIn (n : Word32) : (delayMs n s).irqIn = s.irqIn := rfl
@[simp] theorem delayMs_draws (n : Word32) : (delayMs n s).draws = s.draws := rfl
@[simp] theorem delayMs_framer (n : Word32) : (delayMs n s).framer = s.framer := rfl
@[simp] theorem delayMs_trace (n : Word32) : (delayMs n s).trace = s.trace ++ [.waitMs n] := rfl

@[simp] theorem writeCmd_life (a : Nat) (bs : List Byte) : (writeCmd a bs s).life = s.life := rfl
@[simp] theorem writeCmd_variant (a : Nat) (bs : List Byte) : (writeCmd a bs s).variant = s.variant := rfl
@[simp] theorem writeCmd_config (a : Nat) (bs : List Byte) : (writeCmd a bs s).config = s.config := rfl
@[simp] theorem writeCmd_rstLevel (a : Nat) (bs : List Byte) : (writeCmd a bs s).rstLevel = s.rstLevel := rfl
@[simp] theorem writeCmd_cmd (a : Nat) (bs : List Byte) : (writeCmd a bs s).cmd = s.cmd := rfl
@[simp] theorem writeCmd_cmdLen (a : Nat) (bs : List Byte) : (writeCmd a bs s).cmdLen = s.cmdLen := rfl
@[simp] theorem writeCmd_cmdMem (a : Nat) (bs : List Byte) : (writeCmd a bs s).cmdMem = s.cmdMem.writeBytes a bs := rfl
@[simp] theorem writeCmd_outBuf (a : Nat) (bs : List Byte) : (writeCmd a bs s).outBuf = s.outBuf := rfl
@[simp] theorem writeCmd_requests (a : Nat) (bs : List Byte) : (writeCmd a bs s).requests = s.requests := rfl
@[simp] theorem writeCmd_xferIn (a : Nat) (bs : List Byte) : (writeCmd a bs s).xferIn = s.xferIn := rfl
@[simp] theorem writeCmd_rstIn (a : Nat) (bs : List Byte) : (writeCmd a bs s).rstIn = s.rstIn := rfl
@[simp] theorem writeCmd_irqIn (a : Nat) (bs : List Byte) : (writeCmd a bs s).irqIn = s.irqIn := rfl
@[simp] theorem writeCmd_draws (a : Nat) (bs : List Byte) : (writeCmd a bs s).draws = s.draws := rfl
@[simp] theorem writeCmd_framer (a : Nat) (bs : List Byte) : (writeCmd a bs s).framer = s.framer := rfl
@[simp] theorem writeCmd_trace (a : Nat) (bs : List Byte) : (writeCmd a bs s).trace = s.trace := rfl

@[simp] theorem handOver_life (cmd : List Byte) (out : List Sample) : (handOver cmd out s).life = s.life := rfl
@[simp] theorem handOver_variant (cmd : List Byte) (out : List Sample) : (handOver cmd out s).variant = s.variant := rfl
@[simp] theorem handOver_config (cmd : List Byte) (out : List Sample) : (handOver cmd out s).config = s.config := rfl
@[simp] theorem handOver_rstLevel (cmd : List Byte) (out : List Sample) : (handOver cmd out s).rstLevel = s.rstLevel := rfl
@[simp] theorem handOver_cmd (cmd : List Byte) (out : List Sample) : (handOver cmd out s).cmd = s.cmd := rfl
@[simp] theorem handOver_cmdLen (cmd : List Byte) (out : List Sample) : (handOver cmd out s).cmdLen = cmd.length := rfl
@[simp] theorem handOver_cmdMem (cmd : List Byte) (out : List Sample) : (handOver cmd out s).cmdMem = Memory.writeBytes [] 0 cmd := rfl
@[simp] theorem handOver_outBuf (cmd : List Byte) (out : List Sample) : (handOver cmd out s).outBuf = out := rfl
@[simp] theorem handOver_requests (cmd : List Byte) (out : List Sample) : (handOver cmd out s).requests = s.requests := rfl
@[simp] theorem handOver_xferIn (cmd : List Byte) (out : List Sample) : (handOver cmd out s).xferIn = s.xferIn := rfl
@[simp] theorem handOver_rstIn (cmd : List Byte) (out : List Sample) : (handOver cmd out s).rstIn = s.rstIn := rfl
@[simp] theorem handOver_irqIn (cmd : List Byte) (out : List Sample) : (handOver cmd out s).irqIn = s.irqIn := rfl
@[simp] theorem handOver_draws (cmd : List Byte) (out : List Sample) : (handOver cmd out s).draws = s.draws := rfl
@[simp] theorem handOver_framer (cmd : List Byte) (out : List Sample) : (handOver cmd out s).framer = s.framer := rfl
@[simp] theorem handOver_trace (cmd : List Byte) (out : List Sample) : (handOver cmd out s).trace = s.trace := rfl

@[simp] theorem raiseError_life (c : HostOp) (e : Error) : (raiseError c e s).life = s.life := rfl
@[simp] theorem raiseError_variant (c : HostOp) (e : Error) : (raiseError c e s).variant = s.variant := rfl
@[simp] theorem raiseError_config (c : HostOp) (e : Error) : (raiseError c e s).config = s.config := rfl
@[simp] theorem raiseError_rstLevel (c : HostOp) (e : Error) : (raiseError c e s).rstLevel = s.rstLevel := rfl
@[simp] theorem raiseError_cmd (c : HostOp) (e : Error) : (raiseError c e s).cmd = none := rfl
@[simp] theorem raiseError_cmdLen (c : HostOp) (e : Error) : (raiseError c e s).cmdLen = s.cmdLen := rfl
@[simp] theorem raiseError_cmdMem (c : HostOp) (e : Error) : (raiseError c e s).cmdMem = s.cmdMem := rfl
@[simp] theorem raiseError_outBuf (c : HostOp) (e : Error) : (raiseError c e s).outBuf = s.outBuf := rfl
@[simp] theorem raiseError_requests (c : HostOp) (e : Error) : (raiseError c e s).requests = s.requests := rfl
@[simp] theorem raiseError_xferIn (c : HostOp) (e : Error) : (raiseError c e s).xferIn = s.xferIn := rfl
@[simp] theorem raiseError_rstIn (c : HostOp) (e : Error) : (raiseError c e s).rstIn = s.rstIn := rfl
@[simp] theorem raiseError_irqIn (c : HostOp) (e : Error) : (raiseError c e s).irqIn = s.irqIn := rfl
@[simp] theorem raiseError_draws (c : HostOp) (e : Error) : (raiseError c e s).draws = s.draws := rfl
@[simp] theorem raiseError_framer (c : HostOp) (e : Error) : (raiseError c e s).framer = s.framer := rfl
@[simp] theorem raiseError_trace (c : HostOp) (e : Error) : (raiseError c e s).trace = s.trace ++ [.result c (.err e)] := rfl

@[simp] theorem returnValue_life (c : HostOp) (v : Value) : (returnValue c v s).life = s.life := rfl
@[simp] theorem returnValue_variant (c : HostOp) (v : Value) : (returnValue c v s).variant = s.variant := rfl
@[simp] theorem returnValue_config (c : HostOp) (v : Value) : (returnValue c v s).config = s.config := rfl
@[simp] theorem returnValue_rstLevel (c : HostOp) (v : Value) : (returnValue c v s).rstLevel = s.rstLevel := rfl
@[simp] theorem returnValue_cmd (c : HostOp) (v : Value) : (returnValue c v s).cmd = none := rfl
@[simp] theorem returnValue_cmdLen (c : HostOp) (v : Value) : (returnValue c v s).cmdLen = s.cmdLen := rfl
@[simp] theorem returnValue_cmdMem (c : HostOp) (v : Value) : (returnValue c v s).cmdMem = s.cmdMem := rfl
@[simp] theorem returnValue_outBuf (c : HostOp) (v : Value) : (returnValue c v s).outBuf = s.outBuf := rfl
@[simp] theorem returnValue_requests (c : HostOp) (v : Value) : (returnValue c v s).requests = s.requests := rfl
@[simp] theorem returnValue_xferIn (c : HostOp) (v : Value) : (returnValue c v s).xferIn = s.xferIn := rfl
@[simp] theorem returnValue_rstIn (c : HostOp) (v : Value) : (returnValue c v s).rstIn = s.rstIn := rfl
@[simp] theorem returnValue_irqIn (c : HostOp) (v : Value) : (returnValue c v s).irqIn = s.irqIn := rfl
@[simp] theorem returnValue_draws (c : HostOp) (v : Value) : (returnValue c v s).draws = s.draws := rfl
@[simp] theorem returnValue_framer (c : HostOp) (v : Value) : (returnValue c v s).framer = s.framer := rfl
@[simp] theorem returnValue_trace (c : HostOp) (v : Value) : (returnValue c v s).trace = s.trace ++ [.result c (.ok v)] := rfl

end Sys2Proof.Machine
end

