-- ==== Sys2Proof/Laws/Memory.lean ====
section
/-! SUPPORT. The command buffer: every operation keeps its canonical form, a read after a write gives the byte written, and a
write leaves every other offset alone. -/

namespace Sys2Proof.Machine

@[simp] theorem read_nil (a : Nat) : Memory.read [] a = Memory.blank := rfl

theorem read_cons (c : Host.Cell) (m : Memory) (a : Nat) :
    Memory.read (c :: m) a = if c.1 = a then c.2 else Memory.read m a := by
  by_cases h : c.1 = a <;> simp [Memory.read, h]

theorem read_append (m n : Memory) (a : Nat) (h : ∀ c ∈ m, c.1 ≠ a) : Memory.read (m ++ n) a = Memory.read n a := by
  induction m with
  | nil => rfl
  | cons c m ih =>
    rw [List.cons_append, read_cons, if_neg (h c (by simp))]
    exact ih fun d hd => h d (by simp [hd])

theorem read_append_left (m n : Memory) (a : Nat) (h : ∀ c ∈ n, c.1 ≠ a) : Memory.read (m ++ n) a = Memory.read m a := by
  induction m with
  | nil =>
    have := read_append n [] a h
    simpa using this
  | cons c m ih =>
    rw [List.cons_append, read_cons, read_cons, ih]

/-- An entry list that names no offset `a` reads as blank there. -/
theorem read_absent (m : Memory) (a : Nat) (h : ∀ c ∈ m, c.1 ≠ a) : Memory.read m a = Memory.blank := by
  have := read_append m [] a h
  simpa using this

theorem read_filter (m : Memory) (p : Nat → Bool) (a : Nat) (h : p a = true) :
    Memory.read (m.filter fun c => p c.1) a = Memory.read m a := by
  induction m with
  | nil => rfl
  | cons c m ih =>
    by_cases hc : c.1 = a
    · simp [hc, h, read_cons]
    · by_cases hp : p c.1 = true <;> simp [hp, read_cons, hc, ih]

/-- Every entry of a listed byte sequence stands inside it and is not blank. -/
theorem listed_bounds (a : Nat) (bs : List Byte) :
    ∀ c ∈ Memory.listed a bs, a ≤ c.1 ∧ c.1 < a + bs.length ∧ c.2 ≠ Memory.blank := by
  induction bs generalizing a with
  | nil => simp [Memory.listed]
  | cons b bs ih =>
    intro c hc
    by_cases hb : b = Memory.blank
    · rw [Memory.listed, if_pos hb] at hc
      obtain ⟨h1, h2, h3⟩ := ih (a + 1) c hc
      simp only [List.length_cons]
      exact ⟨by omega, by omega, h3⟩
    · rw [Memory.listed, if_neg hb] at hc
      rcases List.mem_cons.mp hc with rfl | hc
      · simp only [List.length_cons]
        exact ⟨by omega, by omega, hb⟩
      · obtain ⟨h1, h2, h3⟩ := ih (a + 1) c hc
        simp only [List.length_cons]
        exact ⟨by omega, by omega, h3⟩

theorem listed_rising (a : Nat) (bs : List Byte) : (Memory.listed a bs).Pairwise fun c d => c.1 < d.1 := by
  induction bs generalizing a with
  | nil => simp [Memory.listed]
  | cons b bs ih =>
    by_cases hb : b = Memory.blank
    · rw [Memory.listed, if_pos hb]
      exact ih (a + 1)
    · rw [Memory.listed, if_neg hb, List.pairwise_cons]
      refine ⟨fun c hc => ?_, ih (a + 1)⟩
      have := (listed_bounds (a + 1) bs c hc).1
      show a < c.1
      omega

theorem read_listed (a : Nat) (bs : List Byte) (j : Nat) (h : j < bs.length) :
    Memory.read (Memory.listed a bs) (a + j) = bs[j] := by
  induction bs generalizing a j with
  | nil => simp at h
  | cons b bs ih =>
    have later : ∀ c ∈ Memory.listed (a + 1) bs, c.1 ≠ a := fun c hc => by
      have := (listed_bounds (a + 1) bs c hc).1
      omega
    cases j with
    | zero =>
      by_cases hb : b = Memory.blank
      · rw [Memory.listed, if_pos hb]
        simpa [hb] using read_absent _ a later
      · rw [Memory.listed, if_neg hb, read_cons]
        simp
    | succ j =>
      have hj : j < bs.length := by simpa using h
      have step := ih (a + 1) j hj
      rw [show a + 1 + j = a + (j + 1) by omega] at step
      by_cases hb : b = Memory.blank
      · rw [Memory.listed, if_pos hb]
        simpa using step
      · rw [Memory.listed, if_neg hb, read_cons, if_neg (by show ¬a = _; omega)]
        simpa using step

/-- Writing keeps the canonical form. -/
theorem writeBytes_wf (m : Memory) (a : Nat) (bs : List Byte) (h : m.wf) : (m.writeBytes a bs).wf := by
  obtain ⟨hr, hn⟩ := h
  refine ⟨?_, fun c hc => ?_⟩
  · rw [Memory.writeBytes, List.pairwise_append, List.pairwise_append]
    refine ⟨⟨hr.filter _, listed_rising a bs, fun c hc d hd => ?_⟩, hr.filter _, fun c hc d hd => ?_⟩
    · have h1 : c.1 < a := by simpa using (List.mem_filter.mp hc).2
      have h2 := (listed_bounds a bs d hd).1
      omega
    · have h2 : a + bs.length ≤ d.1 := by simpa using (List.mem_filter.mp hd).2
      rcases List.mem_append.mp hc with hc | hc
      · have h1 : c.1 < a := by simpa using (List.mem_filter.mp hc).2
        omega
      · have h1 := (listed_bounds a bs c hc).2.1
        omega
  · rw [Memory.writeBytes] at hc
    rcases List.mem_append.mp hc with hc | hc
    · rcases List.mem_append.mp hc with hc | hc
      · exact hn c (List.mem_filter.mp hc).1
      · exact (listed_bounds a bs c hc).2.2
    · exact hn c (List.mem_filter.mp hc).1

/-- The empty buffer has the canonical form. -/
theorem nil_wf : Memory.wf ([] : Memory) := by simp [Memory.wf]

/-- A write inside the buffer keeps every entry inside it. -/
theorem writeBytes_bound (m : Memory) (a n : Nat) (bs : List Byte) (h : ∀ c ∈ m, c.1 < n) (hb : a + bs.length ≤ n) :
    ∀ c ∈ m.writeBytes a bs, c.1 < n := by
  intro c hc
  rw [Memory.writeBytes] at hc
  rcases List.mem_append.mp hc with hc | hc
  · rcases List.mem_append.mp hc with hc | hc
    · exact h c (List.mem_filter.mp hc).1
    · have := (listed_bounds a bs c hc).2.1
      omega
  · exact h c (List.mem_filter.mp hc).1

/-- A read inside a write gives the byte written; elsewhere it gives what it gave before. -/
theorem read_writeBytes (m : Memory) (a : Nat) (bs : List Byte) (j : Nat) :
    (m.writeBytes a bs).read j = if h : a ≤ j ∧ j < a + bs.length then bs[j - a]'(by omega) else m.read j := by
  rw [Memory.writeBytes]
  split
  · rename_i h
    rw [read_append_left, read_append]
    · have := read_listed a bs (j - a) (by omega)
      rwa [show a + (j - a) = j by omega] at this
    · intro c hc
      have h1 : c.1 < a := by simpa using (List.mem_filter.mp hc).2
      omega
    · intro c hc
      have h1 : a + bs.length ≤ c.1 := by simpa using (List.mem_filter.mp hc).2
      omega
  · rename_i h
    by_cases hj : j < a
    · rw [read_append_left, read_append_left, read_filter m (fun k => decide (k < a)) j (by simpa using hj)]
      · intro c hc
        have := (listed_bounds a bs c hc).1
        omega
      · intro c hc
        have h1 : a + bs.length ≤ c.1 := by simpa using (List.mem_filter.mp hc).2
        omega
    · rw [read_append, read_filter m (fun k => decide (a + bs.length ≤ k)) j (by simp; omega)]
      intro c hc
      rcases List.mem_append.mp hc with hc | hc
      · have h1 : c.1 < a := by simpa using (List.mem_filter.mp hc).2
        omega
      · have := (listed_bounds a bs c hc).2.1
        omega

@[simp] theorem length_readBytes (m : Memory) (a n : Nat) : (m.readBytes a n).length = n := by
  simp [Memory.readBytes]

/-- Reading back a whole write. -/
theorem readBytes_writeBytes (m : Memory) (a : Nat) (bs : List Byte) : (m.writeBytes a bs).readBytes a bs.length = bs := by
  apply List.ext_getElem
  · simp
  · intro j h1 h2
    have hj : j < bs.length := h2
    simp only [Memory.readBytes, List.getElem_map, List.getElem_range, read_writeBytes]
    rw [dif_pos ⟨by omega, by omega⟩]
    simp

/-- Reading after a write of the first bytes. -/
theorem readBytes_writePrefix (m : Memory) (cs : List Byte) (n : Nat) (h : cs.length ≤ n) :
    (m.writeBytes 0 cs).readBytes 0 n = cs ++ (m.readBytes 0 n).drop cs.length := by
  apply List.ext_getElem
  · simp
    omega
  · intro j h1 h2
    simp only [Memory.readBytes, List.getElem_map, List.getElem_range, read_writeBytes]
    by_cases hc : j < cs.length
    · rw [dif_pos ⟨by omega, by omega⟩, List.getElem_append_left hc]
      congr 1
      omega
    · rw [dif_neg (by omega), List.getElem_append_right (by omega), List.getElem_drop]
      simp
      congr 1
      omega

/-- Overwriting the first bytes of a sequence. -/
theorem readBytes_overwrite (m : Memory) (bs cs : List Byte) (h : cs.length ≤ bs.length) :
    ((m.writeBytes 0 bs).writeBytes 0 cs).readBytes 0 bs.length = cs ++ bs.drop cs.length := by
  rw [readBytes_writePrefix _ _ _ h, readBytes_writeBytes]

/-- A write leaves every byte outside it alone. -/
theorem read_writeBytes_outside (m : Memory) (a : Nat) (bs : List Byte) (k : Nat) (h : k < a ∨ a + bs.length ≤ k) :
    (m.writeBytes a bs).read k = m.read k := by
  rw [read_writeBytes, dif_neg (by omega)]

/-- Reading before a write. -/
theorem readBytes_writeBytes_before (m : Memory) (n : Nat) (bs : List Byte) :
    (m.writeBytes n bs).readBytes 0 n = m.readBytes 0 n := by
  apply List.ext_getElem
  · simp
  · intro j h1 h2
    simp only [Memory.readBytes, List.getElem_map, List.getElem_range]
    exact read_writeBytes_outside _ _ _ _ (.inl (by simpa using h2))

end Sys2Proof.Machine
end

