-- ==== Sys2Proof/Laws/Ops.lean ====
section
/-! SUPPORT. What each shared operation can do: its effect on the state for a given answer of the environment, and, for every
answer, what it leaves unchanged and which events it performs. -/

namespace Sys2Proof.Machine

open Sys2Proof.Config

variable {p : Params}

/-! ### Byte order -/

@[simp] theorem length_be24 (v : RegValue) : (be24 v).length = 3 := rfl
@[simp] theorem length_be32 (w : Word32) : (be32 w).length = 4 := rfl

theorem fromBE24_be24 (v : RegValue) :
    fromBE24 (v.extractLsb' 16 8) (v.extractLsb' 8 8) (v.extractLsb' 0 8) = v := by
  unfold fromBE24
  ext i hi
  simp only [BitVec.getElem_append, BitVec.getElem_extractLsb']
  split
  · simp [BitVec.getLsbD_eq_getElem, hi]
  · split <;> (rw [BitVec.getLsbD_eq_getElem (by omega)]; congr 1; omega)

theorem fromBE32_be32 (w : Word32) :
    fromBE32 (w.extractLsb' 24 8) (w.extractLsb' 16 8) (w.extractLsb' 8 8) (w.extractLsb' 0 8) = w := by
  unfold fromBE32
  ext i hi
  simp only [BitVec.getElem_append, BitVec.getElem_extractLsb']
  split
  · simp [BitVec.getLsbD_eq_getElem, hi]
  · split
    · rw [BitVec.getLsbD_eq_getElem (by omega)]; congr 1; omega
    · split <;> (rw [BitVec.getLsbD_eq_getElem (by omega)]; congr 1; omega)

/-! ### Sequences that can raise -/

@[simp] theorem bind_ok {α β : Type} (a : α) (s : State) (f : α → State → Res β) : (Res.ok a s).bind f = f a s := rfl
@[simp] theorem bind_raised {α β : Type} (e : Error) (s : State) (f : α → State → Res β) :
    (Res.raised e s : Res α).bind f = .raised e s := rfl
@[simp] theorem state_ok {α : Type} (a : α) (s : State) : (Res.ok a s).state = s := rfl
@[simp] theorem state_raised {α : Type} (e : Error) (s : State) : (Res.raised e s : Res α).state = s := rfl

/-- A bind that succeeds has succeeded in both parts. -/
theorem bind_eq_ok {α β : Type} {r : Res α} {f : α → State → Res β} {b : β} {t : State} (h : r.bind f = .ok b t) :
    ∃ a s, r = .ok a s ∧ f a s = .ok b t := by
  cases r with
  | ok a s => exact ⟨a, s, rfl, h⟩
  | raised e s => cases h

/-! ### What a sequence of port operations leaves unchanged -/

/-- The state after the events `es` on the `Exchange` and delay ports: only the pending answers, the counter of free draws and
the trace differ. -/
def Ported (s s' : State) (es : List Event) : Prop :=
  ∃ xi d, s' = { s with xferIn := xi, draws := d, trace := s.trace ++ es }

theorem Ported.refl (s : State) : Ported s s [] := ⟨s.xferIn, s.draws, by simp⟩

theorem Ported.trans {s s' s'' : State} {es es' : List Event} (h : Ported s s' es) (h' : Ported s' s'' es') :
    Ported s s'' (es ++ es') := by
  obtain ⟨xi, d, rfl⟩ := h
  obtain ⟨xi', d', rfl⟩ := h'
  exact ⟨xi', d', by simp⟩

/-- What a sequence on the `Exchange` and delay ports performs: single-register frames and delays. -/
def PortEvent (p : Params) : Event → Prop
  | .xfer tx _ => SingleFrame p tx
  | .waitNs _ => True
  | .waitMs _ => True
  | _ => False

theorem PortEvent.not_result {e : Event} (h : PortEvent p e) : e.isResult = false := by
  cases e <;> simp_all [PortEvent, Event.isResult]

theorem PortEvent.single {tx : List Byte} {rx : XferAnswer} (h : PortEvent p (.xfer tx rx)) : SingleFrame p tx := h

/-- A sequence that only sends single-register frames and waits, whichever way it ends. -/
def Quiet (p : Params) {α : Type} (s : State) (r : Res α) : Prop :=
  ∃ es, Ported s r.state es ∧ ∀ e ∈ es, PortEvent p e

theorem Quiet.pure {α : Type} (a : α) (s : State) : Quiet p s (Res.ok a s) := ⟨[], Ported.refl s, by simp⟩

theorem Quiet.raise {α : Type} (e : Error) (s : State) : Quiet p s (Res.raised e s : Res α) := ⟨[], Ported.refl s, by simp⟩

theorem Quiet.from {α : Type} {s s' : State} {es : List Event} {r : Res α} (h : Ported s s' es)
    (hp : ∀ e ∈ es, PortEvent p e) (h' : Quiet p s' r) : Quiet p s r := by
  obtain ⟨es', h'', hp'⟩ := h'
  refine ⟨es ++ es', h.trans h'', fun e he => ?_⟩
  rcases List.mem_append.mp he with he | he
  exacts [hp e he, hp' e he]

theorem Quiet.bind {α β : Type} {s : State} {r : Res α} {f : α → State → Res β} (h : Quiet p s r)
    (hf : ∀ a s', r = .ok a s' → Quiet p s' (f a s')) : Quiet p s (r.bind f) := by
  obtain ⟨es, hes, hp⟩ := h
  cases r with
  | ok a s' => exact Quiet.from hes hp (hf a s' rfl)
  | raised e s' => exact ⟨es, hes, hp⟩

theorem Quiet.delayNs {α : Type} {s : State} {n : Word32} {r : Res α} (h : Quiet p (delayNs n s) r) : Quiet p s r :=
  Quiet.from (es := [.waitNs n]) ⟨s.xferIn, s.draws, rfl⟩ (by simp [PortEvent]) h

theorem Quiet.delayMs {α : Type} {s : State} {n : Word32} {r : Res α} (h : Quiet p (delayMs n s) r) : Quiet p s r :=
  Quiet.from (es := [.waitMs n]) ⟨s.xferIn, s.draws, rfl⟩ (by simp [PortEvent]) h

/-! ### The ports -/

@[simp] theorem length_freeBytes (d n : Nat) : (freeBytes d n).length = n := by simp [freeBytes]

@[simp] theorem length_fitTo (n : Nat) (bs : List Byte) (d : Nat) : (fitTo n bs d).length = n := by
  simp [fitTo]
  omega

/-- A response that is listed in full is the answer. -/
theorem fitTo_full (bs : List Byte) (d : Nat) : fitTo bs.length bs d = bs := by simp [fitTo, freeBytes]

/-- What an exchange can do: it answers a response of the request's length, or it raises `Transport`; one event either way
(00_scope.md R9, R12). -/
theorem exchange_cases (tx : List Byte) (s : State) :
    (∃ rx s', exchange tx s = .ok rx s' ∧ rx.length = tx.length ∧ Ported s s' [.xfer tx (.bytes rx)]) ∨
    (∃ s', exchange tx s = .raised .transport s' ∧ Ported s s' [.xfer tx .transportError]) := by
  unfold exchange drawXfer
  cases hx : s.xferIn with
  | nil =>
    simp only
    cases hf : Config.freeXferFails s.draws with
    | true => exact .inr ⟨_, rfl, [], s.draws + 1 + tx.length, by simp [emit]⟩
    | false => exact .inl ⟨_, _, rfl, by simp, [], s.draws + 1 + tx.length, by simp [emit]⟩
  | cons a r =>
    cases a with
    | bytes bs => exact .inl ⟨_, _, rfl, by simp, r, s.draws + (tx.length - bs.length), by simp [emit]⟩
    | transportError => exact .inr ⟨_, rfl, r, s.draws, by simp [emit]⟩

/-- An exchange whose response is listed in full. -/
theorem exchange_full (tx rx : List Byte) (X : List XferAnswer) (s : State) (hl : rx.length = tx.length)
    (hx : s.xferIn = .bytes rx :: X) :
    exchange tx s = .ok rx { s with xferIn := X, trace := s.trace ++ [.xfer tx (.bytes rx)] } := by
  simp only [exchange, drawXfer, hx, ← hl, fitTo_full, emit]
  simp

/-- An exchange that the transport fails. -/
theorem exchange_fails (tx : List Byte) (X : List XferAnswer) (s : State) (hx : s.xferIn = .transportError :: X) :
    exchange tx s = .raised .transport { s with xferIn := X, trace := s.trace ++ [.xfer tx .transportError] } := by
  simp [exchange, drawXfer, hx, emit]

theorem exchange_quiet (tx : List Byte) (s : State) (h1 : SingleFrame p tx) : Quiet p s (exchange tx s) := by
  rcases exchange_cases tx s with ⟨rx, s', h, -, hp⟩ | ⟨s', h, hp⟩
  · exact ⟨_, by rw [h]; exact hp, by simpa [PortEvent] using h1⟩
  · exact ⟨_, by rw [h]; exact hp, by simpa [PortEvent] using h1⟩

/-- What a pin operation can do: the level requested is recorded and one event performed, whatever the answer (10_state.md
R25). -/
theorem rstSet_cases (l : Level) (s : State) :
    ∃ ri d, (rstSet l s = .ok () { s with rstLevel := l, rstIn := ri, draws := d, trace := s.trace ++ [.rst l .ok] }) ∨
      (rstSet l s =
        .raised .pin { s with rstLevel := l, rstIn := ri, draws := d, trace := s.trace ++ [.rst l .pinError] }) := by
  unfold rstSet drawPin
  cases hr : s.rstIn with
  | nil =>
    refine ⟨[], s.draws + 1, ?_⟩
    simp only
    cases Config.freePinFails s.draws with
    | true => exact .inr (by simp [emit])
    | false => exact .inl (by simp [emit])
  | cons a r =>
    refine ⟨r, s.draws, ?_⟩
    cases a with
    | ok => exact .inl (by simp [emit])
    | pinError => exact .inr (by simp [emit])

/-- A pin operation with a listed answer. -/
theorem rstSet_ok (l : Level) (R : List PinAnswer) (s : State) (h : s.rstIn = .ok :: R) :
    rstSet l s = .ok () { s with rstLevel := l, rstIn := R, trace := s.trace ++ [.rst l .ok] } := by
  simp [rstSet, drawPin, h, emit]

theorem rstSet_pinError (l : Level) (R : List PinAnswer) (s : State) (h : s.rstIn = .pinError :: R) :
    rstSet l s = .raised .pin { s with rstLevel := l, rstIn := R, trace := s.trace ++ [.rst l .pinError] } := by
  simp [rstSet, drawPin, h, emit]

/-! ### Acceptance -/

/-- Everything an acceptance can do. -/
theorem accept_cases (s : State) (g : Bool) (k : Host.Outcome State Fault Refusal) :
    (s.cmd ≠ none ∧ accept s g k = .refused .commandInFlight) ∨ (s.cmd = none ∧ g = true ∧ accept s g k = k) ∨
      (s.cmd = none ∧ g = false ∧ accept s g k = .refused .lifecycleGuard) := by
  unfold accept
  by_cases h : s.cmd = none <;> cases g <;> simp [h]

@[simp] theorem accept_true (s : State) (k : Host.Outcome State Fault Refusal) (h : s.cmd = none) :
    accept s true k = k := by simp [accept, h]

theorem accept_of (s : State) (g : Bool) (k : Host.Outcome State Fault Refusal) (h : s.cmd = none) (hg : g = true) :
    accept s g k = k := by simp [accept, h, hg]

/-- A request that is accepted and answers a next state was accepted. -/
theorem accept_next {s t : State} {g : Bool} {k : Host.Outcome State Fault Refusal} (h : accept s g k = .next t) :
    s.cmd = none ∧ g = true ∧ k = .next t := by
  rcases accept_cases s g k with ⟨-, hk⟩ | ⟨hc, hg, hk⟩ | ⟨-, -, hk⟩
  · rw [hk] at h; cases h
  · exact ⟨hc, hg, hk ▸ h⟩
  · rw [hk] at h; cases h

theorem constructed_iff (s : State) : constructed s = true ↔ s.life ≠ .uninit := by simp [constructed]

/-! ### The framer -/

theorem checkStatus_ok (g : Byte) (s : State) (h : isError p g = false) : checkStatus p g s = .ok () s := by
  simp [checkStatus, h]

theorem checkStatus_error (g : Byte) (s : State) (h : isError p g = true) :
    checkStatus p g s = .raised (.status g) s := by
  simp [checkStatus, h]

theorem checkStatus_quiet (g : Byte) (s : State) : Quiet p s (checkStatus p g s) := by
  unfold checkStatus
  split
  exacts [Quiet.raise _ s, Quiet.pure _ s]

theorem readRegister_quiet (a : RegAddr) (s : State) : Quiet p s (readRegister p a s) :=
  (exchange_quiet _ s (.inl ⟨a, rfl⟩)).bind fun _ _ _ => (checkStatus_quiet _ _).bind fun _ _ _ => Quiet.pure _ _

theorem writeRegister_quiet (a : RegAddr) (v : RegValue) (s : State) : Quiet p s (writeRegister p a v s) :=
  (exchange_quiet _ s (.inr ⟨a, v, rfl⟩)).bind fun _ _ _ => (checkStatus_quiet _ _).bind fun _ _ _ => Quiet.pure _ _

theorem readModifyWrite_quiet (a : RegAddr) (hi lo : Nat) (f : RegValue) (s : State) :
    Quiet p s (readModifyWrite p a hi lo f s) :=
  (readRegister_quiet a s).bind fun _ _ _ => (writeRegister_quiet _ _ _).bind fun _ _ _ => Quiet.pure _ _

theorem strobe_quiet (a : RegAddr) (b : Nat) (s : State) : Quiet p s (strobe p a b s) := readModifyWrite_quiet a b b 1 s

@[simp] theorem responseStatus_cons (g : Byte) (bs : List Byte) : responseStatus (g :: bs) = g := rfl

theorem responseValue_be24 (g : Byte) (v : RegValue) : responseValue (g :: be24 v) = v := fromBE24_be24 v

/-- A register read that the chip answers without an error (40_framer.md R101). -/
theorem readRegister_ok (a : RegAddr) (g : Byte) (v : RegValue) (X : List XferAnswer) (s : State)
    (hx : s.xferIn = answer g v :: X) (hg : isError p g = false) :
    readRegister p a s = .ok (v, g) { s with xferIn := X, trace := s.trace ++ [readEvent p a g v] } := by
  rw [readRegister, exchange_full (readFrame p a) (g :: be24 v) X s rfl hx]
  simp [checkStatus_ok g _ hg, responseValue_be24, readEvent, answer]

/-- A register read whose status byte has an error bit (40_framer.md R100, R101). -/
theorem readRegister_status (a : RegAddr) (g : Byte) (v : RegValue) (X : List XferAnswer) (s : State)
    (hx : s.xferIn = answer g v :: X) (hg : isError p g = true) :
    readRegister p a s = .raised (.status g) { s with xferIn := X, trace := s.trace ++ [readEvent p a g v] } := by
  rw [readRegister, exchange_full (readFrame p a) (g :: be24 v) X s rfl hx]
  simp [checkStatus_error g _ hg, readEvent, answer]

/-- A register read that the transport fails (40_framer.md R106). -/
theorem readRegister_transport (a : RegAddr) (X : List XferAnswer) (s : State) (hx : s.xferIn = .transportError :: X) :
    readRegister p a s =
      .raised .transport { s with xferIn := X, trace := s.trace ++ [.xfer (readFrame p a) .transportError] } := by
  rw [readRegister, exchange_fails _ X s hx, bind_raised]

/-- A register write that the chip answers without an error (40_framer.md R102). -/
theorem writeRegister_ok (a : RegAddr) (v : RegValue) (g : Byte) (x : RegValue) (X : List XferAnswer) (s : State)
    (hx : s.xferIn = answer g x :: X) (hg : isError p g = false) :
    writeRegister p a v s = .ok g { s with xferIn := X, trace := s.trace ++ [writeEvent p a v g x] } := by
  rw [writeRegister, exchange_full (writeFrame p a v) (g :: be24 x) X s rfl hx]
  simp [checkStatus_ok g _ hg, writeEvent, answer]

/-- A register write whose status byte has an error bit (40_framer.md R100, R102). -/
theorem writeRegister_status (a : RegAddr) (v : RegValue) (g : Byte) (x : RegValue) (X : List XferAnswer) (s : State)
    (hx : s.xferIn = answer g x :: X) (hg : isError p g = true) :
    writeRegister p a v s = .raised (.status g) { s with xferIn := X, trace := s.trace ++ [writeEvent p a v g x] } := by
  rw [writeRegister, exchange_full (writeFrame p a v) (g :: be24 x) X s rfl hx]
  simp [checkStatus_error g _ hg, writeEvent, answer]

/-- A register write that the transport fails (40_framer.md R106). -/
theorem writeRegister_transport (a : RegAddr) (v : RegValue) (X : List XferAnswer) (s : State)
    (hx : s.xferIn = .transportError :: X) :
    writeRegister p a v s =
      .raised .transport { s with xferIn := X, trace := s.trace ++ [.xfer (writeFrame p a v) .transportError] } := by
  rw [writeRegister, exchange_fails _ X s hx, bind_raised]

/-- A read-modify-write whose two exchanges succeed (40_framer.md R103). -/
theorem readModifyWrite_ok (a : RegAddr) (hi lo : Nat) (f : RegValue) (g1 g2 : Byte) (r x : RegValue)
    (X : List XferAnswer) (s : State) (hx : s.xferIn = answer g1 r :: answer g2 x :: X)
    (h1 : isError p g1 = false) (h2 : isError p g2 = false) :
    readModifyWrite p a hi lo f s =
      .ok () { s with xferIn := X, trace := s.trace ++ [readEvent p a g1 r, writeEvent p a (insertField r hi lo f) g2 x] } := by
  rw [readModifyWrite, readRegister_ok a g1 r _ s hx h1, bind_ok, writeRegister_ok a _ g2 x X _ rfl h2]
  simp

/-- A register read whose answer raises (40_framer.md R101, R106). -/
theorem readRegister_raises (a : RegAddr) (x : XferAnswer) (e : Error) (X : List XferAnswer) (s : State)
    (hx : s.xferIn = x :: X) (h : Raises p x e) :
    readRegister p a s = .raised e { s with xferIn := X, trace := s.trace ++ [.xfer (readFrame p a) x] } := by
  rcases h with ⟨rfl, rfl⟩ | ⟨g, v, rfl, hg, rfl⟩
  · exact readRegister_transport a X s hx
  · exact readRegister_status a g v X s hx hg

/-- A register write whose answer raises (40_framer.md R102, R106). -/
theorem writeRegister_raises (a : RegAddr) (v : RegValue) (x : XferAnswer) (e : Error) (X : List XferAnswer) (s : State)
    (hx : s.xferIn = x :: X) (h : Raises p x e) :
    writeRegister p a v s = .raised e { s with xferIn := X, trace := s.trace ++ [writeAnswered p a v x] } := by
  rcases h with ⟨rfl, rfl⟩ | ⟨g, v', rfl, hg, rfl⟩
  · exact writeRegister_transport a v X s hx
  · exact writeRegister_status a v g v' X s hx hg

/-- A read-modify-write whose read raises sends no write (40_framer.md R103). -/
theorem readModifyWrite_read_raises (a : RegAddr) (hi lo : Nat) (f : RegValue) (x : XferAnswer) (e : Error)
    (X : List XferAnswer) (s : State) (hx : s.xferIn = x :: X) (h : Raises p x e) :
    readModifyWrite p a hi lo f s = .raised e { s with xferIn := X, trace := s.trace ++ [.xfer (readFrame p a) x] } := by
  rw [readModifyWrite, readRegister_raises a x e X s hx h, bind_raised]

/-- A read-modify-write whose write raises (40_framer.md R103). -/
theorem readModifyWrite_write_raises (a : RegAddr) (hi lo : Nat) (f : RegValue) (g : Byte) (r : RegValue) (x : XferAnswer) (e : Error)
    (X : List XferAnswer) (s : State) (hx : s.xferIn = answer g r :: x :: X) (hg : isError p g = false) (h : Raises p x e) :
    readModifyWrite p a hi lo f s = .raised e { s with
      xferIn := X, trace := s.trace ++ [readEvent p a g r, writeAnswered p a (insertField r hi lo f) x] } := by
  rw [readModifyWrite, readRegister_ok a g r _ s hx hg, bind_ok, writeRegister_raises a _ x e X _ rfl h]
  simp

/-! ### The sequences -/

theorem chipIdSeq_quiet (s : State) : Quiet p s (chipIdSeq p s) := (readRegister_quiet _ s).bind fun _ _ _ => Quiet.pure _ _

theorem pollSwReset_quiet (s : State) : Quiet p s (pollSwReset p s) := by
  unfold pollSwReset
  obtain ⟨es, hp, he⟩ := readRegister_quiet p.addrMain s
  cases h : readRegister p p.addrMain s with
  | ok r s1 =>
    rw [h] at hp
    exact ⟨es, hp, he⟩
  | raised e s1 =>
    rw [h] at hp
    cases e <;> exact ⟨es, hp, he⟩

theorem pollLoop_quiet (n : Nat) (s : State) : Quiet p s (pollLoop p n s) := by
  induction n generalizing s with
  | zero => exact Quiet.pure _ s
  | succ n ih =>
    refine (pollSwReset_quiet s).bind fun cleared s1 _ => ?_
    cases cleared with
    | true => exact Quiet.pure _ s1
    | false =>
      by_cases hn : n = 0
      · simpa [hn] using Quiet.pure false s1
      · simpa [hn] using Quiet.delayMs (ih _)

theorem resetSoftware_quiet (s : State) : Quiet p s (resetSoftware p s) := by
  refine (strobe_quiet _ _ s).bind fun _ s1 _ => ?_
  refine Quiet.bind (Quiet.delayNs (n := swResetWaitNs) (pollLoop_quiet _ _)) fun cleared s2 _ => ?_
  cases cleared with
  | true => exact Quiet.delayMs (n := swResetSettleMs) (Quiet.pure _ _)
  | false => exact Quiet.delayMs (n := swResetSettleMs) (Quiet.raise _ _)

theorem applyFifoLimit_quiet (limit : Nat) (s : State) : Quiet p s (applyFifoLimit p limit s) := readModifyWrite_quiet _ _ _ _ s

theorem writeWords_quiet (ws : List Word32) (s : State) : Quiet p s (writeWords p ws s) := by
  induction ws generalizing s with
  | nil => exact Quiet.pure _ s
  | cons w ws ih => exact (writeRegister_quiet _ _ s).bind fun _ s1 _ => ih s1

/-- Everything the reset pulse can do to the state (41_control_sequences.md R120): it performs the whole pulse, or it raises `Pin`
and performs no transfer. -/
theorem resetHardware_cases (s : State) :
    ∃ l ri d es, (resetHardware s = .ok () { s with rstLevel := l, rstIn := ri, draws := d, trace := s.trace ++ es } ∧
        es = resetPulse ∧ l = .high) ∨
      (resetHardware s = .raised .pin { s with rstLevel := l, rstIn := ri, draws := d, trace := s.trace ++ es } ∧
        ∀ e ∈ es, e.isXfer = false ∧ e.isResult = false) := by
  unfold resetHardware
  obtain ⟨ri1, d1, h1 | h1⟩ := rstSet_cases .high s
  · rw [h1, bind_ok]
    obtain ⟨ri2, d2, h2 | h2⟩ := rstSet_cases .low (delayNs hwResetDelayNs
      { s with rstLevel := .high, rstIn := ri1, draws := d1, trace := s.trace ++ [.rst .high .ok] })
    · rw [h2, bind_ok]
      obtain ⟨ri3, d3, h3 | h3⟩ := rstSet_cases .high (delayNs hwResetDelayNs
        { (delayNs hwResetDelayNs
          { s with rstLevel := .high, rstIn := ri1, draws := d1, trace := s.trace ++ [.rst .high .ok] }) with
          rstLevel := .low, rstIn := ri2, draws := d2,
          trace := (delayNs hwResetDelayNs
            { s with rstLevel := .high, rstIn := ri1, draws := d1, trace := s.trace ++ [.rst .high .ok] }).trace ++
              [.rst .low .ok] })
      · rw [h3]
        exact ⟨.high, ri3, d3, resetPulse, .inl ⟨by simp [delayNs, emit, resetPulse, hwResetDelayNs], rfl, rfl⟩⟩
      · rw [h3]
        exact ⟨.high, ri3, d3,
          [.rst .high .ok, .waitNs hwResetDelayNs, .rst .low .ok, .waitNs hwResetDelayNs, .rst .high .pinError],
          .inr ⟨by simp [delayNs, emit], by simp [Event.isXfer, Event.isResult]⟩⟩
    · rw [h2]
      exact ⟨.low, ri2, d2, [.rst .high .ok, .waitNs hwResetDelayNs, .rst .low .pinError],
        .inr ⟨by simp [delayNs, emit], by simp [Event.isXfer, Event.isResult]⟩⟩
  · rw [h1]
    exact ⟨.high, ri1, d1, [.rst .high .pinError], .inr ⟨by simp, by simp [Event.isXfer, Event.isResult]⟩⟩

/-! ### The interrupt wait -/

/-- The wait goes through a resting line and has seen its last level (60_exceptions.md R236). A wait that has last seen LOW rests
only while the line stays LOW. -/
theorem irqScan_resting (last : Option Level) (n m : Nat) (obs : List IrqObs) (h : last = some .low → n = 0) :
    irqScan last (restingLine n m ++ obs) = irqScan (lastSeen last n m) obs := by
  have low : ∀ m last, irqScan last (List.replicate m (.level .low) ++ obs) = irqScan (if m = 0 then last else some .low) obs := by
    intro m
    induction m with
    | zero => simp
    | succ m ih =>
      intro last
      rw [List.replicate_succ, List.cons_append, irqScan, if_neg (by simp), ih]
      simp
  induction n generalizing last with
  | zero =>
    rw [restingLine, List.replicate_zero, List.nil_append, low]
    by_cases hm : m = 0 <;> simp [lastSeen, hm]
  | succ n ih =>
    have hl : last ≠ some .low := fun hl => by simpa using h hl
    rw [restingLine, List.replicate_succ, List.cons_append, List.cons_append, irqScan, if_neg (by simp [hl])]
    have := ih (some .high) (by simp)
    rw [restingLine] at this
    rw [this]
    by_cases hm : m = 0 <;> by_cases hn : n = 0 <;> simp [lastSeen, hm, hn]

/-- A line that is HIGH for a while, then LOW for a while, then HIGH: the wait completes at its rising edge
(60_exceptions.md R236). -/
theorem irqScan_rises (n m : Nat) (rest : List IrqObs) : irqScan none (risingLine n m ++ rest) = .risen rest := by
  rw [risingLine, List.append_assoc, irqScan_resting none n (m + 1) _ (by simp)]
  simp [lastSeen, irqScan]

/-- A wait that meets a pin error on a resting line fails there. -/
theorem irqScan_pinError (last : Option Level) (n m : Nat) (rest : List IrqObs) (h : last = some .low → n = 0) :
    irqScan last (restingLine n m ++ .pinError :: rest) = .failed rest := by
  rw [irqScan_resting last n m _ h, irqScan]

/-- A wait whose observations end on a resting line goes on. -/
theorem irqScan_pending (last : Option Level) (n m : Nat) (h : last = some .low → n = 0) :
    irqScan last (restingLine n m) = .pending (lastSeen last n m) := by
  have := irqScan_resting last n m [] h
  rwa [List.append_nil, irqScan] at this

/-! ### The burst -/

/-- Everything a burst transfer can do (42_fifo_acquisition.md R162 steps 3 and 4): one transfer of all of `CMD`; besides the
port only the command buffer changes, and it holds the response, or free bytes from offset 4 on. -/
theorem burstTransfer_cases (s : State) :
    ∃ a xi d mem, (burstTransfer p s).state =
        { s with xferIn := xi, draws := d, cmdMem := mem, trace := s.trace ++ [.xfer (cmdBytes s) a] } ∧
      (∀ r s', burstTransfer p s = .ok r s' → r.2.length = s.cmdLen ∧ a = .bytes r.2 ∧ mem = s.cmdMem.writeBytes 0 r.2) ∧
      ((∃ d', mem = s.cmdMem.writeBytes 4 (freeBytes d' (s.cmdLen - 4))) ∨
        ∃ rx, rx.length = s.cmdLen ∧ mem = s.cmdMem.writeBytes 0 rx) := by
  unfold burstTransfer
  rcases exchange_cases (cmdBytes s) s with ⟨rx, s', h, hl, xi, d, rfl⟩ | ⟨s', h, xi, d, rfl⟩
  · have hlen : rx.length = s.cmdLen := by simpa [cmdBytes] using hl
    simp only [h]
    refine ⟨.bytes rx, xi, d, s.cmdMem.writeBytes 0 rx, ?_, fun r s' hr => ?_, .inr ⟨rx, hlen, rfl⟩⟩
    · by_cases hg : isError p (responseStatus rx) = true
      · simp [checkStatus_error _ _ hg, writeCmd]
      · simp [checkStatus_ok _ _ (by simpa using hg), writeCmd]
    · obtain ⟨_, _, _, h2⟩ := bind_eq_ok hr
      cases h2
      exact ⟨hlen, rfl, rfl⟩
  · simp only [h]
    refine ⟨.transportError, xi, d + (s.cmdLen - 4), s.cmdMem.writeBytes 4 (freeBytes d (s.cmdLen - 4)), ?_,
      fun r s' hr => ?_, .inl ⟨d, rfl⟩⟩
    · simp [scrambleTail, writeCmd]
    · cases hr

end Sys2Proof.Machine
end

