-- ==== Sys2Proof/Laws/Sequences.lean ====
section
/-! SUPPORT. What the sequences of the block do on the answers the environment lists, and, for every answer, all that each of them
can do. The provers cite these instead of unfolding a sequence. -/

namespace Sys2Proof.Machine

open Sys2Proof.Config

variable {p : Params}

/-! ### Field insertion -/

theorem fieldMask_getLsbD (hi lo k : Nat) (h : lo ≤ hi) (hh : hi ≤ 23) (hk : k < 24) :
    (fieldMask hi lo).getLsbD k = decide (lo ≤ k ∧ k ≤ hi) := by
  have key : ∀ n, n ≤ 23 → ∀ j, j < 24 → ((1#24 <<< (n + 1)) - 1#24).getLsbD j = decide (j ≤ n) := by decide
  simp only [fieldMask, BitVec.getLsbD_shiftLeft, hk, decide_true, Bool.true_and]
  by_cases hl : k < lo
  · have : ¬lo ≤ k := by omega
    simp [hl, this]
  · rw [key (hi - lo) (by omega) (k - lo) (by omega)]
    have h1 : lo ≤ k := by omega
    have h2 : (k - lo ≤ hi - lo) ↔ k ≤ hi := by omega
    simp [hl, h1, h2]

/-- The bits of the value that a read-modify-write writes (40_framer.md R103). -/
theorem insertField_getLsbD (r f : RegValue) (hi lo k : Nat) (h : lo ≤ hi) (hh : hi ≤ 23) (hk : k < 24) :
    (insertField r hi lo f).getLsbD k = if lo ≤ k ∧ k ≤ hi then f.getLsbD (k - lo) else r.getLsbD k := by
  simp only [insertField, BitVec.getLsbD_or, BitVec.getLsbD_and, BitVec.getLsbD_not, fieldMask_getLsbD hi lo k h hh hk,
    BitVec.getLsbD_shiftLeft, hk]
  by_cases hc : lo ≤ k ∧ k ≤ hi
  · have : ¬k < lo := by omega
    simp [hc, this]
  · simp [hc]

/-- The value a strobe writes is the value read with one bit set (40_framer.md R104). -/
theorem insertField_one (r : RegValue) (b : Nat) : insertField r b b 1 = setBit r b := by
  have hm : (1#24 <<< (b - b + 1)) - 1#24 = 1#24 := by simp
  have h1 : (1 : RegValue) = 1#24 := rfl
  rw [insertField, setBit, fieldMask, hm, h1, BitVec.and_self]
  ext i hi
  simp
  grind

/-- A strobe whose two exchanges succeed (40_framer.md R104). -/
theorem strobe_ok (a : RegAddr) (b : Nat) (g1 g2 : Byte) (r x : RegValue) (X : List XferAnswer) (s : State)
    (hx : s.xferIn = answer g1 r :: answer g2 x :: X) (h1 : isError p g1 = false) (h2 : isError p g2 = false) :
    strobe p a b s =
      .ok () { s with xferIn := X, trace := s.trace ++ [readEvent p a g1 r, writeEvent p a (setBit r b) g2 x] } := by
  rw [strobe, readModifyWrite_ok a b b 1 g1 g2 r x X s hx h1 h2, insertField_one]

/-! ### The software reset and the register words -/

/-- A poll that does not see the reset completed (41_control_sequences.md R121). -/
theorem pollSwReset_fails (s : State) (q : Byte × RegValue) (X : List XferAnswer) (hx : s.xferIn = answerOf q :: X)
    (hq : PollFails p q) :
    pollSwReset p s = .ok false { s with xferIn := X, trace := s.trace ++ [readEvent p p.addrMain q.1 q.2] } := by
  unfold pollSwReset
  cases he : isError p q.1 with
  | true => rw [readRegister_status _ q.1 q.2 X s hx he]
  | false =>
    rw [readRegister_ok _ q.1 q.2 X s hx he]
    rcases hq with hq | hq
    · simp [he] at hq
    · simp [hq]

/-- A poll that sees the reset completed (41_control_sequences.md R121). -/
theorem pollSwReset_done (s : State) (g : Byte) (y : RegValue) (X : List XferAnswer) (hx : s.xferIn = answer g y :: X)
    (hg : isError p g = false) (hp : y.getLsbD p.mainSwReset = false) :
    pollSwReset p s = .ok true { s with xferIn := X, trace := s.trace ++ [readEvent p p.addrMain g y] } := by
  unfold pollSwReset
  rw [readRegister_ok _ g y X s hx hg]
  simp [hp]

/-- Fewer than `n` failed polls and one that sees the reset completed. -/
theorem pollLoop_done (fails : List (Byte × RegValue)) (n : Nat) (s : State) (g : Byte) (y : RegValue) (X : List XferAnswer)
    (hn : fails.length < n) (hx : s.xferIn = fails.map answerOf ++ answer g y :: X) (hf : ∀ q ∈ fails, PollFails p q)
    (hg : isError p g = false) (hp : y.getLsbD p.mainSwReset = false) :
    pollLoop p n s = .ok true
      { s with xferIn := X, trace := s.trace ++ pollEvents p fails ++ [readEvent p p.addrMain g y] } := by
  induction fails generalizing n s with
  | nil =>
    cases n with
    | zero => simp at hn
    | succ n =>
      rw [pollLoop, pollSwReset_done s g y X (by simpa using hx) hg hp]
      simp [pollEvents]
  | cons q fails ih =>
    cases n with
    | zero => simp at hn
    | succ n =>
      rw [pollLoop, pollSwReset_fails s q _ (by simpa using hx) (hf q (by simp))]
      have : n ≠ 0 := by rintro rfl; simp at hn
      simp only [bind_ok, this, if_false, Bool.false_eq_true]
      rw [ih n _ (by simpa using hn) (by simp) (fun q hq => hf q (by simp [hq]))]
      simp [delayMs, emit, pollEvents, swResetPollMs]

/-- As many failed polls as the loop allows; the trace lacks only the last delay, which the caller performs. -/
theorem pollLoop_fails (fails : List (Byte × RegValue)) (s : State) (X : List XferAnswer) (hne : fails ≠ [])
    (hx : s.xferIn = fails.map answerOf ++ X) (hf : ∀ q ∈ fails, PollFails p q) :
    ∃ tr, pollLoop p fails.length s = .ok false { s with xferIn := X, trace := tr } ∧
      tr ++ [.waitMs 10] = s.trace ++ pollEvents p fails := by
  induction fails generalizing s with
  | nil => simp at hne
  | cons q fails ih =>
    rw [List.length_cons, pollLoop, pollSwReset_fails s q _ (by simpa using hx) (hf q (by simp))]
    cases fails with
    | nil => exact ⟨s.trace ++ [readEvent p p.addrMain q.1 q.2], by simp, by simp [pollEvents]⟩
    | cons q2 fs =>
      obtain ⟨tr, h1, h2⟩ := ih (delayMs swResetPollMs { s with
        xferIn := (q2 :: fs).map answerOf ++ X, trace := s.trace ++ [readEvent p p.addrMain q.1 q.2] }) (by simp)
        (by simp [delayMs, emit]) (fun q hq => hf q (by simp [hq]))
      refine ⟨tr, ?_, by rw [h2]; simp [delayMs, emit, pollEvents, swResetPollMs]⟩
      simp only [bind_ok, Bool.false_eq_true, if_false, List.length_cons, Nat.succ_ne_zero]
      rw [← List.length_cons (a := q2), h1]
      rfl

/-- Fewer than `n` failed polls and one that the transport fails (41_control_sequences.md R121). -/
theorem pollLoop_transport (fails : List (Byte × RegValue)) (n : Nat) (s : State) (X : List XferAnswer)
    (hn : fails.length < n) (hx : s.xferIn = fails.map answerOf ++ .transportError :: X) (hf : ∀ q ∈ fails, PollFails p q) :
    pollLoop p n s = .raised .transport
      { s with xferIn := X, trace := s.trace ++ pollEvents p fails ++ [.xfer (readFrame p p.addrMain) .transportError] } := by
  induction fails generalizing n s with
  | nil =>
    cases n with
    | zero => simp at hn
    | succ n =>
      rw [pollLoop, pollSwReset, readRegister_transport _ X s (by simpa using hx)]
      simp [pollEvents]
  | cons q fails ih =>
    cases n with
    | zero => simp at hn
    | succ n =>
      rw [pollLoop, pollSwReset_fails s q _ (by simpa using hx) (hf q (by simp))]
      have : n ≠ 0 := by rintro rfl; simp at hn
      simp only [bind_ok, this, if_false, Bool.false_eq_true]
      rw [ih n _ (by simpa using hn) (by simp) (fun q hq => hf q (by simp [hq]))]
      simp [delayMs, emit, pollEvents, swResetPollMs]

/-- A software reset that succeeds (41_control_sequences.md R121). -/
theorem resetSoftware_ok (q1 q2 q3 : Byte × RegValue) (fails : List (Byte × RegValue)) (X : List XferAnswer) (s : State)
    (hx : s.xferIn = resetAnswers q1 q2 fails q3 ++ X) (h : ResetSucceeds p q1 q2 fails q3) :
    resetSoftware p s = .ok () { s with xferIn := X, trace := s.trace ++ softResetEvents p q1 q2 fails q3 } := by
  obtain ⟨h1, h2, h4, hf, h3, h3'⟩ := h
  rw [resetSoftware, strobe_ok p.addrMain p.mainSwReset q1.1 q2.1 q1.2 q2.2 (fails.map answerOf ++ answerOf q3 :: X) s
    (by simpa [resetAnswers, answerOf] using hx) h1 h2, bind_ok,
    pollLoop_done fails swResetPolls _ q3.1 q3.2 X (by simp [swResetPolls]; omega) (by simp [delayNs, emit, answerOf])
      hf h3 h3', bind_ok]
  simp [delayMs, delayNs, emit, softResetEvents, strobeEvents, swResetWaitNs, swResetSettleMs]

/-- Register words that the chip takes without an error (41_control_sequences.md R130). -/
theorem writeWords_ok (ws : List Word32) (qs : List (Byte × RegValue)) (s : State) (X : List XferAnswer)
    (hl : qs.length = ws.length) (hx : s.xferIn = qs.map answerOf ++ X) (hq : ∀ q ∈ qs, isError p q.1 = false) :
    writeWords p ws s = .ok () { s with xferIn := X, trace := s.trace ++ wordEvents p ws qs } := by
  induction ws generalizing qs s with
  | nil =>
    cases qs with
    | nil => cases s; simp_all [writeWords, wordEvents]
    | cons => simp at hl
  | cons w ws ih =>
    cases qs with
    | nil => simp at hl
    | cons q qs =>
      rw [writeWords, writeRegister_ok _ _ q.1 q.2 (qs.map answerOf ++ X) s (by simpa [answerOf] using hx) (hq q (by simp)),
        bind_ok, ih qs _ (by simpa using hl) rfl (fun q h => hq q (by simp [h]))]
      simp [wordEvents, regwordAddr, regwordPayload]

/-- Register words of which one raises: the later ones are not sent (41_control_sequences.md R130). -/
theorem writeWords_raises (ws : List Word32) (qs : List (Byte × RegValue)) (w : Word32) (x : XferAnswer) (e : Error)
    (s : State) (X : List XferAnswer) (hw : ws[qs.length]? = some w) (hx : s.xferIn = qs.map answerOf ++ x :: X)
    (hq : ∀ q ∈ qs, Good p q) (he : Raises p x e) :
    writeWords p ws s = .raised e { s with xferIn := X, trace := s.trace ++ wordEvents p ws qs ++ [wordAnswered p w x] } := by
  induction qs generalizing ws s with
  | nil =>
    cases ws with
    | nil => simp at hw
    | cons w' ws =>
      cases hw
      rw [writeWords, writeRegister_raises _ _ x e X s (by simpa using hx) he]
      simp [wordEvents, wordAnswered, regwordAddr, regwordPayload]
  | cons q qs ih =>
    cases ws with
    | nil => simp at hw
    | cons w' ws =>
      rw [writeWords, writeRegister_ok _ _ q.1 q.2 (qs.map answerOf ++ x :: X) s (by simpa [answerOf] using hx) (hq q (by simp)),
        bind_ok, ih ws _ (by simpa using hw) rfl (fun q h => hq q (by simp [h]))]
      simp [wordEvents, regwordAddr, regwordPayload]

/-! ### Everything a host command's sequence can do -/

/-- Everything `INIT` can do (41_control_sequences.md R129): it ends in IDLE after a whole pulse and one exchange, or it changes
no state but the reset output. -/
theorem init_cases (v : Variant) (s : State) :
    ∃ l ri d xi es,
      (finish .init (initSeq p v s) = { s with
          rstLevel := l, rstIn := ri, xferIn := xi, draws := d, life := .idle, variant := some v, config := none,
          cmd := none, trace := s.trace ++ (resetPulse ++ es) ++ [.result .init (.ok .none)] } ∧
        l = .high ∧ ∀ e ∈ es, PortEvent p e) ∨
      (∃ r, finish .init (initSeq p v s) = { s with
          rstLevel := l, rstIn := ri, xferIn := xi, draws := d, cmd := none,
          trace := s.trace ++ es ++ [.result .init (.err r)] } ∧
        (∀ e ∈ es, e.isResult = false) ∧ (∀ tx rx, .xfer tx rx ∈ es → SingleFrame p tx) ∧
        ((∀ e ∈ es, e.isXfer = false) ∨ ∃ es', es = resetPulse ++ es')) := by
  unfold initSeq
  obtain ⟨l, ri, d, es, ⟨h, rfl, rfl⟩ | ⟨h, he⟩⟩ := resetHardware_cases s
  · rw [h, bind_ok]
    obtain ⟨es2, ⟨xi, d2, hp⟩, hq⟩ :=
      chipIdSeq_quiet (p := p) { s with rstLevel := .high, rstIn := ri, draws := d, trace := s.trace ++ resetPulse }
    have hr : ∀ e ∈ resetPulse ++ es2, e.isResult = false := by
      intro e he
      rcases List.mem_append.mp he with he | he
      · exact (by decide : ∀ e ∈ resetPulse, e.isResult = false) e he
      · exact (hq e he).not_result
    have hx : ∀ tx rx, .xfer tx rx ∈ resetPulse ++ es2 → SingleFrame p tx := by
      intro tx rx he
      rcases List.mem_append.mp he with he | he
      · simp [resetPulse] at he
      · exact (hq _ he).single
    cases hc : chipIdSeq p { s with rstLevel := .high, rstIn := ri, draws := d, trace := s.trace ++ resetPulse } with
    | ok id s2 =>
      rw [hc, state_ok] at hp
      subst hp
      rw [bind_ok]
      split
      · exact ⟨.high, ri, d2, xi, es2, .inl ⟨by simp [finish, returnValue, emit], rfl, hq⟩⟩
      · exact ⟨.high, ri, d2, xi, resetPulse ++ es2,
          .inr ⟨.variantMismatch id.digitalId id.rfId, by simp [finish, raiseError, emit], hr, hx, .inr ⟨_, rfl⟩⟩⟩
    | raised e s2 =>
      rw [hc, state_raised] at hp
      subst hp
      exact ⟨.high, ri, d2, xi, resetPulse ++ es2, .inr ⟨e, by simp [finish, raiseError, emit], hr, hx, .inr ⟨_, rfl⟩⟩⟩
  · rw [h]
    exact ⟨l, ri, d, s.xferIn, es, .inr ⟨.pin, by simp [finish, raiseError, emit], fun e h => (he e h).2,
      fun tx rx h => by simpa [Event.isXfer] using (he _ h).1, .inl fun e h => (he e h).1⟩⟩

/-- Everything `CONFIGURE` can do (41_control_sequences.md R130): it ends ARMED with the configuration, or IDLE with none. -/
theorem configure_cases (v : Variant) (cfg : Configuration) (s : State) :
    ∃ xi d es,
      (finish .configure (configureSeq p v cfg s) = { s with
          xferIn := xi, draws := d, cmd := none, life := .armed, config := some cfg,
          trace := s.trace ++ es ++ [.result .configure (.ok .none)] } ∧
        fifoLimitValid p v (fifoLimit cfg) = true ∧ ∀ e ∈ es, PortEvent p e) ∨
      (∃ r, finish .configure (configureSeq p v cfg s) = { s with
          xferIn := xi, draws := d, cmd := none, life := .idle, config := none,
          trace := s.trace ++ es ++ [.result .configure (.err r)] } ∧ ∀ e ∈ es, PortEvent p e) := by
  unfold configureSeq
  simp only
  split
  · rename_i hval
    have hq : Quiet p { s with config := none, life := .idle }
        ((resetSoftware p { s with config := none, life := .idle }).bind fun _ s1 =>
          (writeWords p cfg.words s1).bind fun _ s2 => applyFifoLimit p (fifoLimit cfg) s2) :=
      (resetSoftware_quiet _).bind fun _ s1 _ => (writeWords_quiet _ s1).bind fun _ s2 _ => applyFifoLimit_quiet _ s2
    have assoc : ((resetSoftware p { s with config := none, life := .idle }).bind fun _ s1 =>
          (writeWords p cfg.words s1).bind fun _ s2 => (applyFifoLimit p (fifoLimit cfg) s2).bind fun _ s3 =>
            .ok Value.none { s3 with config := some cfg, life := .armed }) =
        ((resetSoftware p { s with config := none, life := .idle }).bind fun _ s1 =>
          (writeWords p cfg.words s1).bind fun _ s2 => applyFifoLimit p (fifoLimit cfg) s2).bind fun _ s3 =>
            .ok Value.none { s3 with config := some cfg, life := .armed } := by
      cases resetSoftware p { s with config := none, life := .idle } with
      | raised => rfl
      | ok a s1 => simp only [bind_ok]; cases writeWords p cfg.words s1 <;> rfl
    rw [assoc]
    obtain ⟨es, ⟨xi, d, hp⟩, he⟩ := hq
    generalize ((resetSoftware p { s with config := none, life := .idle }).bind fun _ s1 =>
      (writeWords p cfg.words s1).bind fun _ s2 => applyFifoLimit p (fifoLimit cfg) s2) = r at hp ⊢
    cases r with
    | ok a s' =>
      rw [state_ok] at hp
      subst hp
      exact ⟨xi, d, es, .inl ⟨by simp [finish, returnValue, emit], hval, he⟩⟩
    | raised e s' =>
      rw [state_raised] at hp
      subst hp
      exact ⟨xi, d, es, .inr ⟨e, by simp [finish, raiseError, emit], he⟩⟩
  · exact ⟨s.xferIn, s.draws, [],
      .inr ⟨.invalidFifoLimit (fifoLimit cfg), by simp [finish, raiseError, emit], by simp⟩⟩

/-- A quiet sequence with a result that needs no further change of state: a command built on it changes only the ports. -/
theorem finish_quiet_cases (c : HostOp) (s : State) (r : Res Value) (h : Quiet p s r) :
    ∃ xi d es q, finish c r = { s with
        xferIn := xi, draws := d, cmd := none, trace := s.trace ++ es ++ [.result c q] } ∧
      (∀ e ∈ es, PortEvent p e) := by
  obtain ⟨es, ⟨xi, d, hp⟩, he⟩ := h
  cases r with
  | ok v s' =>
    rw [state_ok] at hp
    subst hp
    exact ⟨xi, d, es, .ok v, by simp [finish, returnValue, emit], he⟩
  | raised e s' =>
    rw [state_raised] at hp
    subst hp
    exact ⟨xi, d, es, .err e, by simp [finish, raiseError, emit], he⟩

/-- Everything `START` can do (41_control_sequences.md R132). -/
theorem start_cases (s : State) :
    ∃ xi d es q, finish .start (startSeq p s) = { s with
        xferIn := xi, draws := d, cmd := none, life := if CmdResult.isOk q then .running else s.life,
        trace := s.trace ++ es ++ [.result .start q] } ∧
      (∀ e ∈ es, PortEvent p e) ∧ (q.isOk = true → s.config ≠ none) := by
  unfold startSeq
  split
  · rename_i hc
    exact ⟨s.xferIn, s.draws, [], .err .noConfiguration, by simp [finish, raiseError, emit, CmdResult.isOk], by simp,
      by simp [CmdResult.isOk]⟩
  · rename_i hc
    obtain ⟨es, ⟨xi, d, hp⟩, he⟩ := strobe_quiet p.addrMain p.mainFrameStart s
    cases h : strobe p p.addrMain p.mainFrameStart s with
    | ok a s' =>
      rw [h, state_ok] at hp
      subst hp
      exact ⟨xi, d, es, .ok .none, by simp [finish, returnValue, emit, CmdResult.isOk], he, fun _ => hc⟩
    | raised e s' =>
      rw [h, state_raised] at hp
      subst hp
      exact ⟨xi, d, es, .err e, by simp [finish, raiseError, emit, CmdResult.isOk], he, by simp [CmdResult.isOk]⟩

/-- Everything `STOP` can do (41_control_sequences.md R133). -/
theorem stop_cases (s : State) :
    ∃ xi d es q,
      finish .stop ((resetFsm p s).bind fun _ s1 =>
          .ok .none (if s1.life = .running then { s1 with life := .armed } else s1)) = { s with
        xferIn := xi, draws := d, cmd := none,
        life := if CmdResult.isOk q = true ∧ s.life = .running then .armed else s.life,
        trace := s.trace ++ es ++ [.result .stop q] } ∧
      (∀ e ∈ es, PortEvent p e) := by
  obtain ⟨es, ⟨xi, d, hp⟩, he⟩ : Quiet p s (resetFsm p s) := strobe_quiet p.addrMain p.mainFsmReset s
  cases h : resetFsm p s with
  | ok a s' =>
    rw [h, state_ok] at hp
    subst hp
    refine ⟨xi, d, es, .ok .none, ?_, he⟩
    rw [bind_ok]
    by_cases hl : s.life = .running <;> simp [finish, returnValue, emit, CmdResult.isOk, hl]
  | raised e s' =>
    rw [h, state_raised] at hp
    subst hp
    exact ⟨xi, d, es, .err e, by simp [finish, raiseError, emit, CmdResult.isOk], he⟩

/-! ### The burst transfer and the acquisition -/

theorem cmdBytes_handOver (cmd : List Byte) (out : List Sample) (s : State) : cmdBytes (handOver cmd out s) = cmd := by
  simp [cmdBytes, handOver, readBytes_writeBytes]

/-- A burst transfer that the chip answers without an error (42_fifo_acquisition.md R162). -/
theorem burstTransfer_ok (s : State) (rx : List Byte) (X : List XferAnswer) (hx : s.xferIn = .bytes rx :: X)
    (hl : rx.length = s.cmdLen) (hg : isError p (responseStatus rx) = false) :
    burstTransfer p s = .ok (responseStatus rx, rx) { s with
      xferIn := X, cmdMem := s.cmdMem.writeBytes 0 rx, trace := s.trace ++ [.xfer (cmdBytes s) (.bytes rx)] } := by
  unfold burstTransfer
  rw [exchange_full (cmdBytes s) rx X s (by simp [cmdBytes, hl]) hx]
  simp [checkStatus_ok _ _ hg, writeCmd]

/-- A burst transfer whose status byte has an error bit (42_fifo_acquisition.md R162). -/
theorem burstTransfer_status (s : State) (rx : List Byte) (X : List XferAnswer) (hx : s.xferIn = .bytes rx :: X)
    (hl : rx.length = s.cmdLen) (hg : isError p (responseStatus rx) = true) :
    burstTransfer p s = .raised (.status (responseStatus rx)) { s with
      xferIn := X, cmdMem := s.cmdMem.writeBytes 0 rx, trace := s.trace ++ [.xfer (cmdBytes s) (.bytes rx)] } := by
  unfold burstTransfer
  rw [exchange_full (cmdBytes s) rx X s (by simp [cmdBytes, hl]) hx]
  simp [checkStatus_error _ _ hg, writeCmd]

/-- A burst transfer that the transport fails: the bytes after the burst word are free (93_implementation_defined.md U2). -/
theorem burstTransfer_transport (s : State) (X : List XferAnswer) (hx : s.xferIn = .transportError :: X) :
    burstTransfer p s = .raised .transport { s with
      xferIn := X, draws := s.draws + (s.cmdLen - 4),
      cmdMem := s.cmdMem.writeBytes 4 (freeBytes s.draws (s.cmdLen - 4)),
      trace := s.trace ++ [.xfer (cmdBytes s) .transportError] } := by
  unfold burstTransfer
  rw [exchange_fails (cmdBytes s) X s hx]
  simp [scrambleTail, writeCmd]

/-- The bytes that the host hands over stand in the command buffer, and nothing outside it (30_encoding.md R81). -/
theorem readBytes_handOver (cmd : List Byte) (out : List Sample) (s : State) :
    (handOver cmd out s).cmdMem.readBytes 0 cmd.length = cmd := readBytes_writeBytes _ 0 cmd

theorem read_handOver_outside (cmd : List Byte) (out : List Sample) (s : State) (a : Nat) (h : cmd.length ≤ a) :
    (handOver cmd out s).cmdMem.read a = Memory.blank := read_writeBytes_outside [] 0 cmd a (.inr (by omega))

/-- A content of the command buffer that is canonical, and inside a buffer that holds the burst word, if that of `s` is. -/
def MemoryKept (s : State) (mem : Memory) : Prop :=
  (s.cmdMem.wf → mem.wf) ∧
    (4 ≤ s.cmdLen → (∀ c ∈ s.cmdMem, c.1 < s.cmdLen) → ∀ c ∈ mem, c.1 < s.cmdLen)

/-- Everything the burst of an acquisition can do (42_fifo_acquisition.md R162 steps 2 to 5). -/
theorem acquireBurst_cases (v : Variant) (limit : Nat) (s : State) :
    ∃ xi d mem e q ob, finish .acquireFifo (acquireBurst p v limit s) = { s with
        xferIn := xi, draws := d, cmdMem := mem, outBuf := ob, cmd := none,
        trace := s.trace ++ [e] ++ [.result .acquireFifo q] } ∧
      (∃ tx a, e = .xfer tx a ∧ (4 ≤ s.cmdLen → tx = be32 (burstWord p v) ++ (cmdBytes s).drop 4)) ∧ MemoryKept s mem ∧
      (ob = s.outBuf ∨ (q = .ok .none ∧ ∃ p, ob = unpackFrame p limit)) := by
  unfold acquireBurst
  obtain ⟨a, xi, d, mem, hs, -, hm⟩ := burstTransfer_cases (writeCmd 0 (be32 (burstWord p v)) s)
  have keep : MemoryKept s mem := by
    refine ⟨fun hw => ?_, fun h4 hb => ?_⟩
    · rcases hm with ⟨d', rfl⟩ | ⟨rx, -, rfl⟩ <;> exact writeBytes_wf _ _ _ (writeBytes_wf _ _ _ hw)
    · have h0 : ∀ c ∈ s.cmdMem.writeBytes 0 (be32 (burstWord p v)), c.1 < s.cmdLen :=
        writeBytes_bound _ _ _ _ hb (by simpa using h4)
      rcases hm with ⟨d', rfl⟩ | ⟨rx, hl, rfl⟩
      · exact writeBytes_bound _ _ _ _ h0 (by simp [writeCmd]; omega)
      · exact writeBytes_bound _ _ _ _ h0 (by simp [hl, writeCmd])
  have sent : 4 ≤ s.cmdLen →
      cmdBytes (writeCmd 0 (be32 (burstWord p v)) s) = be32 (burstWord p v) ++ (cmdBytes s).drop 4 := fun h4 =>
    readBytes_writePrefix s.cmdMem (be32 (burstWord p v)) s.cmdLen h4
  cases h : burstTransfer p (writeCmd 0 (be32 (burstWord p v)) s) with
  | ok r s' =>
    rw [h, state_ok] at hs
    subst hs
    exact ⟨xi, d, mem, .xfer (cmdBytes (writeCmd 0 (be32 (burstWord p v)) s)) a, .ok .none,
      unpackFrame (r.2.drop 4) limit,
      by simp [finish, returnValue, emit, writeCmd], ⟨_, a, rfl, sent⟩, keep, .inr ⟨rfl, _, rfl⟩⟩
  | raised e s' =>
    rw [h, state_raised] at hs
    subst hs
    exact ⟨xi, d, mem, .xfer (cmdBytes (writeCmd 0 (be32 (burstWord p v)) s)) a, .err e, s.outBuf,
      by simp [finish, raiseError, emit, writeCmd], ⟨_, a, rfl, sent⟩, keep, .inl rfl⟩

/-- Everything `ACQUIRE_FIFO` can do from its wait on (42_fifo_acquisition.md R162, 60_exceptions.md R236): it goes on waiting, or
it ends, and `OUT` is written only with the samples of a success. -/
theorem acquireFromWait_cases (v : Variant) (limit : Nat) (last : Option Level) (s : State) :
    (∃ last', acquireFromWait p v limit last s = { s with irqIn := [], cmd := some (.acquireWait v limit last') }) ∨
    (∃ rest xi d mem es q ob, acquireFromWait p v limit last s = { s with
        irqIn := rest, xferIn := xi, draws := d, cmdMem := mem, outBuf := ob, cmd := none,
        trace := s.trace ++ es ++ [.result .acquireFifo q] } ∧
      (∀ e ∈ es, e.isResult = false) ∧
      (4 ≤ s.cmdLen → ∀ tx a, .xfer tx a ∈ es → tx = be32 (burstWord p v) ++ (cmdBytes s).drop 4) ∧ MemoryKept s mem ∧
      (ob = s.outBuf ∨ (q = .ok .none ∧ ∃ p, ob = unpackFrame p limit))) := by
  unfold acquireFromWait
  split
  · rename_i l _
    exact .inl ⟨l, rfl⟩
  · rename_i rest _
    exact .inr ⟨rest, s.xferIn, s.draws, s.cmdMem, [.irqRise .pinError], .err .pin, s.outBuf,
      by simp [raiseError, emit], by simp [Event.isResult], by simp, ⟨id, fun _ h => h⟩, .inl rfl⟩
  · rename_i rest _
    obtain ⟨xi, d, mem, e, q, ob, h, ⟨tx, a, rfl, htx⟩, hk, ho⟩ :=
      acquireBurst_cases v limit (emit (.irqRise .ok) { s with irqIn := rest })
    refine .inr ⟨rest, xi, d, mem, [.irqRise .ok, .xfer tx a], q, ob, by rw [h]; simp [emit], by simp [Event.isResult], ?_,
      hk, ho⟩
    intro h4 tx' a' h'
    obtain ⟨rfl, -⟩ : tx' = tx ∧ a' = a := by simpa using h'
    exact htx h4

end Sys2Proof.Machine
end

