-- ==== Sys2Proof/Laws/Exec.lean ====
section
/-! SUPPORT. Everything an instruction that answers a next state can have done, said once. -/

namespace Sys2Proof.Machine

open Sys2Proof.Config

variable {p : Params}

/-- `Ran p s i t`: with parameters `p`, from `s`, the instruction `i` answers the next state `t`. One constructor per way of ending. -/
inductive Ran (p : Params) (s : State) : Instr → State → Prop
  /-- `INIT` succeeds (41_control_sequences.md R129). -/
  | initOk (v : Variant) (l : Level) (ri : List PinAnswer) (d : Nat) (xi : List XferAnswer) (es : List Event)
      (life : s.life = .uninit) (port : ∀ e ∈ es, PortEvent p e) :
      Ran p s (.init v) { s with
        rstLevel := l, rstIn := ri, xferIn := xi, draws := d, life := .idle, variant := some v, config := none, cmd := none,
        trace := s.trace ++ (resetPulse ++ es) ++ [.result .init (.ok .none)] }
  /-- `INIT` raises an error: only the reset output and the ports have changed. -/
  | initError (v : Variant) (l : Level) (ri : List PinAnswer) (d : Nat) (xi : List XferAnswer) (es : List Event) (r : Error)
      (life : s.life = .uninit) (quiet : ∀ e ∈ es, e.isResult = false)
      (frames : ∀ tx rx, .xfer tx rx ∈ es → SingleFrame p tx)
      (pulsed : (∀ e ∈ es, e.isXfer = false) ∨ ∃ es', es = resetPulse ++ es') :
      Ran p s (.init v) { s with
        rstLevel := l, rstIn := ri, xferIn := xi, draws := d, cmd := none,
        trace := s.trace ++ es ++ [.result .init (.err r)] }
  /-- `CONFIGURE` succeeds (41_control_sequences.md R130). -/
  | configureOk (cfg : Configuration) (v : Variant) (xi : List XferAnswer) (d : Nat) (es : List Event)
      (life : s.life ≠ .uninit) (variant : s.variant = some v) (formed : configurationFormed p cfg = true)
      (valid : fifoLimitValid p v (fifoLimit cfg) = true) (port : ∀ e ∈ es, PortEvent p e) :
      Ran p s (.configure cfg) { s with
        xferIn := xi, draws := d, cmd := none, life := .armed, config := some cfg,
        trace := s.trace ++ es ++ [.result .configure (.ok .none)] }
  /-- `CONFIGURE` raises an error. -/
  | configureError (cfg : Configuration) (xi : List XferAnswer) (d : Nat) (es : List Event) (r : Error)
      (life : s.life ≠ .uninit) (port : ∀ e ∈ es, PortEvent p e) :
      Ran p s (.configure cfg) { s with
        xferIn := xi, draws := d, cmd := none, life := .idle, config := none,
        trace := s.trace ++ es ++ [.result .configure (.err r)] }
  /-- `START` ends (41_control_sequences.md R132). -/
  | start (xi : List XferAnswer) (d : Nat) (es : List Event) (q : CmdResult) (life : s.life ≠ .uninit)
      (port : ∀ e ∈ es, PortEvent p e) (config : q.isOk = true → s.config ≠ none) :
      Ran p s .start { s with
        xferIn := xi, draws := d, cmd := none, life := if q.isOk = true then .running else s.life,
        trace := s.trace ++ es ++ [.result .start q] }
  /-- `STOP` ends (41_control_sequences.md R133). -/
  | stop (xi : List XferAnswer) (d : Nat) (es : List Event) (q : CmdResult) (life : s.life ≠ .uninit)
      (port : ∀ e ∈ es, PortEvent p e) :
      Ran p s .stop { s with
        xferIn := xi, draws := d, cmd := none,
        life := if q.isOk = true ∧ s.life = .running then .armed else s.life,
        trace := s.trace ++ es ++ [.result .stop q] }
  /-- `ENABLE_TEST_MODE`, `READ_CHIP_ID`, `RESET_FIFO` or `NEXT_TEST_WORD` ends: only the ports have changed. -/
  | ported (i : Instr) (c : HostOp) (xi : List XferAnswer) (d : Nat) (es : List Event) (q : CmdResult)
      (host : i.hostOp = some c)
      (which : ((c = .enableTestMode ∨ c = .readChipId ∨ c = .resetFifo) ∧ s.life ≠ .uninit) ∨
        (c = .nextTestWord ∧ es = []))
      (port : ∀ e ∈ es, PortEvent p e) :
      Ran p s i { s with xferIn := xi, draws := d, cmd := none, trace := s.trace ++ es ++ [.result c q] }
  /-- `ACQUIRE_FIFO` goes on waiting (42_fifo_acquisition.md R162, 60_exceptions.md R236). -/
  | acquireWaits (cmd : List Byte) (out : List Sample) (v : Variant) (cfg : Configuration) (last : Option Level)
      (life : s.life ≠ .uninit) (config : s.config = some cfg) (variant : s.variant = some v)
      (cmdLen : cmd.length = 4 + payloadBytes (fifoLimit cfg)) (outLen : out.length = fifoLimit cfg) :
      Ran p s (.acquireFifo cmd out) { handOver cmd out s with
        irqIn := [], cmd := some (.acquireWait v (fifoLimit cfg) last) }
  /-- `ACQUIRE_FIFO` ends (42_fifo_acquisition.md R162). -/
  | acquireEnds (cmd : List Byte) (out : List Sample) (rest : List IrqObs) (xi : List XferAnswer) (d : Nat) (mem : Memory)
      (es : List Event) (q : CmdResult) (ob : List Sample) (life : s.life ≠ .uninit)
      (quiet : ∀ e ∈ es, e.isResult = false) (kept : MemoryKept (handOver cmd out s) mem)
      (inside : 4 ≤ cmd.length ∨ mem = (handOver cmd out s).cmdMem) (outLen : ob.length = out.length)
      (written : q = .ok .none ∨ ob = out)
      (sent : ∀ tx a, .xfer tx a ∈ es → ∃ v cfg, s.variant = some v ∧ s.config = some cfg ∧
        cmd.length = 4 + payloadBytes (fifoLimit cfg) ∧ tx = be32 (burstWord p v) ++ cmd.drop 4) :
      Ran p s (.acquireFifo cmd out) { handOver cmd out s with
        irqIn := rest, xferIn := xi, draws := d, cmdMem := mem, outBuf := ob, cmd := none,
        trace := s.trace ++ es ++ [.result .acquireFifo q] }
  /-- A single-register transfer by itself (40_framer.md R101, R102). -/
  | transfer (i : Instr) (xi : List XferAnswer) (d : Nat) (es : List Event) (f : Option FramerReturn) (wire : i.hostOp = none)
      (life : s.life ≠ .uninit) (port : ∀ e ∈ es, PortEvent p e) :
      Ran p s i { s with xferIn := xi, draws := d, framer := f, trace := s.trace ++ es }
  /-- A burst transfer by itself (30_encoding.md R77), or its checks fail and nothing is sent. -/
  | burst (v : Variant) (w : BurstFields) (tail : List Byte) (xi : List XferAnswer) (d : Nat) (mem : Memory) (es : List Event)
      (f : Option FramerReturn) (wf : mem.wf) (bound : ∀ c ∈ mem, c.1 < 4 + tail.length) (life : s.life ≠ .uninit)
      (variant : s.variant = some v) (word : w = burstFields p v)
      (sent : es = [] ∨ ∃ a cfg, s.config = some cfg ∧ tail.length = payloadBytes (fifoLimit cfg) ∧
        es = [.xfer (be32 (burstWord p v) ++ tail) a]) :
      Ran p s (.spiBurstRead w tail) { s with
        cmdLen := 4 + tail.length, cmdMem := mem, xferIn := xi, draws := d, framer := f, trace := s.trace ++ es }

theorem ran_of_quiet (s : State) (i : Instr) (c : HostOp) (r : Res Value) (h : Quiet p s r) (hi : i.hostOp = some c)
    (hg : (c = .enableTestMode ∨ c = .readChipId ∨ c = .resetFifo) ∧ s.life ≠ .uninit) : Ran p s i (finish c r) := by
  obtain ⟨xi, d, es, q, he, hp⟩ := finish_quiet_cases c s r h
  rw [he]
  exact .ported i c xi d es q hi (.inl hg) hp

theorem ran_of_transfer (s : State) (i : Instr) (r : Res FramerReturn) (h : Quiet p s r) (hi : i.hostOp = none)
    (hl : s.life ≠ .uninit) : Ran p s i (finishTransfer r) := by
  obtain ⟨es, ⟨xi, d, hp⟩, he⟩ := h
  cases r with
  | ok v s' => rw [state_ok] at hp; subst hp; exact .transfer i xi d es _ hi hl he
  | raised e s' => rw [state_raised] at hp; subst hp; exact .transfer i xi d es _ hi hl he

theorem ran_burst (s : State) (v : Variant) (tail : List Byte) (hl : s.life ≠ .uninit) (hv : s.variant = some v) :
    Ran p s (.spiBurstRead (burstFields p v) tail) (finishTransfer
      ((burstChecked p (handOver (be32 (burstWord p v) ++ tail) s.outBuf s)).bind fun r s1 => .ok (.status r.1) s1)) := by
  have hlen : (handOver (be32 (burstWord p v) ++ tail) s.outBuf s).cmdLen = 4 + tail.length := by simp
  have h0wf : (handOver (be32 (burstWord p v) ++ tail) s.outBuf s).cmdMem.wf := writeBytes_wf _ _ _ nil_wf
  have h0 : ∀ c ∈ (handOver (be32 (burstWord p v) ++ tail) s.outBuf s).cmdMem, c.1 < 4 + tail.length :=
    writeBytes_bound _ _ _ _ (by simp) (by simp)
  have stops := fun e => Ran.burst v (burstFields p v) tail s.xferIn s.draws
    (handOver (be32 (burstWord p v) ++ tail) s.outBuf s).cmdMem [] (some (.failed e)) h0wf h0 hl hv rfl (.inl rfl)
  unfold burstChecked
  split
  · simpa [finishTransfer, handOver] using stops .noConfiguration
  · rename_i cfg hcf
    split
    · simpa [finishTransfer, handOver] using
        stops (.bufferSizeMismatch .cmdBuf (4 + payloadBytes (fifoLimit cfg)) (4 + tail.length))
    · rename_i hfit
      have hfit : tail.length = payloadBytes (fifoLimit cfg) := by
        rw [hlen] at hfit
        omega
      obtain ⟨a, xi, d, mem, hs, -, hm⟩ := burstTransfer_cases (p := p) (handOver (be32 (burstWord p v) ++ tail) s.outBuf s)
      have hwf : mem.wf := by
        rcases hm with ⟨d', rfl⟩ | ⟨rx, -, rfl⟩ <;> exact writeBytes_wf _ _ _ h0wf
      have hb : ∀ c ∈ mem, c.1 < 4 + tail.length := by
        rcases hm with ⟨d', rfl⟩ | ⟨rx, hl, rfl⟩
        · exact writeBytes_bound _ _ _ _ h0 (by simp)
        · exact writeBytes_bound _ _ _ _ h0 (by simp [hl])
      have ran := fun f => Ran.burst v (burstFields p v) tail xi d mem _ f hwf hb hl hv rfl
        (.inr ⟨a, cfg, hcf, hfit, rfl⟩)
      rw [cmdBytes_handOver] at hs
      cases hr : burstTransfer p (handOver (be32 (burstWord p v) ++ tail) s.outBuf s) with
      | ok r s' =>
        rw [hr, state_ok, hlen] at hs
        subst hs
        exact ran (some (.status r.1))
      | raised e s' =>
        rw [hr, state_raised, hlen] at hs
        subst hs
        exact ran (some (.failed e))

theorem ran_acquire (s : State) (cmd : List Byte) (out : List Sample) (v : Variant) (cfg : Configuration)
    (hl : s.life ≠ .uninit) (hc : s.config = some cfg) (hv : s.variant = some v) :
    Ran p s (.acquireFifo cmd out) (acquireChecked p v cfg (handOver cmd out s)) := by
  have stops := fun e => Ran.acquireEnds (p := p) (s := s) cmd out s.irqIn s.xferIn s.draws (handOver cmd out s).cmdMem [] (.err e) out
    hl (by simp) ⟨id, fun _ h => h⟩ (.inr rfl) rfl (.inr rfl) (by simp)
  unfold acquireChecked
  split
  · simpa [raiseError, emit, handOver] using
      stops (.bufferSizeMismatch .cmdBuf (4 + payloadBytes (fifoLimit cfg)) cmd.length)
  · rename_i h1
    split
    · simpa [raiseError, emit, handOver] using stops (.bufferSizeMismatch .outBuf (fifoLimit cfg) out.length)
    · rename_i h2
      have h1 : cmd.length = 4 + payloadBytes (fifoLimit cfg) := by simpa [handOver] using h1
      have h2 : out.length = fifoLimit cfg := by simpa [handOver] using h2
      rcases acquireFromWait_cases v (fifoLimit cfg) none (handOver cmd out s) with
        ⟨l, h⟩ | ⟨rest, xi, d, mem, es, q, ob, h, he, htx, hk, ho⟩ <;> rw [h]
      · exact .acquireWaits cmd out v cfg l hl hc hv h1 h2
      · refine Ran.acquireEnds cmd out rest xi d mem es q ob hl he hk (.inl (by omega)) ?_ ?_ fun tx a h =>
          ⟨v, cfg, hv, hc, h1, by simpa [cmdBytes_handOver] using htx (by simp [h1]) tx a h⟩
        · rcases ho with rfl | ⟨_, p, rfl⟩
          · rfl
          · simp [unpackFrame, h2]
        · rcases ho with rfl | ⟨rfl, _⟩
          · exact .inr rfl
          · exact .inl rfl

/-- Everything an instruction can do when it answers a next state, at any values of the parameters. -/
theorem execWith_ran {i : Instr} {s t : State} (h : execWith p i s = .next t) : s.cmd = none ∧ Ran p s i t := by
  cases i with
  | init v =>
    obtain ⟨hc, hg, h⟩ := accept_next h
    cases h
    refine ⟨hc, ?_⟩
    obtain ⟨l, ri, d, xi, es, ⟨h, _, hp⟩ | ⟨r, h, h1, hx, h2⟩⟩ := init_cases (p := p) v s <;> rw [h]
    · exact .initOk v l ri d xi es (by simpa using hg) hp
    · exact .initError v l ri d xi es r (by simpa using hg) h1 hx h2
  | configure cfg =>
    obtain ⟨hc, hg, h⟩ := accept_next h
    refine ⟨hc, ?_⟩
    split at h
    · rename_i hw
      split at h
      · cases h
      · rename_i v hv
        cases h
        have hl := (constructed_iff s).mp hg
        obtain ⟨xi, d, es, ⟨h, h1, h2⟩ | ⟨r, h, h1⟩⟩ := configure_cases (p := p) v cfg s <;> rw [h]
        · exact .configureOk cfg v xi d es hl hv hw h1 h2
        · exact .configureError cfg xi d es r hl h1
    · cases h
  | enableTestMode =>
    obtain ⟨hc, hg, h⟩ := accept_next h
    cases h
    exact ⟨hc, ran_of_quiet s _ _ _ ((strobe_quiet _ _ _).bind fun _ _ _ => Quiet.pure _ _) rfl
      ⟨.inl rfl, (constructed_iff s).mp hg⟩⟩
  | start =>
    obtain ⟨hc, hg, h⟩ := accept_next h
    cases h
    obtain ⟨xi, d, es, q, h, h1, h2⟩ := start_cases (p := p) s
    rw [h]
    exact ⟨hc, .start xi d es q ((constructed_iff s).mp hg) h1 h2⟩
  | stop =>
    obtain ⟨hc, hg, h⟩ := accept_next h
    cases h
    obtain ⟨xi, d, es, q, h, h1⟩ := stop_cases (p := p) s
    rw [h]
    exact ⟨hc, .stop xi d es q ((constructed_iff s).mp hg) h1⟩
  | acquireFifo cmd out =>
    obtain ⟨hc, hg, h⟩ := accept_next h
    have hl := (constructed_iff s).mp hg
    refine ⟨hc, ?_⟩
    split at h
    · cases h
      have := Ran.acquireEnds (p := p) (s := s) cmd out s.irqIn s.xferIn s.draws (handOver cmd out s).cmdMem []
        (.err .noConfiguration) out hl (by simp) ⟨id, fun _ h => h⟩ (.inr rfl) rfl (.inr rfl) (by simp)
      simpa [raiseError, emit, handOver] using this
    · rename_i cfg hcf
      split at h
      · cases h
      · rename_i v hv
        cases h
        exact ran_acquire s cmd out v cfg hl hcf hv
  | readChipId =>
    obtain ⟨hc, hg, h⟩ := accept_next h
    cases h
    exact ⟨hc, ran_of_quiet s _ _ _ ((chipIdSeq_quiet _).bind fun _ _ _ => Quiet.pure _ _) rfl
      ⟨.inr (.inl rfl), (constructed_iff s).mp hg⟩⟩
  | nextTestWord w =>
    obtain ⟨hc, hg, h⟩ := accept_next h
    cases h
    have := Ran.ported (p := p) (s := s) (.nextTestWord w) .nextTestWord s.xferIn s.draws [] (.ok (.word (lfsrNext p w))) rfl
      (.inr ⟨rfl, rfl⟩) (by simp)
    exact ⟨hc, by simpa [finish, returnValue, emit] using this⟩
  | resetFifo =>
    obtain ⟨hc, hg, h⟩ := accept_next h
    cases h
    exact ⟨hc, ran_of_quiet s _ _ _ ((strobe_quiet _ _ _).bind fun _ _ _ => Quiet.pure _ _) rfl
      ⟨.inr (.inr rfl), (constructed_iff s).mp hg⟩⟩
  | spiRead a =>
    obtain ⟨hc, hg, h⟩ := accept_next h
    cases h
    exact ⟨hc, ran_of_transfer s _ _ ((readRegister_quiet _ _).bind fun _ _ _ => Quiet.pure _ _) rfl
      ((constructed_iff s).mp hg)⟩
  | spiWrite a v =>
    obtain ⟨hc, hg, h⟩ := accept_next h
    cases h
    exact ⟨hc, ran_of_transfer s _ _ ((writeRegister_quiet _ _ _).bind fun _ _ _ => Quiet.pure _ _) rfl
      ((constructed_iff s).mp hg)⟩
  | spiBurstRead w tail =>
    obtain ⟨hc, hg, h⟩ := accept_next h
    split at h
    · cases h
    · rename_i v hv
      split at h
      · rename_i hw
        subst hw
        cases h
        exact ⟨hc, ran_burst s v tail ((constructed_iff s).mp hg) hv⟩
      · cases h

/-! ### The machine at the spec values -/

/-- `exec` is the machine at the spec values of the parameters (log entry 25). -/
theorem exec_eq_execWith (i : Instr) (s : State) : exec i s = execWith params i s := by cases i <;> rfl

/-- `step` is `stepWith` at the spec values of the parameters (log entry 25). -/
theorem step_eq_stepWith (s : State) : step s = stepWith params s := by
  have : exec = execWith params := funext fun i => funext fun s => exec_eq_execWith i s
  rw [step, stepWith, this]

/-- Everything an instruction can do when it answers a next state. -/
theorem exec_ran {i : Instr} {s t : State} (h : exec i s = .next t) : s.cmd = none ∧ Ran params s i t :=
  execWith_ran (exec_eq_execWith i s ▸ h)

/-- Everything a step can do when it answers a next state: a waiting acquisition goes on, nothing is issued, or the request issued
first decodes and runs. -/
theorem stepWith_cases {s t : State} (h : stepWith p s = .next t) :
    (∃ v limit last, s.cmd = some (.acquireWait v limit last) ∧ t = acquireFromWait p v limit last s) ∨
    (s.cmd = none ∧ s.requests = [] ∧ t = s) ∨
    (∃ r rest i, s.cmd = none ∧ s.requests = r :: rest ∧ decodeRequest p r = .ok i ∧
      Ran p { s with requests := rest } i t) := by
  unfold stepWith stepBy at h
  split at h
  · rename_i f hf
    obtain ⟨v, limit, last⟩ := f
    cases h
    exact .inl ⟨v, limit, last, hf, rfl⟩
  · rename_i hc
    split at h
    · rename_i hr
      cases h
      exact .inr (.inl ⟨hc, hr, rfl⟩)
    · rename_i r rest hr
      split at h
      · cases h
      · rename_i i hd
        exact .inr (.inr ⟨r, rest, i, hc, hr, hd, (execWith_ran h).2⟩)

end Sys2Proof.Machine
end

