-- ==== Sys2Proof/Laws/Limits.lean ====
section
/-! SUPPORT. What a valid FIFO limit and a burst transfer are, said once. -/

namespace Sys2Proof.Machine

open Sys2Proof.Config

variable {p : Params}

/-- A valid FIFO limit is even under both rules (41_control_sequences.md R125). -/
theorem fifoLimitValid_even {v : Variant} {limit : Nat} (h : fifoLimitValid p v limit = true) :
    2 ≤ limit ∧ limit % 2 = 0 := by
  simp only [fifoLimitValid, Bool.and_eq_true, decide_eq_true_eq] at h
  obtain ⟨⟨h2, hr⟩, -⟩ := h
  refine ⟨h2, ?_⟩
  split at hr
  · have h0 : limit &&& (limit - 1) = 0 := by simpa using hr
    by_contra hodd
    have half : (limit &&& (limit - 1)) / 2 = limit / 2 := by
      rw [Nat.and_div_two, show (limit - 1) / 2 = limit / 2 by omega, Nat.and_self]
    omega
  · simpa using hr

/-- The payload of an even limit is three bytes for two samples (42_fifo_acquisition.md R161). -/
theorem payloadBytes_even {limit : Nat} (h : limit % 2 = 0) : payloadBytes limit = limit / 2 * 3 := by
  unfold payloadBytes
  omega

/-- The payloads of a variant are those of its valid FIFO limits (30_encoding.md R77). -/
theorem isPayload_iff {v : Variant} {n : Nat} :
    isPayload p v n = true ↔ ∃ limit, fifoLimitValid p v limit = true ∧ payloadBytes limit = n := by
  simp only [isPayload, Bool.and_eq_true, beq_iff_eq]
  constructor
  · rintro ⟨h3, hv⟩
    refine ⟨n / 3 * 2, hv, ?_⟩
    rw [payloadBytes_even (by omega)]
    omega
  · rintro ⟨limit, hv, rfl⟩
    obtain ⟨-, he⟩ := fifoLimitValid_even hv
    rw [payloadBytes_even he, Nat.mul_div_cancel _ (by omega), show limit / 2 * 2 = limit by omega]
    exact ⟨by omega, hv⟩

/-- A burst has at least one packed block after its word, so it is longer than a single-register frame (30_encoding.md R77). -/
theorem isPayload_pos {v : Variant} {n : Nat} (h : isPayload p v n = true) : 3 ≤ n := by
  obtain ⟨limit, hv, rfl⟩ := isPayload_iff.mp h
  obtain ⟨h2, he⟩ := fifoLimitValid_even hv
  rw [payloadBytes_even he]
  omega

/-- What a burst transfer is (30_encoding.md R76, R77). -/
theorem isBurstTransfer_iff {f : BurstFields} {n : Nat} :
    isBurstTransfer p f n = true ↔ ∃ v limit, f = burstFields p v ∧ fifoLimitValid p v limit = true ∧ payloadBytes limit = n := by
  simp only [isBurstTransfer, Bool.or_eq_true, Bool.and_eq_true, beq_iff_eq, isPayload_iff]
  constructor
  · rintro (⟨hf, limit, h⟩ | ⟨hf, limit, h⟩)
    exacts [⟨_, limit, hf, h⟩, ⟨_, limit, hf, h⟩]
  · rintro ⟨v, limit, hf, h⟩
    cases v
    exacts [.inl ⟨hf, limit, h⟩, .inr ⟨hf, limit, h⟩]

theorem isFifoBurst_of_isBurstTransfer {f : BurstFields} {n : Nat} (h : isBurstTransfer p f n = true) :
    isFifoBurst p f = true := by
  obtain ⟨v, limit, rfl, -⟩ := isBurstTransfer_iff.mp h
  cases v <;> simp [isFifoBurst]

/-- The operand form of a configuration, field by field (30_encoding.md R81). -/
theorem configurationFormed_iff {c : Configuration} :
    configurationFormed p c = true ↔ c.words.length = 38 ∧ c.rxAntennas < 2 ^ p.cfgCountBits ∧
      c.chirpsPerFrame < 2 ^ p.cfgCountBits ∧ c.samplesPerChirp < 2 ^ p.cfgCountBits := by
  simp [configurationFormed, nRegwords, and_assoc]

/-- The threshold of a valid limit does not wrap in its 13 bits (41_control_sequences.md R126). -/
theorem cref_setWidth {v : Variant} {limit : Nat} (h : fifoLimitValid p v limit = true) :
    (cref limit).setWidth 24 = BitVec.ofNat 24 (limit / 2 - 1) := by
  have : limit / 2 ≤ maxBlocks v := by
    simp only [fifoLimitValid, Bool.and_eq_true, decide_eq_true_eq] at h
    exact h.2
  have : limit / 2 - 1 < 2 ^ 13 := by cases v <;> simp [maxBlocks] at this <;> omega
  rw [cref]
  apply BitVec.eq_of_toNat_eq
  simp
  omega

/-- The burst word as a number (30_encoding.md R76). -/
theorem burstWord_toNat (v : Variant) :
    (burstWord p v).toNat =
      (p.burstTaddr v).toNat * 2 ^ 25 + p.burstDir.toNat * 2 ^ 24 + (p.addrFifo v).toNat * 2 ^ 17 := by
  simp only [burstWord, packBurst, burstFields]
  have h : ∀ {a b : Nat} (x : BitVec a) (y : BitVec b), (x ++ y).toNat = x.toNat * 2 ^ b + y.toNat := by
    intro a b x y
    rw [BitVec.toNat_append, ← Nat.shiftLeft_add_eq_or_of_lt y.isLt, Nat.shiftLeft_eq]
  simp only [h]
  simp
  omega

end Sys2Proof.Machine
end

