-- ==== Sys2Proof/Laws/PerInstr.lean ====
section
/-! SUPPORT. The per-instruction families: on which surface an instruction is issued. -/

namespace Sys2Proof.Laws

/-- A host command is issued on the command port, its request the command's code (30_encoding.md R80) and operand bytes; every
other instruction is a wire transfer of at least four bytes (R84). At any values of the parameters. -/
def EncodeSurface.Statement (i : Instr) : Prop :=
  ∀ p : Config.Params,
    match i.hostOp with
    | some c => ∃ operands, encode p i = .command (p.hostOp c :: operands)
    | none => ∃ b0 b1 b2 b3 tail, encode p i = .transfer (b0 :: b1 :: b2 :: b3 :: tail)

theorem EncodeSurface.init (v : Variant) : EncodeSurface.Statement (.init v) := fun _ => ⟨_, rfl⟩
theorem EncodeSurface.configure (cfg : Configuration) : EncodeSurface.Statement (.configure cfg) := fun _ => ⟨_, rfl⟩
theorem EncodeSurface.enableTestMode : EncodeSurface.Statement .enableTestMode := fun _ => ⟨_, rfl⟩
theorem EncodeSurface.start : EncodeSurface.Statement .start := fun _ => ⟨_, rfl⟩
theorem EncodeSurface.stop : EncodeSurface.Statement .stop := fun _ => ⟨_, rfl⟩
theorem EncodeSurface.acquireFifo (cmd : List Byte) (out : List Sample) :
    EncodeSurface.Statement (.acquireFifo cmd out) := fun _ => ⟨_, rfl⟩
theorem EncodeSurface.readChipId : EncodeSurface.Statement .readChipId := fun _ => ⟨_, rfl⟩
theorem EncodeSurface.nextTestWord (w : BitVec 16) : EncodeSurface.Statement (.nextTestWord w) := fun _ => ⟨_, rfl⟩
theorem EncodeSurface.resetFifo : EncodeSurface.Statement .resetFifo := fun _ => ⟨_, rfl⟩
theorem EncodeSurface.spiRead (addr : RegAddr) : EncodeSurface.Statement (.spiRead addr) := fun _ => ⟨_, _, _, _, _, rfl⟩
theorem EncodeSurface.spiWrite (addr : RegAddr) (value : RegValue) : EncodeSurface.Statement (.spiWrite addr value) :=
  fun _ => ⟨_, _, _, _, _, rfl⟩
theorem EncodeSurface.spiBurstRead (w : BurstFields) (tail : List Byte) :
    EncodeSurface.Statement (.spiBurstRead w tail) := fun _ => ⟨_, _, _, _, _, rfl⟩

end Sys2Proof.Laws
end

