-- ==== Sys2Proof/Tests/Slice0.lean ====
section
/-! SUPPORT. Tests: ill-formed terms, words written out from the spec's encodings, single steps with values from
95_test_vectors.md, and for every statement with hypotheses concrete values that meet them. -/

namespace Sys2Proof.Tests

open Sys2Proof Sys2Proof.Machine

/-! ### Helpers -/

/-- The synthetic register words of 95_test_vectors.md Part 3. -/
def words : List Word32 := (List.range 38).map fun k => BitVec.ofNat 32 ((8 + k) * 2 ^ 25 + 2 ^ 24 + k)

/-- `CFG(r, c, s)` of 95_test_vectors.md Part 3. -/
def cfg (r c s : Nat) : Configuration where
  rxAntennas := r
  txAntennas := [0xAA]
  txPower := []
  ifGain := []
  fLower := []
  fUpper := []
  chirpsPerFrame := c
  samplesPerChirp := s
  chirpRepTime := []
  frameRepTime := []
  sampleRate := []
  words := words

/-- A block in IDLE with the given answers of the chip. -/
def idle (X : List XferAnswer) : State := { State.reset with life := .idle, variant := some .tr13c, xferIn := X }

/-- A block in the given state with an active configuration of two samples a frame. -/
def active (l : Life) (X : List XferAnswer) : State := { idle X with life := l, config := some (cfg 1 1 2) }

/-- The state an outcome goes on in. -/
def nextOf (o : Host.Outcome State Fault Refusal) : Option State :=
  match o with
  | .next t => some t
  | _ => none

/-- The last two events of a trace. -/
def tailOf (t : State) : List Event := t.trace.drop (t.trace.length - 2)

/-! ### WellFormed refuses -/

theorem test_wf_cfg : (Instr.configure (cfg 1 1 2)).WellFormed params := by decide
theorem test_wf_burst : (Instr.spiBurstRead ⟨0x60, 0, 0x60, 0, 0, 0⟩ [1, 2, 3]).WellFormed params := by decide
theorem test_wf_refuses_37_words : ¬(Instr.configure { cfg 1 1 2 with words := List.replicate 37 0 }).WellFormed params := by decide
theorem test_wf_refuses_39_words : ¬(Instr.configure { cfg 1 1 2 with words := List.replicate 39 0 }).WellFormed params := by decide
theorem test_wf_refuses_wide_rxAntennas : ¬(Instr.configure (cfg (2 ^ 32) 1 2)).WellFormed params := by decide
theorem test_wf_refuses_wide_chirps : ¬(Instr.configure (cfg 1 (2 ^ 32) 2)).WellFormed params := by decide
theorem test_wf_refuses_wide_samples : ¬(Instr.configure (cfg 1 1 (2 ^ 32))).WellFormed params := by decide
theorem test_wf_refuses_other_burst : ¬(Instr.spiBurstRead ⟨0x60, 0, 0x60, 0, 1, 0⟩ [1, 2, 3]).WellFormed params := by decide
/-- R77: no payload, half of one, the payload of the invalid limit 6, and of one above the bound of UTR11AIP. -/
theorem test_wf_refuses_other_length :
    (∀ n ∈ [0, 2, 4, 9], ¬(Instr.spiBurstRead ⟨0x60, 0, 0x60, 0, 0, 0⟩ (List.replicate n 0)).WellFormed params) ∧
      isBurstTransfer params (burstFields params .tr13c) 12288 = true ∧
      isBurstTransfer params (burstFields params .utr11aip) 12288 = false := by decide
theorem fitsCount_long {n : Nat} (h : 2 ^ 32 ≤ n) : fitsCount n = false := by simpa [fitsCount] using h

theorem test_wf_refuses_long_cmd (bs : List Byte) (h : 2 ^ 32 ≤ bs.length) : ¬(Instr.acquireFifo bs []).WellFormed params := by
  simp [Instr.WellFormed, Instr.wellFormed, fitsCount_long h]
theorem test_wf_refuses_long_out (ss : List Sample) (h : 2 ^ 32 ≤ ss.length) : ¬(Instr.acquireFifo [] ss).WellFormed params := by
  simp [Instr.WellFormed, Instr.wellFormed, fitsCount_long h]
theorem test_wf_refuses_long_txAntennas (bs : List Byte) (h : 2 ^ 32 ≤ bs.length) :
    ¬(Instr.configure { cfg 1 1 2 with txAntennas := bs }).WellFormed params := by
  simp [Instr.WellFormed, Instr.wellFormed, Configuration.wellFormed, fitsCount_long h]
theorem test_wf_refuses_long_txPower (bs : List Byte) (h : 2 ^ 32 ≤ bs.length) :
    ¬(Instr.configure { cfg 1 1 2 with txPower := bs }).WellFormed params := by
  simp [Instr.WellFormed, Instr.wellFormed, Configuration.wellFormed, fitsCount_long h]
theorem test_wf_refuses_long_ifGain (bs : List Byte) (h : 2 ^ 32 ≤ bs.length) :
    ¬(Instr.configure { cfg 1 1 2 with ifGain := bs }).WellFormed params := by
  simp [Instr.WellFormed, Instr.wellFormed, Configuration.wellFormed, fitsCount_long h]
theorem test_wf_refuses_long_fLower (bs : List Byte) (h : 2 ^ 32 ≤ bs.length) :
    ¬(Instr.configure { cfg 1 1 2 with fLower := bs }).WellFormed params := by
  simp [Instr.WellFormed, Instr.wellFormed, Configuration.wellFormed, fitsCount_long h]
theorem test_wf_refuses_long_fUpper (bs : List Byte) (h : 2 ^ 32 ≤ bs.length) :
    ¬(Instr.configure { cfg 1 1 2 with fUpper := bs }).WellFormed params := by
  simp [Instr.WellFormed, Instr.wellFormed, Configuration.wellFormed, fitsCount_long h]
theorem test_wf_refuses_long_chirpRepTime (bs : List Byte) (h : 2 ^ 32 ≤ bs.length) :
    ¬(Instr.configure { cfg 1 1 2 with chirpRepTime := bs }).WellFormed params := by
  simp [Instr.WellFormed, Instr.wellFormed, Configuration.wellFormed, fitsCount_long h]
theorem test_wf_refuses_long_frameRepTime (bs : List Byte) (h : 2 ^ 32 ≤ bs.length) :
    ¬(Instr.configure { cfg 1 1 2 with frameRepTime := bs }).WellFormed params := by
  simp [Instr.WellFormed, Instr.wellFormed, Configuration.wellFormed, fitsCount_long h]
theorem test_wf_refuses_long_sampleRate (bs : List Byte) (h : 2 ^ 32 ≤ bs.length) :
    ¬(Instr.configure { cfg 1 1 2 with sampleRate := bs }).WellFormed params := by
  simp [Instr.WellFormed, Instr.wellFormed, Configuration.wellFormed, fitsCount_long h]

/-! ### Words written out from the encodings (30_encoding.md R70 to R80) decode to their instructions -/

theorem test_decode_init : decodeRequest params (.command [0x01, 0x01]) = .ok (.init .utr11aip) := by decide
theorem test_decode_configure :
    decodeRequest params (.command ([0x02, 0, 0, 0, 1, 0, 0, 0, 1, 0xAA, 0, 0, 0, 0, 0, 0, 0, 0, 0, 0, 0, 0, 0, 0, 0, 0,
      0, 0, 0, 16, 0, 0, 0, 128, 0, 0, 0, 0, 0, 0, 0, 0, 0, 0, 0, 0] ++ (List.replicate 38 [0x11, 0x00, 0x00, 0x02]).flatten)) =
      .ok (.configure { cfg 1 16 128 with words := List.replicate 38 0x11000002 }) := by decide
theorem test_decode_enableTestMode : decodeRequest params (.command [0x03]) = .ok .enableTestMode := by decide
theorem test_decode_start : decodeRequest params (.command [0x04]) = .ok .start := by decide
theorem test_decode_stop : decodeRequest params (.command [0x05]) = .ok .stop := by decide
theorem test_decode_acquireFifo :
    decodeRequest params (.command [0x06, 0, 0, 0, 3, 0x0A, 0xB0, 0xCD, 0, 0, 0, 2, 0x00, 0xAB, 0x0F, 0xFF]) =
      .ok (.acquireFifo [0x0A, 0xB0, 0xCD] [0x00AB, 0x0FFF]) := by decide
theorem test_decode_readChipId : decodeRequest params (.command [0x07]) = .ok .readChipId := by decide
theorem test_decode_nextTestWord : decodeRequest params (.command [0x08, 0x0A, 0x44]) = .ok (.nextTestWord 0x0A44) := by decide
theorem test_decode_resetFifo : decodeRequest params (.command [0x09]) = .ok .resetFifo := by decide
/-- V-F3: a read of 0x02. -/
theorem test_decode_spiRead : decodeRequest params (.transfer [0x04, 0x00, 0x00, 0x00]) = .ok (.spiRead 0x02) := by decide
/-- V-F3: a write of 0x0203FF to 0x06. -/
theorem test_decode_spiWrite : decodeRequest params (.transfer [0x0D, 0x02, 0x03, 0xFF]) = .ok (.spiWrite 0x06 0x0203FF) := by decide
/-- V-A1: the burst word of UTR11AIP. -/
theorem test_decode_spiBurstRead :
    decodeRequest params (.transfer [0xC8, 0xC8, 0x00, 0x00, 0x11, 0x22, 0x33]) =
      .ok (.spiBurstRead ⟨0x64, 0, 0x64, 0, 0, 0⟩ [0x11, 0x22, 0x33]) := by decide
/-- V-H1 and R82: reserved codes. -/
theorem test_decode_reserved : ∀ op ∈ [0x00, 0x0A, 0x0F, 0x10, 0x81, (0xFF : Byte)],
    decodeRequest params (.command [op]) = .error (.reservedCode op) := by decide
/-- R81: a wrong operand form. -/
theorem test_decode_operandForm :
    decodeRequest params (.command [0x01, 0x02]) = .error (.operandForm .init) ∧
      decodeRequest params (.command [0x04, 0x00]) = .error (.operandForm .start) ∧
      decodeRequest params (.command [0x08, 0x00]) = .error (.operandForm .nextTestWord) := by decide
/-- R77, R83, R84: what is no wire transfer of the block. -/
theorem test_decode_wire :
    decodeRequest params (.transfer [0x04, 0x00, 0x00]) = .error (.transferLength 3) ∧
      decodeRequest params (.transfer [0x0D, 0x02, 0x03, 0xFF, 0x00]) = .error (.burstWord 0x0D0203FF) ∧
      decodeRequest params (.transfer [0xC0, 0xC0, 0x00, 0x00]) = .error (.reservedFrameBits 0xC0C00000) ∧
      decodeRequest params (.transfer [0xC0, 0xC0, 0x00, 0x00, 1, 2]) = .error (.transferLength 6) ∧
      decodeRequest params (.transfer [0x04, 0x00, 0x00, 0x01]) = .error (.reservedFrameBits 0x04000001) := by decide

/-! ### Single steps -/

/-- P1: `INIT TR13C` with CHIP_ID [0x00, 0x00, 0x03, 0x00]. -/
theorem test_init_accepts :
    (nextOf (exec (.init .tr13c) { State.reset with rstIn := [.ok, .ok, .ok], xferIn := [.bytes [0x00, 0x00, 0x03, 0x00]] })).map
      (fun t => (t.life, t.variant, t.rstLevel, tailOf t)) =
      some (.idle, some .tr13c, .high,
        [.xfer [0x04, 0, 0, 0] (.bytes [0x00, 0x00, 0x03, 0x00]), .result .init (.ok .none)]) := by decide
/-- V-C5: `INIT TR13C` with CHIP_ID [0x00, 0x00, 0x07, 0x09]. -/
theorem test_init_mismatch :
    (nextOf (exec (.init .tr13c) { State.reset with rstIn := [.ok, .ok, .ok], xferIn := [.bytes [0x00, 0x00, 0x07, 0x09]] })).map
      (fun t => (t.life, t.variant, t.trace.getLast?)) =
      some (.uninit, none, some (.result .init (.err (.variantMismatch 0x0007 0x09)))) := by decide

/-- The chip's answers to the CONFIGURE of P3: all zero. -/
def zeros (n : Nat) : List XferAnswer := List.replicate n (.bytes [0, 0, 0, 0])

/-- P3: `CONFIGURE CFG(1, 1, 8)`, 43 exchanges, the last the write of CREF 3. -/
theorem test_configure_arms :
    (nextOf (exec (.configure (cfg 1 1 8)) (idle (zeros 43)))).map
      (fun t => (t.life, t.config, t.xferIn, tailOf t)) =
      some (.armed, some (cfg 1 1 8), [],
        [.xfer [0x0D, 0x00, 0x00, 0x03] (.bytes [0, 0, 0, 0]), .result .configure (.ok .none)]) := by decide
/-- V-C5: RUNNING, `CONFIGURE` with L = 1. -/
theorem test_configure_invalid :
    (nextOf (exec (.configure (cfg 1 1 1)) (active .running []))).map (fun t => (t.life, t.config, t.trace)) =
      some (.idle, none, [.result .configure (.err (.invalidFifoLimit 1))]) := by decide
/-- V-C5: `ENABLE_TEST_MODE` in IDLE writes 0x020000. -/
theorem test_enableTestMode :
    (nextOf (exec .enableTestMode (idle (zeros 2)))).map (fun t => (t.life, tailOf t)) =
      some (.idle, [.xfer [0x0D, 0x02, 0x00, 0x00] (.bytes [0, 0, 0, 0]), .result .enableTestMode (.ok .none)]) := by decide
/-- P3: CREF is kept. -/
theorem test_enableTestMode_keeps :
    (nextOf (exec .enableTestMode (idle [.bytes [0, 0, 0, 3], .bytes [0, 9, 9, 9]]))).map (fun t => tailOf t) =
      some [.xfer [0x0D, 0x02, 0x00, 0x03] (.bytes [0, 9, 9, 9]), .result .enableTestMode (.ok .none)] := by decide
/-- V-C5: RUNNING, `START`, MAIN reads 0x000001. -/
theorem test_start_again :
    (nextOf (exec .start (active .running [.bytes [0, 0, 0, 1], .bytes [0, 0, 0, 0]]))).map (fun t => (t.life, tailOf t)) =
      some (.running, [.xfer [0x01, 0x00, 0x00, 0x01] (.bytes [0, 0, 0, 0]), .result .start (.ok .none)]) := by decide
/-- V-C5: ARMED, `START`, the write answers 0x02. -/
theorem test_start_status :
    (nextOf (exec .start (active .armed [.bytes [0, 0, 0, 0], .bytes [2, 7, 7, 7]]))).map
      (fun t => (t.life, t.trace.getLast?)) = some (.armed, some (.result .start (.err (.status 0x02)))) := by decide
/-- P1: `STOP` writes 0x000005, RUNNING becomes ARMED. -/
theorem test_stop_running :
    (nextOf (exec .stop (active .running [.bytes [0, 0, 0, 1], .bytes [0, 0, 0, 0]]))).map (fun t => (t.life, tailOf t)) =
      some (.armed, [.xfer [0x01, 0x00, 0x00, 0x05] (.bytes [0, 0, 0, 0]), .result .stop (.ok .none)]) := by decide
/-- V-C5: IDLE, `STOP` writes 0x000004. -/
theorem test_stop_idle :
    (nextOf (exec .stop (idle (zeros 2)))).map (fun t => (t.life, tailOf t)) =
      some (.idle, [.xfer [0x01, 0x00, 0x00, 0x04] (.bytes [0, 0, 0, 0]), .result .stop (.ok .none)]) := by decide
/-- V-A2, last row: L = 2. -/
theorem test_acquire_frame :
    (nextOf (exec (.acquireFifo [1, 2, 3, 4, 5, 6, 7] [8, 9])
      { active .running [.bytes [0x00, 1, 1, 1, 0xFF, 0xF0, 0x00]] with irqIn := [.level .low, .level .high] })).map
      (fun t => (t.outBuf, cmdBytes t, t.trace)) =
      some ([0xFFF, 0x000], [0x00, 1, 1, 1, 0xFF, 0xF0, 0x00],
        [.irqRise .ok, .xfer [0xC0, 0xC0, 0, 0, 5, 6, 7] (.bytes [0x00, 1, 1, 1, 0xFF, 0xF0, 0x00]),
          .result .acquireFifo (.ok .none)]) := by decide
/-- V-A2: a status error leaves `OUT` and the response stands in `CMD`. -/
theorem test_acquire_status :
    (nextOf (exec (.acquireFifo [0, 0, 0, 0, 0, 0, 0] [8, 9])
      { active .running [.bytes [0x08, 1, 1, 1, 5, 6, 7]] with irqIn := [.level .high, .level .low, .level .high] })).map
      (fun t => (t.outBuf, cmdBytes t, t.trace.getLast?)) =
      some ([8, 9], [0x08, 1, 1, 1, 5, 6, 7], some (.result .acquireFifo (.err (.status 0x08)))) := by decide
/-- V-I2: 0x12345C. -/
theorem test_readChipId :
    (nextOf (exec .readChipId (idle [.bytes [0, 0x12, 0x34, 0x5C]]))).map (fun t => t.trace.getLast?) =
      some (some (.result .readChipId (.ok (.chipId 0x1234 0x5C)))) := by decide
/-- V-L2. -/
theorem test_nextTestWord :
    (nextOf (exec (.nextTestWord 0x0A44) State.reset)).map (fun t => (t.life, t.trace)) =
      some (.uninit, [.result .nextTestWord (.ok (.word 0x0D22))]) := by decide
/-- V-L2: a word above 0x0FFF. -/
theorem test_nextTestWord_wide : lfsrNext params 0x1001 = 0x0800 ∧ lfsrNext params 0xFFFF = 0x7FFF := by decide
/-- V-F4: MAIN reads 0x000001, 0x000009 is written. -/
theorem test_resetFifo :
    (nextOf (exec .resetFifo (idle [.bytes [0, 0, 0, 1], .bytes [0, 0, 0, 0]]))).map (fun t => tailOf t) =
      some [.xfer [0x01, 0x00, 0x00, 0x09] (.bytes [0, 0, 0, 0]), .result .resetFifo (.ok .none)] := by decide
/-- V-F3: `READ_REGISTER(0x06)`, the informational bit only. -/
theorem test_spiRead :
    (nextOf (exec (.spiRead 0x06) (idle [.bytes [0x04, 0x06, 0x1F, 0xFF]]))).map
      (fun t => (t.framer, t.trace)) =
      some (some (.value 0x061FFF 0x04), [.xfer [0x0C, 0, 0, 0] (.bytes [0x04, 0x06, 0x1F, 0xFF])]) := by decide
/-- V-F3: `READ_REGISTER(0x00)` answered with status 0x01. -/
theorem test_spiRead_status :
    (nextOf (exec (.spiRead 0x00) (idle [.bytes [0x01, 0x12, 0x34, 0x56]]))).map (fun t => t.framer) =
      some (some (.failed (.status 0x01))) := by decide
/-- V-F3: `WRITE_REGISTER(0x06, 0x0203FF)`. -/
theorem test_spiWrite :
    (nextOf (exec (.spiWrite 0x06 0x0203FF) (idle [.bytes [0x00, 7, 7, 7]]))).map
      (fun t => (t.framer, t.trace)) =
      some (some (.status 0x00), [.xfer [0x0D, 0x02, 0x03, 0xFF] (.bytes [0x00, 7, 7, 7])]) := by decide
/-- V-F3: the same, answered with status 0x08. -/
theorem test_spiWrite_status :
    (nextOf (exec (.spiWrite 0x06 0x0203FF) (idle [.bytes [0x08, 7, 7, 7]]))).map (fun t => t.framer) =
      some (some (.failed (.status 0x08))) := by decide
/-- R77: the response of a burst stands in `CMD`. -/
theorem test_spiBurstRead :
    (nextOf (exec (.spiBurstRead ⟨0x60, 0, 0x60, 0, 0, 0⟩ [7, 8, 9])
      (active .armed [.bytes [0x04, 1, 2, 3, 4, 5, 6]]))).map (fun t => (t.framer, cmdBytes t, t.trace)) =
      some (some (.status 0x04), [0x04, 1, 2, 3, 4, 5, 6],
        [.xfer [0xC0, 0xC0, 0, 0, 7, 8, 9] (.bytes [0x04, 1, 2, 3, 4, 5, 6])]) := by decide
/-- R77: with a byte too many nothing is sent. -/
theorem test_spiBurstRead_length :
    (nextOf (exec (.spiBurstRead ⟨0x60, 0, 0x60, 0, 0, 0⟩ [7, 8, 9, 0]) (active .armed []))).map (fun t => (t.framer, t.trace)) =
      some (some (.failed (.bufferSizeMismatch .cmdBuf 7 8)), []) := by decide
/-- V-C5: UNINIT, `START` is refused; R262: so is every wire row. -/
theorem test_start_refused : exec .start State.reset = .refused .lifecycleGuard := rfl
theorem test_wire_refused :
    exec (.spiRead 0x02) State.reset = .refused .lifecycleGuard ∧
      exec (.spiWrite 0x06 0) State.reset = .refused .lifecycleGuard ∧
      exec (.spiBurstRead ⟨0x60, 0, 0x60, 0, 0, 0⟩ [7, 8, 9]) State.reset = .refused .lifecycleGuard := ⟨rfl, rfl, rfl⟩

/-! ### Other parameter values (00_scope.md R6) -/

/-- V-C1 under `EVEN`: `CONFIGURE CFG(1, 1, 6)` arms with CREF 2, and is rejected under `POW2_EVEN`. -/
theorem test_configure_even :
    (nextOf (execWith paramsEvenLimit (.configure (cfg 1 1 6)) (idle (zeros 43)))).map (fun t => (t.life, tailOf t)) =
      some (.armed, [.xfer [0x0D, 0x00, 0x00, 0x02] (.bytes [0, 0, 0, 0]), .result .configure (.ok .none)]) ∧
    (nextOf (exec (.configure (cfg 1 1 6)) (idle (zeros 43)))).map (fun t => t.trace) =
      some [.result .configure (.err (.invalidFifoLimit 6))] := by decide
/-- V-A1: the burst word of the alternative of decision D9 is sent. -/
theorem test_acquire_alternative :
    (nextOf (execWith paramsBurstAlternative (.acquireFifo [1, 2, 3, 4, 5, 6, 7] [8, 9])
      { active .running [.bytes [0x00, 1, 1, 1, 0xFF, 0xF0, 0x00]] with irqIn := [.level .low, .level .high] })).map
      (fun t => t.trace) =
      some [.irqRise .ok, .xfer [0xFF, 0xC0, 0, 0, 5, 6, 7] (.bytes [0x00, 1, 1, 1, 0xFF, 0xF0, 0x00]),
          .result .acquireFifo (.ok .none)] := by decide
/-- The same word decodes as a burst at those values only. -/
theorem test_decode_alternative :
    decodeRequest paramsBurstAlternative (.transfer [0xFF, 0xC0, 0, 0, 5, 6, 7]) =
      .ok (.spiBurstRead ⟨0x7F, 1, 0x60, 0, 0, 0⟩ [5, 6, 7]) ∧
    decodeRequest params (.transfer [0xFF, 0xC0, 0, 0, 5, 6, 7]) = .error (.burstWord 0xFFC00000) := by decide

/-! ### Shared operations -/

/-- V-A1: the burst words at the spec values and at the alternative of decision D9. -/
theorem test_burstWord :
    burstWord params .tr13c = 0xC0C00000 ∧ burstWord params .utr11aip = 0xC8C80000 ∧
      burstWord paramsBurstAlternative .tr13c = 0xFFC00000 ∧ burstWord paramsBurstAlternative .utr11aip = 0xFFC80000 := by
  decide

/-- V-F4. -/
theorem test_insertField :
    insertField 0x061FFF 12 0 0x3FF = 0x0603FF ∧ insertField 0xFFE000 12 0 0x1FFF = 0xFFFFFF ∧
      insertField 0xFFFFFF 12 0 0 = 0xFFE000 ∧ insertField 0x1E8271 2 2 1 = 0x1E8275 := by decide
/-- V-C1. -/
theorem test_fifoLimit :
    fifoLimit (cfg 65536 65536 2) = 2 ^ 33 ∧ fifoLimitValid params .utr11aip 4096 = true ∧
      fifoLimitValid params .utr11aip 8192 = false ∧ fifoLimitValid params .tr13c 16384 = true ∧
      fifoLimitValid params .tr13c 32768 = false ∧ fifoLimitValid params .tr13c 6 = false ∧
      fifoLimitValid paramsEvenLimit .tr13c 6 = true ∧ cref 16384 = 0x1FFF ∧ payloadBytes 2048 = 3072 := by decide
/-- V-C2. -/
theorem test_regword : regwordAddr 0x5B000025 = 0x2D ∧ regwordPayload 0x5B000025 = 0x25 ∧
    regwordAddr 0x0C0003FF = 0x06 ∧ regwordPayload 0x0D0003FF = 0x0003FF := by decide
/-- V-U3. -/
theorem test_unpack : (List.range 4).map (unpack [0x12, 0x34, 0x56, 0x78, 0x9A, 0xBC]) = [0x123, 0x456, 0x789, 0xABC] := by
  decide
/-- V-U1. -/
theorem test_pack : pack 0x0AB 0x0CD = [0x0A, 0xB0, 0xCD] ∧ pack 0x001 0x800 = [0x00, 0x18, 0x00] := by decide
/-- V-C3 (e): a transport error in poll 2 ends the software reset without the settle delay. -/
theorem test_resetSoftware_transport :
    resetSoftware params (idle (zeros 2 ++ [.bytes [0, 0, 0, 2], .transportError])) =
      .raised .transport { idle [] with trace :=
        [.xfer [0, 0, 0, 0] (.bytes [0, 0, 0, 0]), .xfer [1, 0, 0, 2] (.bytes [0, 0, 0, 0]), .waitNs 100,
          .xfer [0, 0, 0, 0] (.bytes [0, 0, 0, 2]), .waitMs 10, .xfer [0, 0, 0, 0] .transportError] } := by decide
/-- 60_exceptions.md R230. -/
theorem test_codes : (CmdResult.ok .none).code = 0 ∧ (CmdResult.err .resetTimeout).code = 5 ∧
    (CmdResult.err (.bufferSizeMismatch .cmdBuf 1 2)).code = 8 := by decide

/-! ### Witnesses: concrete values that meet the hypotheses of the statements, for every clause -/

theorem witness_DecodeOfEncodeIsTheInstruction :
    (Instr.configure (cfg 4 64 64)).WellFormed params ∧ (Instr.acquireFifo [1, 2] [3]).WellFormed params ∧
      (Instr.spiBurstRead (burstFields params .utr11aip) [1, 2, 3]).WellFormed params := by decide
theorem params_codesDistinct : params.CodesDistinct := by intro c d; cases c <;> cases d <;> decide
theorem witness_EncodeOfDecodeIsTheRequest :
    decodeRequest params (.command [0x08, 0x00, 0x01]) = .ok (.nextTestWord 1) ∧
      decodeRequest params (.transfer [0xFF, 0x00, 0x00, 0x00]) = .ok (.spiWrite 0x7F 0) := by decide

/-- A state with one request issued. -/
def issued (r : Request) : State := { State.reset with requests := [r] }

theorem witness_ReservedHostCodesAreRefused : ∀ op ∈ [0x00, 0x0A, 0x0F, 0x10, (0xFF : Byte)],
    (issued (.command [op])).cmd = none ∧ (issued (.command [op])).requests = [.command [op]] ∧
      (op = 0x00 ∨ (0x0A ≤ op.toNat ∧ op.toNat ≤ 0x0F) ∨ op.extractLsb' 4 4 ≠ 0) := by decide
theorem witness_StepRunsTheDecodedRequest :
    (issued (.command [0x07])).cmd = none ∧ (issued (.command [0x07])).requests = [.command [0x07]] ∧
      decodeRequest params (.command [0x07]) = .ok .readChipId ∧
      decodeRequest paramsEvenLimit (.command [0x07]) = .ok .readChipId := by decide
theorem witness_StepWaitsOrRefusesWithoutACommand :
    State.reset.cmd = none ∧ State.reset.requests = [] ∧ (issued (.command [])).cmd = none ∧
      (issued (.command [])).requests = [.command []] ∧ decodeRequest params (.command []) = .error .emptyCommand := by decide

/-- An acquisition that waits and has seen LOW. -/
def waiting (X : List XferAnswer) (I : List IrqObs) : State :=
  { active .running X with
    cmd := some (.acquireWait .tr13c 2 (some .low)), cmdLen := 7, cmdMem := [(0, 1), (6, 7)], outBuf := [8, 9], irqIn := I }

/-- Too few words, too many, a count of 33 bits; the other variant's burst word, and one with a burst count. -/
theorem witness_IllFormedOperandsAreRefused :
    (idle []).cmd = none ∧ (idle []).life ≠ .uninit ∧ { cfg 1 1 2 with words := List.replicate 37 0 }.words.length ≠ 38 ∧
      { cfg 1 1 2 with words := List.replicate 39 0 }.words.length ≠ 38 ∧ 2 ^ 32 ≤ (cfg (2 ^ 32) 1 2).rxAntennas ∧
      2 ^ 32 ≤ (cfg 1 (2 ^ 32) 2).chirpsPerFrame ∧ 2 ^ 32 ≤ (cfg 1 1 (2 ^ 32)).samplesPerChirp ∧
      (idle []).variant = some .tr13c ∧ burstFields params .utr11aip ≠ burstFields params .tr13c ∧
      (⟨0x60, 0, 0x60, 0, 127, 0⟩ : BurstFields) ≠ burstFields params .tr13c := by decide
theorem witness_StatusErrorBits :
    (0x01 : Byte) &&& 0x0B ≠ 0 ∧ (0x02 : Byte) &&& 0x0B ≠ 0 ∧ (0x08 : Byte) &&& 0x0B ≠ 0 ∧ (0xF4 : Byte) &&& 0x0B = 0 := by decide

/-- An answer with status 0 and value 0, one with an error status, and a failed exchange. -/
def good : XferAnswer := answer 0 0
def bad : XferAnswer := answer 0x08 0
theorem isError_good : isError params 0xF4 = false ∧ isError params 0 = false := by decide
theorem isError_bad : isError params 0x08 = true ∧ isError params 0x01 = true ∧ isError params 0x02 = true := by decide

/-- `SPI_READ`, `SPI_WRITE` and `READ_CHIP_ID`: each of the three answers can be the next one. -/
theorem witness_SpiReadReturnsTheRegister :
    (idle []).cmd = none ∧ (idle []).life ≠ .uninit ∧ (idle [good]).xferIn = answer 0 0 :: [] ∧
      isError params 0 = false ∧ (idle [bad]).xferIn = answer 0x08 0 :: [] ∧ isError params 0x08 = true ∧
      (idle [.transportError]).xferIn = .transportError :: [] := by decide
theorem witness_SpiWriteReturnsTheStatus :
    (idle [good]).cmd = none ∧ (idle [good]).life ≠ .uninit ∧
      (idle [answer 0xF4 0x777777]).xferIn = answer 0xF4 0x777777 :: [] ∧
      isError params 0xF4 = false ∧ isError params 0x02 = true := by decide
/-- A frame of two samples: answered, with an error status, and failed; no configuration; a byte too few and one too many. -/
theorem witness_SpiBurstReadFillsTheCommandBuffer :
    (active .armed []).cmd = none ∧ (active .armed []).life ≠ .uninit ∧ (active .armed []).variant = some .tr13c ∧
      (active .armed []).config = some (cfg 1 1 2) ∧ [(7 : Byte), 8, 9].length = payloadBytes (fifoLimit (cfg 1 1 2)) ∧
      (active .armed [.bytes [4, 1, 2, 3, 4, 5, 6]]).xferIn = .bytes [4, 1, 2, 3, 4, 5, 6] :: [] ∧
      [(4 : Byte), 1, 2, 3, 4, 5, 6].length = 4 + [(7 : Byte), 8, 9].length ∧
      isError params (responseStatus [4, 1, 2, 3, 4, 5, 6]) = false ∧ isError params (responseStatus [8, 1, 2, 3, 4, 5, 6]) = true ∧
      (active .armed [.transportError]).xferIn = .transportError :: [] ∧
      (idle []).cmd = none ∧ (idle []).life ≠ .uninit ∧ (idle []).variant = some .tr13c ∧ (idle []).config = none ∧
      [(7 : Byte), 8].length ≠ payloadBytes (fifoLimit (cfg 1 1 2)) ∧
      [(7 : Byte), 8, 9, 0].length ≠ payloadBytes (fifoLimit (cfg 1 1 2)) := by decide
/-- An answer with an error status, and one of a failed exchange. -/
theorem raises_bad : Raises params bad (.status 0x08) := .inr ⟨0x08, 0, rfl, by decide, rfl⟩
theorem raises_transport : Raises params .transportError .transport := .inl ⟨rfl, rfl⟩

/-- The two bounds of the field, and one answer for each clause. -/
theorem witness_ReadModifyWriteKeepsOtherBits :
    ((0 ≤ 0 ∧ 0 ≤ 23) ∧ (0 ≤ 23 ∧ 23 ≤ 23) ∧ 23 ≤ 23) ∧
      (idle [good, good]).xferIn = answer 0 0 :: good :: [] ∧ isError params 0 = false ∧ good = answer 0 0 ∧
      (idle [good, bad]).xferIn = answer 0 0 :: bad :: [] ∧ Raises params bad (.status 0x08) ∧
      (idle [good, .transportError]).xferIn = answer 0 0 :: .transportError :: [] ∧
      (idle [bad]).xferIn = bad :: [] ∧ (idle [.transportError]).xferIn = .transportError :: [] ∧
      Raises params .transportError .transport :=
  ⟨by decide, rfl, by decide, rfl, rfl, raises_bad, rfl, rfl, rfl, raises_transport⟩
theorem witness_OneExchangePerFramerCall :
    (∃ r s', readRegister params 0x06 (idle [good]) = .ok r s') ∧ (∃ e s', readRegister params 0x06 (idle [bad]) = .raised e s') :=
  ⟨⟨_, _, rfl⟩, ⟨_, _, rfl⟩⟩

/-- A block at reset with the given pin answers and transfer answers. -/
def fresh (R : List PinAnswer) (X : List XferAnswer) : State := { State.reset with rstIn := R, xferIn := X }

theorem witness_HardwareResetPulsesThePin :
    (fresh [.ok, .ok, .ok] []).rstIn = .ok :: .ok :: .ok :: [] ∧ (fresh [.pinError] []).rstIn = .pinError :: [] ∧
      (fresh [.ok, .pinError] []).rstIn = .ok :: .pinError :: [] ∧
      (fresh [.ok, .ok, .pinError] []).rstIn = .ok :: .ok :: .pinError :: [] := by decide
theorem witness_InitBringsTheBlockToIdle :
    (fresh [.ok, .ok, .ok] [answer 0 0x000300]).cmd = none ∧ (fresh [.ok, .ok, .ok] [answer 0 0x000300]).life = .uninit ∧
      (fresh [.ok, .ok, .ok] [answer 0 0x000300]).rstIn = .ok :: .ok :: .ok :: [] ∧
      (fresh [.ok, .ok, .ok] [answer 0 0x000300]).xferIn = answer 0 0x000300 :: [] ∧ isError params 0 = false ∧
      acceptId params .tr13c (chipIdView params 0x000300).digitalId (chipIdView params 0x000300).rfId = true ∧
      acceptId params .utr11aip (chipIdView params 0xFFFF0C).digitalId (chipIdView params 0xFFFF0C).rfId = true := by decide
theorem witness_InitRejectsAnotherChip :
    (fresh [.ok, .ok, .ok] [answer 0 0x000709]).cmd = none ∧ (fresh [.ok, .ok, .ok] [answer 0 0x000709]).life = .uninit ∧
      (fresh [.ok, .ok, .ok] [answer 0 0x000709]).xferIn = answer 0 0x000709 :: [] ∧ isError params 0 = false ∧
      acceptId params .tr13c (chipIdView params 0x000709).digitalId (chipIdView params 0x000709).rfId = false ∧
      acceptId params .utr11aip (chipIdView params 0x000308).digitalId (chipIdView params 0x000308).rfId = false := by decide
/-- No answer listed; a pin error at each of the three `RstSet`; an error status and a failed exchange after three good ones. -/
theorem witness_InitSucceedsOrStaysUninit :
    (∀ R ∈ [[], [.pinError], [.ok, .pinError], [.ok, .ok, .pinError], [.ok, .ok, .ok]], ∀ X ∈ [[], [bad], [.transportError]],
      (fresh R X).cmd = none ∧ (fresh R X).life = .uninit ∧ (fresh R X).rstIn = R ∧ (fresh R X).xferIn = X) ∧
      Raises params bad (.status 0x08) ∧ Raises params .transportError .transport :=
  ⟨by decide, raises_bad, raises_transport⟩

/-- A poll that reads `SW_RESET` as 1, and one with a status error. -/
def busyPoll : Byte × RegValue := (0, 2)
def errorPoll : Byte × RegValue := (0x02, 0)

theorem pollFails_busy : PollFails params busyPoll := .inr rfl
theorem pollFails_error : PollFails params errorPoll := .inl rfl
theorem pollFails_both : ∀ q ∈ [busyPoll, errorPoll, busyPoll, errorPoll], PollFails params q := by
  simp [pollFails_busy, pollFails_error]
theorem good_zero : Good params (0, 0) := by simp [Good]; decide
theorem good_zeros (n : Nat) : ∀ q ∈ List.replicate n ((0, 0) : Byte × RegValue), Good params q :=
  fun _ h => by cases List.eq_of_mem_replicate h; exact good_zero

/-- No failed poll, and four of both kinds. -/
theorem resetSucceeds : ∀ fails ∈ [[], [busyPoll, errorPoll, busyPoll, errorPoll]],
    ResetSucceeds params (0, 0) (0, 0) fails (0, 0) := by
  intro fails h
  rcases List.mem_cons.mp h with rfl | h
  · exact ⟨good_zero, good_zero, by decide, by simp, good_zero, rfl⟩
  · cases List.mem_singleton.mp h
    exact ⟨good_zero, good_zero, by decide, pollFails_both, good_zero, rfl⟩

theorem witness_ConfigureProgramsTheChipAndArms :
    (cfg 4 64 64).words.length = 38 ∧ configurationFormed params (cfg 4 64 64) = true ∧
      fifoLimitValid params .tr13c (fifoLimit (cfg 4 64 64)) = true ∧ (idle []).cmd = none ∧ (idle []).life ≠ .uninit ∧
      (idle []).variant = some .tr13c ∧ Good params (0, 0x061FFF) ∧ (∀ q ∈ List.replicate 38 ((0, 0) : Byte × RegValue), Good params q) ∧
      ∀ fails, (idle (resetAnswers (0, 0) (0, 0) fails (0, 0) ++ (List.replicate 38 (0, 0)).map answerOf ++
        [answerOf (0, 0x061FFF), answerOf (0, 0)] ++ [])).xferIn =
          resetAnswers (0, 0) (0, 0) fails (0, 0) ++ (List.replicate 38 (0, 0)).map answerOf ++
            [answerOf (0, 0x061FFF), answerOf (0, 0)] ++ [] :=
  ⟨by decide, by decide, by decide, rfl, by decide, rfl, by simp [Good]; decide, good_zeros 38, fun _ => rfl⟩

/-- The hypotheses of all clauses, and of each clause one list of answers: the first, a middle and the last word fail. -/
theorem witness_ConfigureStopsAtItsFirstError :
    (idle []).cmd = none ∧ (idle []).life ≠ .uninit ∧ (idle []).variant = some .tr13c ∧
      configurationFormed params (cfg 1 1 2) = true ∧ fifoLimitValid params .tr13c (fifoLimit (cfg 1 1 2)) = true ∧
      (idle [bad]).xferIn = bad :: [] ∧ Raises params bad (.status 0x08) ∧
      (idle [good, .transportError]).xferIn = answerOf (0, 0) :: .transportError :: [] ∧
      Raises params .transportError .transport ∧
      (idle (good :: good :: ([busyPoll, errorPoll, busyPoll, errorPoll].map answerOf ++ .transportError :: []))).xferIn =
        answerOf (0, 0) :: answerOf (0, 0) :: ([busyPoll, errorPoll, busyPoll, errorPoll].map answerOf ++ .transportError :: []) ∧
      (∀ q ∈ [busyPoll, errorPoll, busyPoll, errorPoll], PollFails params q) ∧
      (List.replicate 5 busyPoll).length = 5 ∧ (∀ q ∈ List.replicate 5 busyPoll, PollFails params q) ∧
      (∀ n ∈ [0, 20, 37], (cfg 1 1 2).words[(List.replicate n ((0, 0) : Byte × RegValue)).length]?.isSome = true) ∧
      (∀ n, ∀ q ∈ List.replicate n ((0, 0) : Byte × RegValue), Good params q) ∧
      (∀ n, (idle (resetAnswers (0, 0) (0, 0) [] (0, 0) ++ (List.replicate n (0, 0)).map answerOf ++ bad :: [])).xferIn =
        resetAnswers (0, 0) (0, 0) [] (0, 0) ++ (List.replicate n (0, 0)).map answerOf ++ bad :: []) ∧
      (List.replicate 38 ((0, 0) : Byte × RegValue)).length = 38 ∧
      (idle (resetAnswers (0, 0) (0, 0) [] (0, 0) ++ (List.replicate 38 (0, 0)).map answerOf ++ good :: bad :: [])).xferIn =
        resetAnswers (0, 0) (0, 0) [] (0, 0) ++ (List.replicate 38 (0, 0)).map answerOf ++ answerOf (0, 0) :: bad :: [] :=
  ⟨rfl, by decide, rfl, by decide, by decide, rfl, raises_bad, rfl, raises_transport, rfl, pollFails_both, rfl,
    fun q h => by cases List.eq_of_mem_replicate h; exact pollFails_busy, by decide, good_zeros, fun _ => rfl, rfl, rfl⟩
theorem witness_ConfigureRejectsAnInvalidLimit :
    (idle []).cmd = none ∧ (idle []).life ≠ .uninit ∧ (idle []).variant = some .tr13c ∧
      configurationFormed params (cfg 1 1 1) = true ∧ fifoLimitValid params .tr13c (fifoLimit (cfg 1 1 1)) = false ∧
      fifoLimitValid params .tr13c (fifoLimit (cfg 4 64 128)) = false := by decide
theorem witness_ConfigureActivatesOrDiscards :
    (active .armed []).cmd = none ∧ (active .armed []).life ≠ .uninit ∧ (active .armed []).variant = some .tr13c ∧
      configurationFormed params (cfg 1 1 2) = true := by decide
/-- Both rules, at the bounds of both variants. -/
theorem witness_ValidLimitsAndTheirThreshold :
    params.fifoLimitRule = .pow2Even ∧ paramsEvenLimit.fifoLimitRule = .even ∧
      fifoLimitValid params .tr13c 2 = true ∧ fifoLimitValid params .tr13c 16384 = true ∧
      fifoLimitValid params .utr11aip 4096 = true ∧ fifoLimitValid paramsEvenLimit .tr13c 16382 = true ∧
      fifoLimitValid paramsEvenLimit .tr13c 16386 = false := by decide
theorem witness_StartSetsFrameStart :
    (active .armed [good, good]).cmd = none ∧ (active .armed [good, good]).life ≠ .uninit ∧
      (active .armed [good, good]).config ≠ none ∧
      (active .armed [good, good]).xferIn = answer 0 0 :: answer 0 0 :: [] ∧ isError params 0 = false ∧
      (idle []).cmd = none ∧ (idle []).life ≠ .uninit ∧ (idle []).config = none := by decide
/-- `STOP`, `ENABLE_TEST_MODE` and `RESET_FIFO`: running, and not. -/
theorem witness_StopSetsFsmReset :
    (active .running [good, good]).cmd = none ∧ (active .running [good, good]).life = .running ∧
      (idle [good, good]).cmd = none ∧ (idle [good, good]).life ≠ .uninit ∧ (idle [good, good]).life ≠ .running ∧
      (idle [good, good]).xferIn = answer 0 0 :: answer 0 0 :: [] ∧ isError params 0 = false := by decide
theorem witness_TestModeAndFifoResetSetTheirBit :
    (active .armed [answer 4 0x0003FF, good]).cmd = none ∧ (active .armed [answer 4 0x0003FF, good]).life ≠ .uninit ∧
      (active .armed [answer 4 0x0003FF, good]).xferIn = answer 4 0x0003FF :: answer 0 0 :: [] ∧
      isError params 4 = false ∧ isError params 0 = false := by decide
/-- Each of the four commands with each of the failures. -/
theorem witness_FailedStrobesChangeNothing :
    ((active .running [bad]).cmd = none ∧ (active .running [bad]).life ≠ .uninit ∧ (active .running [bad]).config ≠ none ∧
      (active .running [bad]).xferIn = bad :: [] ∧
      (active .running [.transportError]).xferIn = .transportError :: [] ∧
      (active .running [good, bad]).xferIn = answer 0 0 :: bad :: [] ∧ isError params 0 = false ∧
      (active .running [good, .transportError]).xferIn = answer 0 0 :: .transportError :: [] ∧
      (idle [bad]).life ≠ .uninit ∧ (Instr.stop = .start → (idle [bad]).config ≠ none) ∧
      (Instr.resetFifo = .start → (idle [bad]).config ≠ none) ∧
      (Instr.enableTestMode = .start → (idle [bad]).config ≠ none)) ∧
    Raises params bad (.status 0x08) ∧ Raises params .transportError .transport :=
  ⟨by decide, raises_bad, raises_transport⟩
/-- A refused and an accepted command, a refused and an accepted wire row, and a command in flight. -/
theorem witness_LifecycleGuardRefusesExactly :
    Instr.start.hostOp = some .start ∧ State.reset.cmd = none ∧ lifeAccepts .start State.reset.life = false ∧
      (idle []).cmd = none ∧ lifeAccepts .start (idle []).life = true ∧ lifeAccepts .init (idle []).life = false ∧
      (Instr.spiRead 0).hostOp = none ∧ State.reset.life = .uninit ∧ (idle []).life ≠ .uninit ∧
      (waiting [] []).cmd ≠ none := by decide
/-- A command that ends, an acquisition that waits, one that waits on and one that ends. -/
theorem witness_CommandsReportOnceAndFollowTheTable :
    (∃ t, exec .start (active .armed [good, good]) = .next t ∧ t.cmd = none) ∧
      (∃ t, exec (.acquireFifo [0, 0, 0, 0, 0, 0, 0] [8, 9]) (active .armed []) = .next t ∧ t.cmd ≠ none) ∧
      (waiting [] []).cmd = some (.acquireWait .tr13c 2 (some .low)) ∧
      (∃ t, step (waiting [] []) = .next t ∧ t.cmd ≠ none) ∧
      (waiting [] [.pinError]).cmd = some (.acquireWait .tr13c 2 (some .low)) ∧
      ∃ t, step (waiting [] [.pinError]) = .next t ∧ t.cmd = none :=
  ⟨⟨_, rfl, rfl⟩, ⟨_, rfl, by decide⟩, rfl, ⟨_, rfl, by decide⟩, rfl, ⟨_, rfl, rfl⟩⟩
theorem witness_ErrorsLeaveTheBlockState :
    (∃ t, exec .start (idle []) = .next t ∧
      t.trace = (idle []).trace ++ [] ++ [.result .start (.err .noConfiguration)]) ∧
    (waiting [] [.pinError]).cmd = some (.acquireWait .tr13c 2 (some .low)) ∧
    ∃ t, step (waiting [] [.pinError]) = .next t ∧
      t.trace = (waiting [] [.pinError]).trace ++ [.irqRise .pinError] ++ [.result .acquireFifo (.err .pin)] :=
  ⟨⟨_, rfl, rfl⟩, rfl, _, rfl, rfl⟩

/-- The response of a frame of two samples, without and with a status error. -/
def frame : List Byte := [0x04, 1, 1, 1, 0xFF, 0xF0, 0x00]
def badFrame : List Byte := [0x08, 1, 1, 1, 0xFF, 0xF0, 0x00]

/-- A running block whose interrupt line is as given. -/
def beforeAcquire (X : List XferAnswer) (I : List IrqObs) : State := { active .running X with irqIn := I }

theorem witness_AcquireReadsOneFrame :
    ∀ nm ∈ [(0, 0), (3, 2)],
      (beforeAcquire [.bytes frame] (risingLine nm.1 nm.2)).cmd = none ∧
        (beforeAcquire [.bytes frame] (risingLine nm.1 nm.2)).life ≠ .uninit ∧
        (beforeAcquire [.bytes frame] (risingLine nm.1 nm.2)).variant = some .tr13c ∧
        (beforeAcquire [.bytes frame] (risingLine nm.1 nm.2)).config = some (cfg 1 1 2) ∧
        (List.replicate 7 (0 : Byte)).length = 4 + payloadBytes (fifoLimit (cfg 1 1 2)) ∧
        [(8 : Sample), 9].length = fifoLimit (cfg 1 1 2) ∧
        (beforeAcquire [.bytes frame] (risingLine nm.1 nm.2)).irqIn = risingLine nm.1 nm.2 ∧
        (beforeAcquire [.bytes frame] (risingLine nm.1 nm.2)).xferIn = .bytes frame :: [] ∧
        frame.length = (List.replicate 7 (0 : Byte)).length ∧ isError params (responseStatus frame) = false := by decide
/-- No configuration; `CMD` one byte short and one long; `OUT` one element short. -/
theorem witness_AcquireChecksItsBuffersFirst :
    (idle []).cmd = none ∧ (idle []).life ≠ .uninit ∧ (idle []).variant = some .tr13c ∧ (idle []).config = none ∧
      (active .armed []).cmd = none ∧ (active .armed []).life ≠ .uninit ∧ (active .armed []).variant = some .tr13c ∧
      (active .armed []).config = some (cfg 1 1 2) ∧
      (List.replicate 6 (0 : Byte)).length ≠ 4 + payloadBytes (fifoLimit (cfg 1 1 2)) ∧
      (List.replicate 8 (0 : Byte)).length ≠ 4 + payloadBytes (fifoLimit (cfg 1 1 2)) ∧
      (List.replicate 7 (0 : Byte)).length = 4 + payloadBytes (fifoLimit (cfg 1 1 2)) ∧
      [(8 : Sample)].length ≠ fifoLimit (cfg 1 1 2) := by decide
theorem witness_FailedBurstsLeaveTheSamples :
    (beforeAcquire [.bytes badFrame] (risingLine 0 0 ++ [])).irqIn = risingLine 0 0 ++ [] ∧
      (beforeAcquire [.bytes badFrame] (risingLine 0 0 ++ [])).xferIn = .bytes badFrame :: [] ∧
      badFrame.length = (List.replicate 7 (0 : Byte)).length ∧ isError params (responseStatus badFrame) = true ∧
      (beforeAcquire [.transportError] (risingLine 0 0 ++ [])).xferIn = .transportError :: [] ∧
      (List.replicate 7 (0 : Byte)).length = 4 + payloadBytes (fifoLimit (cfg 1 1 2)) ∧
      [(8 : Sample), 9].length = fifoLimit (cfg 1 1 2) := by decide
/-- A line that rests, then fails; a line that rests, then rises. -/
def failing (n m : Nat) : List IrqObs := restingLine n m ++ IrqObs.pinError :: []
def rising (n m : Nat) : List IrqObs := restingLine n m ++ IrqObs.level .high :: []
/-- A line that is HIGH throughout. -/
def highLine (n : Nat) : List IrqObs := List.replicate n (IrqObs.level .high)

/-- The pin fails at once, on a line that was HIGH, on one that was LOW, and on one that was both. -/
theorem witness_WaitReportsAPinError :
    ∀ nm ∈ [(0, 0), (2, 0), (0, 1), (2, 2)],
      (beforeAcquire [] (failing nm.1 nm.2)).cmd = none ∧ (beforeAcquire [] (failing nm.1 nm.2)).life ≠ .uninit ∧
        (beforeAcquire [] (failing nm.1 nm.2)).variant = some .tr13c ∧
        (beforeAcquire [] (failing nm.1 nm.2)).config = some (cfg 1 1 2) ∧
        (beforeAcquire [] (failing nm.1 nm.2)).irqIn = failing nm.1 nm.2 := by decide

/-- An acquisition that waits and has last seen `last`. -/
def waitingOn (last : Option Level) (X : List XferAnswer) (I : List IrqObs) : State :=
  { waiting X I with cmd := some (.acquireWait .tr13c 2 last) }

theorem witness_LineHeldHighNeverEndsTheWait :
    ∀ n ∈ [0, 3], (beforeAcquire [] (highLine n)).cmd = none ∧ (beforeAcquire [] (highLine n)).life ≠ .uninit ∧
      (beforeAcquire [] (highLine n)).variant = some .tr13c ∧ (beforeAcquire [] (highLine n)).config = some (cfg 1 1 2) ∧
      (beforeAcquire [] (highLine n)).irqIn = highLine n ∧
      ∀ last ∈ [none, some Level.high], last ≠ some .low ∧
        (waitingOn last [] (highLine n)).cmd = some (.acquireWait .tr13c 2 last) ∧
        (waitingOn last [] (highLine n)).irqIn = highLine n := by decide
/-- An acquisition issued on a line that rests: with no observation, HIGH, LOW, and HIGH then LOW. -/
theorem witness_WaitingAcquisitionGoesOn_issued :
    ∀ nm ∈ [(0, 0), (3, 0), (0, 1), (3, 2)],
      (beforeAcquire [] (restingLine nm.1 nm.2)).cmd = none ∧ (beforeAcquire [] (restingLine nm.1 nm.2)).life ≠ .uninit ∧
        (beforeAcquire [] (restingLine nm.1 nm.2)).variant = some .tr13c ∧
        (beforeAcquire [] (restingLine nm.1 nm.2)).config = some (cfg 1 1 2) ∧
        (beforeAcquire [] (restingLine nm.1 nm.2)).irqIn = restingLine nm.1 nm.2 ∧
        (List.replicate 7 (0 : Byte)).length = 4 + payloadBytes (fifoLimit (cfg 1 1 2)) ∧
        [(8 : Sample), 9].length = fifoLimit (cfg 1 1 2) := by decide
/-- The line: a rising edge after LOW seen before, and after a line that rests HIGH and LOW; a pin error; a line that rests. -/
theorem witness_WaitingAcquisitionGoesOn :
    (∀ last ∈ [none, some Level.high, some .low], ∀ I ∈ [rising 0 0, rising 0 2, rising 3 2, failing 0 1, restingLine 0 2],
      (waitingOn last [] I).cmd = some (.acquireWait .tr13c 2 last) ∧ (waitingOn last [] I).irqIn = I) ∧
    (some Level.low = some .low → 0 = 0) ∧ (some Level.high = some .low → 3 = 0) := by decide
/-- The answers: a response, one with an error status, a failed exchange. -/
theorem witness_WaitingAcquisitionGoesOn_answers :
    (waiting [.bytes frame] []).cmdLen = 4 + payloadBytes 2 ∧ (waiting [.bytes frame] []).xferIn = .bytes frame :: [] ∧
      frame.length = (waiting [.bytes frame] []).cmdLen ∧ isError params (responseStatus frame) = false ∧
      (waiting [.bytes badFrame] []).xferIn = .bytes badFrame :: [] ∧ badFrame.length = (waiting [.bytes badFrame] []).cmdLen ∧
      isError params (responseStatus badFrame) = true ∧ (waiting [.transportError] []).xferIn = .transportError :: [] := by decide
/-- The step at a rising edge, and at a pin error. -/
theorem test_step_waiting :
    (nextOf (step (waiting [.bytes frame] [.level .low, .level .high]))).map (fun t => (t.cmd, t.outBuf, t.trace)) =
      some (none, [0xFFF, 0x000], [.irqRise .ok, .xfer [0xC0, 0xC0, 0, 0, 0, 0, 7] (.bytes frame), .result .acquireFifo (.ok .none)]) ∧
    (nextOf (step (waiting [.bytes frame] [.level .low, .pinError]))).map (fun t => (t.outBuf, t.trace)) =
      some ([8, 9], [.irqRise .pinError, .result .acquireFifo (.err .pin)]) := by decide
theorem witness_SamplesAreWrittenOnlyOnSuccess :
    (∃ t, exec (.acquireFifo [0, 0, 0, 0, 0, 0, 0] [8, 9]) (beforeAcquire [.bytes frame] (risingLine 0 0)) = .next t ∧
      t.outBuf = [0xFFF, 0]) ∧
    (waiting [.bytes frame] [.level .high]).cmd = some (.acquireWait .tr13c 2 (some .low)) ∧
    ∃ t, step (waiting [.bytes frame] [.level .high]) = .next t ∧ t.outBuf = [0xFFF, 0] :=
  ⟨⟨_, rfl, by decide⟩, rfl, _, rfl, by decide⟩
theorem witness_SamplesAreTheHalvesOfABlock :
    [(0x0A : Byte), 0xB0, 0xCD][3 * 0]? = some 0x0A ∧ [(0x0A : Byte), 0xB0, 0xCD][3 * 0 + 1]? = some 0xB0 ∧
      [(0x0A : Byte), 0xB0, 0xCD][3 * 0 + 2]? = some 0xCD := by decide
theorem witness_UnpackInvertsPack : 0 < [((0x0AB : BitVec 12), (0x0CD : BitVec 12))].length := by decide
theorem witness_SamplesAreTheHalvesOfABlock_bounds : 0 < 2 ∧ 1 < 2 := by decide
/-- V-A3: the last element of its frame. -/
theorem witness_StridesCoverTheFrame :
    1 < 2 ∧ 1 < 2 ∧ 3 < 4 ∧ strideIndex 2 4 1 1 3 = 15 ∧ strideIndex 2 4 1 0 3 = 7 := by decide
theorem witness_ReadChipIdReportsTheIdentity :
    (active .running [good]).cmd = none ∧ (active .running [good]).life ≠ .uninit ∧
      (active .running [good]).xferIn = answer 0 0 :: [] ∧ isError params 0 = false ∧
      (active .running [bad]).xferIn = answer 0x08 0 :: [] ∧ isError params 0x08 = true ∧
      (active .running [.transportError]).xferIn = .transportError :: [] := by decide
theorem witness_NextTestWordIsPure : State.reset.cmd = none := rfl
theorem witness_LfsrRecurrence : (0x0FFF : BitVec 16).toNat ≤ 0x0FFF ∧ (0 : BitVec 16).toNat ≤ 0x0FFF := by decide
theorem witness_LfsrPermutesTwelveBitWords :
    (0x0FFF : BitVec 16).toNat ≤ 0x0FFF ∧ lfsrNext params 0x0FFF = lfsrNext params 0x0FFF := by decide
theorem witness_LfsrPeriodIsMaximal : 0 < 1 ∧ 1 < 4095 := by decide

/-- The values of decisions D15 and D9, a constructed chip, an even limit, a frame, and a 12-bit word. -/
theorem witness_OtherParameterValuesRun :
    (fresh [.ok, .ok, .ok] [answerOf (0, 0x000300)]).cmd = none ∧ (fresh [.ok, .ok, .ok] [answerOf (0, 0x000300)]).life = .uninit ∧
      (fresh [.ok, .ok, .ok] [answerOf (0, 0x000300)]).rstIn = .ok :: .ok :: .ok :: [] ∧
      paramsEvenLimit.accept paramsEvenLimit.rfIdTr13c paramsEvenLimit.digitalIdUtr11 .tr13c
        ((0x000300 : RegValue).extractLsb' paramsEvenLimit.chipIdDigitalLo 16)
        ((0x000300 : RegValue).extractLsb' paramsEvenLimit.chipIdRfLo 8) = true ∧
      configurationFormed paramsEvenLimit (cfg 1 1 6) = true ∧ fifoLimitValid paramsEvenLimit .tr13c (fifoLimit (cfg 1 1 6)) = true ∧
      (beforeAcquire [.bytes frame] (risingLine 0 0 ++ [])).cmd = none ∧
      (beforeAcquire [.bytes frame] (risingLine 0 0 ++ [])).irqIn = risingLine 0 0 ++ [] ∧
      (List.replicate 7 (0 : Byte)).length = 4 + payloadBytes (fifoLimit (cfg 1 1 2)) ∧
      isError paramsBurstAlternative (responseStatus frame) = false ∧
      (0x0FFF : BitVec 16).toNat ≤ 0x0FFF ∧ ∀ k ∈ params.lfsrTaps, k ≤ 11 := by decide
theorem witness_OtherParameterValuesRun_answers :
    ResetSucceeds paramsEvenLimit (0, 0) (0, 0) [busyPoll] (0, 0) ∧ Good paramsEvenLimit (0, 0x000300) :=
  ⟨⟨good_zero, good_zero, by decide, by simp [PollFails, busyPoll]; decide, good_zero, rfl⟩, by simp [Good]; decide⟩

/-! ### Legal states -/

theorem active_inv (X : List XferAnswer) : (active .running X).Inv params where
  variant_iff := by simp [active, idle]
  config_iff := by simp [active]
  config_valid := by
    intro c v hc hv
    cases hc
    cases hv
    decide
  waiting := by simp [active, idle, State.reset]
  mem_wf := by simp [active, idle, State.reset, Memory.wf]
  mem_bound := by simp [active, idle, State.reset]

theorem waiting_inv : (waiting [] []).Inv params where
  variant_iff := by decide
  config_iff := by simp [waiting, active]
  config_valid := (active_inv []).config_valid
  waiting := by
    intro v limit last h
    cases h
    exact ⟨rfl, ⟨_, rfl, by decide⟩, by decide, by decide⟩
  mem_wf := by decide
  mem_bound := by decide

/-- A legal state in which a step sends the frame of a `STOP`. -/
theorem witness_OnlyTheThreeWireEncodingsAreSent :
    (active .running [bad]).Inv params ∧
      ∃ t, stepWith params { active .running [bad] with requests := [.command [0x05]] } = .next t ∧
        t.trace = (active .running [bad]).trace ++ [.xfer [0, 0, 0, 0] bad, .result .stop (.err (.status 0x08))] :=
  ⟨active_inv _, _, rfl, by decide⟩
/-- A legal state that is not that of reset, with a command to run, and one in which an acquisition waits. -/
theorem witness_StepKeepsLegalStates :
    (active .running [good, good]).Inv params ∧
      (∃ t, step { active .running [good, good] with requests := [.command [0x05]] } = .next t ∧ t.life = .armed) ∧
      (waiting [] []).Inv params ∧ (∃ t, step (waiting [] []) = .next t) ∧ (waiting [] []).variant = some .tr13c :=
  ⟨active_inv _, ⟨_, rfl, rfl⟩, waiting_inv, ⟨_, rfl⟩, rfl⟩
theorem witness_LegalStatesNeverFault : (waiting [] []).Inv params := waiting_inv
theorem witness_AcceptedInstructionsComplete :
    (active .running []).Inv params ∧ (active .running []).cmd = none ∧ (Instr.configure (cfg 1 1 8)).WellFormed params ∧
      (∀ c, (Instr.configure (cfg 1 1 8)).hostOp = some c → lifeAccepts c (active .running []).life = true) := by
  refine ⟨active_inv [], rfl, by decide, ?_⟩
  rintro c ⟨⟩
  rfl
/-- A burst of the block's variant. -/
theorem witness_AcceptedInstructionsComplete_burst :
    (Instr.spiBurstRead (burstFields params .tr13c) [1, 2, 3]).WellFormed params ∧ (active .running []).life ≠ .uninit ∧
      (active .running []).variant = some .tr13c := by decide

/-- A block in IDLE whose trace is that of a reset pulse and one transfer. -/
def pulsed : State :=
  { idle [good] with requests := [.command [0x07]], trace := resetPulse ++ [readEvent params 0x02 0 0x000300] }

theorem witness_ResetPulsePrecedesEveryTransfer : pulsed.PulseFirst params ∧ ∃ t, step pulsed = .next t where
  left := {
    inv := {
      variant_iff := by decide
      config_iff := by simp [pulsed, idle, State.reset]
      config_valid := by intro c v h; cases h
      waiting := by intro v l last h; cases h
      mem_wf := by decide
      mem_bound := by decide }
    pulsed := fun _ => ⟨[], _, rfl⟩
    order := by
      intro pre tx rx post h
      have hl : pre.length = 6 := by
        match pre, h with
        | [_, _, _, _, _, _], _ => rfl
        | [], h => cases h
        | [_], h => cases h
        | [_, _], h => cases h
        | [_, _, _], h => cases h
        | [_, _, _, _], h => cases h
        | [_, _, _, _, _], h => cases h
        | _ :: _ :: _ :: _ :: _ :: _ :: _ :: _, h =>
          have := congrArg List.length h
          simp [pulsed, resetPulse] at this
      have : pre = resetPulse := by
        have h' := congrArg (List.take 6) h
        rw [List.take_left' hl] at h'
        exact h'.symm
      exact ⟨[], [], by simp [this]⟩ }
  right := ⟨_, rfl⟩

/-- A host command, and a wire transfer. -/
theorem witness_FrameOfEveryInstruction :
    (∃ t, exec .stop (active .running [good, good]) = .next t) ∧ Instr.stop.hostOp ≠ none ∧
      (∃ t, exec (.spiRead 0) (active .running [good]) = .next t) ∧ (Instr.spiRead 0).hostOp = none :=
  ⟨⟨_, rfl⟩, by decide, ⟨_, rfl⟩, rfl⟩
theorem witness_FrameOfTheHostBuffers : ∃ t, exec .resetFifo (active .running [good, good]) = .next t := ⟨_, rfl⟩

end Sys2Proof.Tests
end

section
/-! SUPPORT. The fields of the state after reset that the spec gives a value, and the empty trace (10_state.md R41). -/

namespace Sys2Proof.Machine

@[simp] theorem reset_life : State.reset.life = .uninit := rfl
@[simp] theorem reset_variant : State.reset.variant = none := rfl
@[simp] theorem reset_config : State.reset.config = none := rfl
@[simp] theorem reset_rstLevel : State.reset.rstLevel = .high := rfl
@[simp] theorem reset_cmd : State.reset.cmd = none := rfl
@[simp] theorem reset_trace : State.reset.trace = [] := rfl

/-- Settles O53, one field of the reset state at a time. -/
theorem resetLeavesTheSpecValues : Obligations.ResetLeavesTheSpecValues :=
  ⟨reset_life, reset_variant, reset_config, reset_rstLevel, reset_cmd, reset_trace⟩

end Sys2Proof.Machine
end

section
/-! SUPPORT. The encodings (30_encoding.md): frames and reserved codes as numbers, and which transfers an instruction, a waiting
acquisition and a step can send. -/

namespace Sys2Proof.Machine

open Sys2Proof.Config

variable {p : Params}

/-! ### Single-register frames -/

/-- The command byte as a number (30_encoding.md R70). -/
theorem cmdByte_toNat (a : RegAddr) (d : BitVec 1) : (cmdByte a d).toNat = 2 * a.toNat + d.toNat := by
  rw [cmdByte, BitVec.toNat_append, ← Nat.shiftLeft_add_eq_or_of_lt d.isLt, Nat.shiftLeft_eq]
  omega

/-- The write direction is the complement of the read direction (decision D3). -/
theorem dirWrite_toNat : (dirWrite p).toNat = 1 - p.dirRead.toNat := by
  rw [dirWrite, BitVec.toNat_not]

/-- The three bytes of `BE24` weigh up to the value (00_scope.md R15). -/
theorem be24_toNat (v : RegValue) :
    (v.extractLsb' 16 8).toNat * 65536 + (v.extractLsb' 8 8).toNat * 256 + (v.extractLsb' 0 8).toNat = v.toNat := by
  have hv : v.toNat < 2 ^ 24 := v.isLt
  simp only [BitVec.extractLsb'_toNat, Nat.shiftRight_eq_div_pow]
  omega

/-! ### Reserved host codes -/

/-- A code that no host command has spells none (30_encoding.md R82). -/
theorem hostOpOf_eq_none {op : Byte} (h : ∀ c, p.hostOp c ≠ op) : hostOpOf p op = none := by
  simpa [hostOpOf] using fun c _ => h c

/-- The host command codes are the numbers 1 to 9 (30_encoding.md R80). -/
theorem hostOpSpec_range (c : HostOp) : 1 ≤ (hostOpSpec c).toNat ∧ (hostOpSpec c).toNat ≤ 9 := by
  cases c <;> decide

/-- The reserved codes are the numbers outside 1 to 9 (30_encoding.md R82). -/
theorem reservedCode_range {op : Byte} (h : op = 0x00 ∨ (0x0A ≤ op.toNat ∧ op.toNat ≤ 0x0F) ∨ op.extractLsb' 4 4 ≠ 0) :
    op.toNat = 0 ∨ 10 ≤ op.toNat := by
  rcases h with rfl | ⟨low, -⟩ | high
  · exact .inl rfl
  · exact .inr low
  · refine .inr (Nat.le_of_not_lt fun small => high (BitVec.eq_of_toNat_eq ?_))
    rw [BitVec.extractLsb'_toNat, Nat.shiftRight_eq_div_pow, Nat.div_eq_of_lt (by omega)]
    rfl

/-- A step refuses a request that does not decode, by the decoder's reason (30_encoding.md R82). -/
theorem stepBy_undecodable {run : Instr → State → Host.Outcome State Fault Refusal} {s : State} {r : Request}
    {rest : List Request} {e : DecodeError} (hc : s.cmd = none) (hr : s.requests = r :: rest)
    (hd : decodeRequest p r = .error e) : stepBy p run s = .refused (.undecodable e) := by
  simp [stepBy, hc, hr, hd]

/-! ### What is sent -/

/-- RWB, NBURSTS and PAD, bits 16:0 of the burst word, are zero (30_encoding.md R76). -/
theorem burstWord_low (v : Variant) : burstWord p v &&& 0x0001FFFF = 0 := by
  apply BitVec.eq_of_toNat_eq
  rw [BitVec.toNat_and, burstWord_toNat, show (0x0001FFFF : Word32).toNat = 2 ^ 17 - 1 from rfl, Nat.and_two_pow_sub_one_eq_mod]
  simp
  omega

/-- Every transfer among the events `es` is one that the block can send in the state `s` (30_encoding.md R83). -/
def AllEmitted (p : Params) (s : State) (es : List Event) : Prop := ∀ tx rx, .xfer tx rx ∈ es → Emits p s tx

/-- From `s` to `t` the trace grows by events whose transfers the block can send in `s` (30_encoding.md R83). -/
def SendsOnly (p : Params) (s t : State) : Prop := ∃ es, t.trace = s.trace ++ es ∧ AllEmitted p s es

theorem emits_burst {s : State} {v : Variant} {cfg : Configuration} {tail : List Byte} (hv : s.variant = some v)
    (hc : s.config = some cfg) (hl : tail.length = payloadBytes (fifoLimit cfg)) :
    Emits p s (be32 (burstWord p v) ++ tail) :=
  .inr ⟨v, cfg, hv, hc, tail, rfl, hl⟩

theorem AllEmitted.append {s : State} {es es' : List Event} (h : AllEmitted p s es) (h' : AllEmitted p s es') :
    AllEmitted p s (es ++ es') :=
  fun tx rx he => (List.mem_append.mp he).elim (h tx rx) (h' tx rx)

theorem AllEmitted.of_noXfer {s : State} {es : List Event} (h : ∀ e ∈ es, e.isXfer = false) : AllEmitted p s es :=
  fun _ _ he => nomatch h _ he

theorem AllEmitted.of_port {s : State} {es : List Event} (h : ∀ e ∈ es, PortEvent p e) : AllEmitted p s es :=
  fun _ _ he => .inl (h _ he).single

/-- A result is no transfer: a host command sends what it sends before its result (60_exceptions.md R231). -/
theorem SendsOnly.of_result {s t : State} {es : List Event} {c : HostOp} {q : CmdResult}
    (ht : t.trace = s.trace ++ es ++ [.result c q]) (h : AllEmitted p s es) : SendsOnly p s t :=
  ⟨es ++ [.result c q], by rw [ht, List.append_assoc], h.append (.of_noXfer (by simp [Event.isXfer]))⟩

/-- A state whose trace has not grown. -/
theorem SendsOnly.of_trace_eq {s t : State} (ht : t.trace = s.trace) : SendsOnly p s t :=
  ⟨[], by simp [ht], .of_noXfer (by simp)⟩

/-- The events are those the trace has grown by, so each of their transfers is one the block can send. -/
theorem SendsOnly.emits {s t : State} {es : List Event} (h : SendsOnly p s t) (ht : t.trace = s.trace ++ es) :
    AllEmitted p s es := by
  obtain ⟨es', ht', hs⟩ := h
  rwa [List.append_cancel_left (ht.symm.trans ht')]

/-- What an instruction sends (30_encoding.md R83). -/
theorem Ran.sendsOnly {s t : State} {i : Instr} (h : Ran p s i t) : SendsOnly p s t := by
  cases h with
  | initOk v l ri d xi es _ port =>
    exact .of_result rfl (.append (.of_noXfer (by simp [resetPulse, Event.isXfer])) (.of_port port))
  | initError v l ri d xi es r _ _ frames _ => exact .of_result rfl fun tx rx he => .inl (frames tx rx he)
  | configureOk cfg v xi d es _ _ _ _ port => exact .of_result rfl (.of_port port)
  | configureError cfg xi d es r _ port => exact .of_result rfl (.of_port port)
  | start xi d es q _ port _ => exact .of_result rfl (.of_port port)
  | stop xi d es q _ port => exact .of_result rfl (.of_port port)
  | ported _ c xi d es q _ _ port => exact .of_result rfl (.of_port port)
  | acquireWaits => exact .of_trace_eq rfl
  | acquireEnds cmd out rest xi d mem es q ob _ _ _ _ _ _ sent =>
    refine .of_result rfl fun tx rx he => ?_
    obtain ⟨v, cfg, hv, hc, hl, rfl⟩ := sent tx rx he
    exact emits_burst hv hc (by simp [hl])
  | transfer _ xi d es f _ _ port => exact ⟨es, rfl, .of_port port⟩
  | burst v w tail xi d mem es f _ _ _ hv _ sent =>
    rcases sent with rfl | ⟨a, cfg, hc, hl, rfl⟩
    · exact .of_trace_eq (by simp)
    · refine ⟨_, rfl, fun tx rx he => ?_⟩
      obtain ⟨rfl, -⟩ : tx = be32 (burstWord p v) ++ tail ∧ rx = a := by simpa using he
      exact emits_burst hv hc hl

/-- What a waiting acquisition sends: the legal state has its variant, its configuration and a buffer of the right length, so its
burst is that of 30_encoding.md R77. -/
theorem acquireFromWait_sendsOnly {s : State} {v : Variant} {limit : Nat} {last : Option Level} (hi : s.Inv p)
    (hw : s.cmd = some (.acquireWait v limit last)) : SendsOnly p s (acquireFromWait p v limit last s) := by
  obtain ⟨hv, ⟨cfg, hc, rfl⟩, hlen, -⟩ := hi.waiting v limit last hw
  rcases acquireFromWait_cases v (fifoLimit cfg) last s with ⟨last', h⟩ | ⟨rest, xi, d, mem, es, q, ob, h, -, sent, -, -⟩
  · exact .of_trace_eq (by rw [h])
  · refine .of_result (by rw [h]) fun tx rx he => ?_
    rw [sent (by omega) tx rx he]
    exact emits_burst hv hc (by simp [cmdBytes, hlen])

/-- What a step of a legal state sends (30_encoding.md R83). -/
theorem stepWith_sendsOnly {s t : State} (hi : s.Inv p) (h : stepWith p s = .next t) : SendsOnly p s t := by
  rcases stepWith_cases h with ⟨v, limit, last, hw, rfl⟩ | ⟨-, -, rfl⟩ | ⟨r, rest, i, -, -, -, ran⟩
  · exact acquireFromWait_sendsOnly hi hw
  · exact .of_trace_eq rfl
  · exact ran.sendsOnly

/-! ### The statements -/

/-- Settles O10, from what a step of a legal state sends. -/
theorem onlyTheThreeWireEncodingsAreSent : Obligations.OnlyTheThreeWireEncodingsAreSent :=
  fun _ => ⟨fun _ _ _ tx rx hi h ht he => (stepWith_sendsOnly hi h).emits ht tx rx he, fun _ => rfl, burstWord_low⟩

/-- Settles O4: the nine codes are 1 to 9, a reserved code is none of them. -/
theorem reservedHostCodesAreRefused : Obligations.ReservedHostCodesAreRefused := by
  intro s op operands rest hc hr reserved
  have none_of : hostOpOf params op = none := hostOpOf_eq_none fun c hop => by
    have range : 1 ≤ op.toNat ∧ op.toNat ≤ 9 := hop ▸ hostOpSpec_range c
    have := reservedCode_range reserved
    omega
  exact stepBy_undecodable hc hr (by simp [decodeRequest, decodeCommand, none_of])

/-- Settles O5, byte by byte of the two frames. -/
theorem framesCarryAddressDirectionAndValue : Obligations.FramesCarryAddressDirectionAndValue := fun p a v =>
  ⟨⟨cmdByte a p.dirRead, rfl, cmdByte_toNat a p.dirRead⟩,
    ⟨_, _, _, _, rfl, by rw [cmdByte_toNat, dirWrite_toNat], be24_toNat v⟩⟩

end Sys2Proof.Machine
end

section
/-! SUPPORT. The framer (40_framer.md): which state a call leaves, and how many transfers it adds to the trace. -/

namespace Sys2Proof.Machine

open Sys2Proof.Config

variable {p : Params}

/-! ### Counting transfers -/

@[simp] theorem xferCount_append (t t' : List Event) : xferCount (t ++ t') = xferCount t + xferCount t' := by
  simp [xferCount]

@[simp] theorem xferCount_xfer (tx : List Byte) (rx : XferAnswer) : xferCount [.xfer tx rx] = 1 := rfl

theorem Ported.xferCount_eq {s s' : State} {es : List Event} (h : Ported s s' es) :
    xferCount s'.trace = xferCount s.trace + xferCount es := by
  obtain ⟨xi, d, rfl⟩ := h
  exact xferCount_append s.trace es

/-- An exchange is one transfer, whatever the environment answers (00_scope.md R9). -/
theorem exchange_xferCount (tx : List Byte) (s : State) :
    xferCount (exchange tx s).state.trace = xferCount s.trace + 1 := by
  rcases exchange_cases tx s with ⟨rx, s', h, -, ported⟩ | ⟨s', h, ported⟩
  · rw [h, state_ok, ported.xferCount_eq, xferCount_xfer]
  · rw [h, state_raised, ported.xferCount_eq, xferCount_xfer]

/-! ### Which state a call leaves -/

/-- A continuation that leaves its state alone leaves that of the sequence before it. -/
theorem state_bind_of_keeps {α β : Type} (r : Res α) {f : α → State → Res β} (hf : ∀ a s, (f a s).state = s) :
    (r.bind f).state = r.state := by
  cases r with
  | ok a s => exact hf a s
  | raised e s => rfl

/-- `CHECK_STATUS` changes nothing, whether or not it raises (40_framer.md R100). -/
@[simp] theorem checkStatus_state (g : Byte) (s : State) : (checkStatus p g s).state = s := by
  cases hg : isError p g with
  | true => rw [checkStatus_error g s hg, state_raised]
  | false => rw [checkStatus_ok g s hg, state_ok]

/-- `READ_REGISTER` leaves the state of its exchange (40_framer.md R101). -/
theorem readRegister_state (a : RegAddr) (s : State) :
    (readRegister p a s).state = (exchange (readFrame p a) s).state :=
  state_bind_of_keeps _ fun _ s1 => (state_bind_of_keeps _ fun _ _ => rfl).trans (checkStatus_state _ s1)

/-- `WRITE_REGISTER` leaves the state of its exchange (40_framer.md R102). -/
theorem writeRegister_state (a : RegAddr) (v : RegValue) (s : State) :
    (writeRegister p a v s).state = (exchange (writeFrame p a v) s).state :=
  state_bind_of_keeps _ fun _ s1 => (state_bind_of_keeps _ fun _ _ => rfl).trans (checkStatus_state _ s1)

/-! ### The transfers of each call (40_framer.md R105) -/

theorem readRegister_xferCount (a : RegAddr) (s : State) :
    xferCount (readRegister p a s).state.trace = xferCount s.trace + 1 := by
  rw [readRegister_state, exchange_xferCount]

theorem writeRegister_xferCount (a : RegAddr) (v : RegValue) (s : State) :
    xferCount (writeRegister p a v s).state.trace = xferCount s.trace + 1 := by
  rw [writeRegister_state, exchange_xferCount]

/-- After a read that succeeds, the write adds the second transfer, whatever its answer. -/
theorem readModifyWrite_xferCount_of_ok {a : RegAddr} {hi lo : Nat} {f : RegValue} {s s' : State} {r : RegValue × Byte}
    (h : readRegister p a s = .ok r s') :
    xferCount (readModifyWrite p a hi lo f s).state.trace = xferCount s.trace + 2 := by
  have read : xferCount s'.trace = xferCount s.trace + 1 := by
    simpa only [h, state_ok] using readRegister_xferCount (p := p) a s
  rw [readModifyWrite, h, bind_ok, state_bind_of_keeps _ fun _ _ => rfl, writeRegister_xferCount, read]

/-- After a read that fails, no write is sent. -/
theorem readModifyWrite_xferCount_of_raised {a : RegAddr} {hi lo : Nat} {f : RegValue} {s s' : State} {e : Error}
    (h : readRegister p a s = .raised e s') :
    xferCount (readModifyWrite p a hi lo f s).state.trace = xferCount s.trace + 1 := by
  rw [readModifyWrite, h, bind_raised, state_raised]
  simpa only [h, state_raised] using readRegister_xferCount (p := p) a s

/-! ### The statements -/

/-- Settles O15: the value written is `insertField r hi lo f`, whose bits `insertField_getLsbD` gives. -/
theorem readModifyWriteKeepsOtherBits : Obligations.ReadModifyWriteKeepsOtherBits := by
  intro p a hi lo f s X hlo hhi
  refine ⟨fun g1 r x2 hx hg1 => ⟨insertField r hi lo f, fun k hk => insertField_getLsbD r f hi lo k hlo hhi hk, ?_, ?_⟩,
    fun x1 e hx => readModifyWrite_read_raises a hi lo f x1 e X s hx⟩
  · rintro g2 x rfl hg2
    exact readModifyWrite_ok a hi lo f g1 g2 r x X s hx hg1 hg2
  · exact fun e => readModifyWrite_write_raises a hi lo f g1 r x2 e X s hx hg1

/-- Settles O16: a strobe is a read-modify-write of one bit, so it has the latter's transfers. -/
theorem oneExchangePerFramerCall : Obligations.OneExchangePerFramerCall := by
  intro p a v f hi lo b s
  refine ⟨readRegister_xferCount a s, writeRegister_xferCount a v s, ?_, ?_⟩
  · rintro ⟨r, s', h⟩
    exact ⟨readModifyWrite_xferCount_of_ok h, readModifyWrite_xferCount_of_ok h⟩
  · rintro ⟨e, s', h⟩
    exact ⟨readModifyWrite_xferCount_of_raised h, readModifyWrite_xferCount_of_raised h⟩

end Sys2Proof.Machine
end

section
/-! SUPPORT. The control sequences (41_control_sequences.md): the steps of the reset pulse, and the two parts of a register
word. -/

namespace Sys2Proof.Machine

/-! ### The reset pulse (41_control_sequences.md R120) -/

/-- The pulse is over where its first drive raises. -/
theorem resetHardware_first_raises {s s' : State} {e : Error} (first : rstSet .high s = .raised e s') :
    resetHardware s = .raised e s' := by
  rw [resetHardware, first, bind_raised]

/-- After its first drive the pulse waits and drives LOW; it is over where that raises. -/
theorem resetHardware_second_raises {s s1 s' : State} {e : Error} (first : rstSet .high s = .ok () s1)
    (second : rstSet .low (delayNs hwResetDelayNs s1) = .raised e s') : resetHardware s = .raised e s' := by
  rw [resetHardware, first, bind_ok, second, bind_raised]

/-- After two drives all that is left of the pulse is the last drive, with a delay before it and one after it. -/
theorem resetHardware_of_two_drives {s s1 s2 : State} (first : rstSet .high s = .ok () s1)
    (second : rstSet .low (delayNs hwResetDelayNs s1) = .ok () s2) :
    resetHardware s =
      (rstSet .high (delayNs hwResetDelayNs s2)).bind fun _ s3 => .ok () (delayNs hwResetDelayNs s3) := by
  rw [resetHardware, first, bind_ok, second, bind_ok]

/-! ### Register words (41_control_sequences.md R128) -/

theorem regwordAddr_toNat (w : Word32) : (regwordAddr w).toNat = w.toNat / 2 ^ 25 := by
  have hw : w.toNat < 2 ^ 32 := w.isLt
  rw [regwordAddr, BitVec.extractLsb'_toNat, Nat.shiftRight_eq_div_pow]
  exact Nat.mod_eq_of_lt (by omega)

theorem regwordPayload_toNat (w : Word32) : (regwordPayload w).toNat = w.toNat % 2 ^ 24 := by
  rw [regwordPayload, BitVec.extractLsb'_toNat, Nat.shiftRight_zero]

/-! ### The statements -/

/-- Settles O17, drive by drive: each listed answer lets the pulse go on or ends it. -/
theorem hardwareResetPulsesThePin : Obligations.HardwareResetPulsesThePin := by
  intro s R
  refine ⟨fun good => ?_, fun fails_first => ?_, fun fails_second => ?_, fun fails_third => ?_⟩
  · rw [resetHardware_of_two_drives (rstSet_ok _ _ s good) (rstSet_ok _ _ _ rfl), rstSet_ok _ R _ rfl, bind_ok]
    simp [delayNs, emit, hwResetDelayNs]
  · exact resetHardware_first_raises (rstSet_pinError _ R s fails_first)
  · rw [resetHardware_second_raises (rstSet_ok _ _ s fails_second) (rstSet_pinError _ R _ rfl)]
    simp [delayNs, emit, hwResetDelayNs]
  · rw [resetHardware_of_two_drives (rstSet_ok _ _ s fails_third) (rstSet_ok _ _ _ rfl), rstSet_pinError _ R _ rfl, bind_raised]
    simp [delayNs, emit, hwResetDelayNs]

/-- Settles O26, part by part: the address fits in its 7 bits, so only the payload is cut. -/
theorem registerWordSplits : Obligations.RegisterWordSplits :=
  fun w => ⟨regwordAddr_toNat w, regwordPayload_toNat w⟩

end Sys2Proof.Machine
end

section
/-! SUPPORT. Chip identification (44_chip_id.md): the read of CHIP_ID on a good answer, and `INIT` on an identity that is not
accepted. -/

namespace Sys2Proof.Machine

open Sys2Proof.Config

variable {p : Params}

/-- One good read of CHIP_ID gives the fields of the value read (44_chip_id.md R200). -/
theorem chipIdSeq_ok (g : Byte) (id : RegValue) (X : List XferAnswer) (s : State) (hx : s.xferIn = answer g id :: X)
    (hg : isError p g = false) :
    chipIdSeq p s =
      .ok (chipIdView p id) { s with xferIn := X, trace := s.trace ++ [readEvent p p.addrChipId g id] } := by
  rw [chipIdSeq, readRegister_ok _ g id X s hx hg, bind_ok]

/-- The whole pulse and one good read come before the acceptance test, which raises with the identity read and constructs nothing
(44_chip_id.md R203). -/
theorem initSeq_rejected (v : Variant) (g : Byte) (id : RegValue) (R : List PinAnswer) (X : List XferAnswer) (s : State)
    (hr : s.rstIn = .ok :: .ok :: .ok :: R) (hx : s.xferIn = answer g id :: X) (hg : isError p g = false)
    (rejected : acceptId p v (chipIdView p id).digitalId (chipIdView p id).rfId = false) :
    initSeq p v s = .raised (.variantMismatch (chipIdView p id).digitalId (chipIdView p id).rfId) { s with
      rstLevel := .high, rstIn := R, xferIn := X,
      trace := s.trace ++ resetPulse ++ [readEvent p p.addrChipId g id] } := by
  have pulse : resetHardware s = .ok () { s with rstLevel := .high, rstIn := R, trace := s.trace ++ resetPulse } :=
    (hardwareResetPulsesThePin s R).1 hr
  rw [initSeq, pulse, bind_ok, chipIdSeq_ok g id X, bind_ok, rejected, if_neg Bool.false_ne_true]
  exacts [hx, hg]

/-- On an unconstructed block with no command in flight, `INIT` is accepted and runs its sequence to the end
(41_control_sequences.md R129). -/
theorem exec_init_of_uninit (v : Variant) (s : State) (hcmd : s.cmd = none) (hlife : s.life = .uninit) :
    exec (.init v) s = .next (finish .init (initSeq params v s)) :=
  accept_of s _ _ hcmd (by rw [hlife]; rfl)

/-- A sequence that raises with no command in flight adds its result event and nothing else (60_exceptions.md R231, R232). -/
theorem finish_raised_of_cmd_none (c : HostOp) (e : Error) (s : State) (hcmd : s.cmd = none) :
    finish c (.raised e s) = emit (.result c (.err e)) s := by
  rw [finish, raiseError, ← hcmd]
  rfl

/-- Settles O19: the sequence raises `VariantMismatch`, and the raise writes no more than the result event. -/
theorem initRejectsAnotherChip : Obligations.InitRejectsAnotherChip := by
  intro s v g id R X hcmd hlife hr hx hg rejected
  rw [exec_init_of_uninit v s hcmd hlife, initSeq_rejected v g id R X s hr hx hg rejected,
    finish_raised_of_cmd_none]
  · simp [emit]
  · exact hcmd

end Sys2Proof.Machine
end

section
/-! SUPPORT. The decoder and the encoder (30_encoding.md): each reader of operands and the bytes that spell what it reads, as one
`Codec`, built up from bytes to requests. -/

namespace Sys2Proof

open Sys2Proof.Config Sys2Proof.Machine

variable {p : Params}

/-! ### Readers and the bytes that spell what they read -/

/-- The reader `take` and the spelling `put` are inverse on the values that `ok` admits: a spelling is read back with the bytes
after it untouched, and whatever is read is admitted and was spelt by the bytes taken. -/
structure Codec {α : Type} (take : List Byte → Option (α × List Byte)) (put : α → List Byte) (ok : α → Prop) : Prop where
  parse : ∀ a rest, ok a → take (put a ++ rest) = some (a, rest)
  print : ∀ bs a rest, take bs = some (a, rest) → ok a ∧ put a ++ rest = bs

/-- Two operands are spelt one after the other. -/
theorem Codec.both {α β : Type} {t : List Byte → Option (α × List Byte)} {u : List Byte → Option (β × List Byte)}
    {f : α → List Byte} {g : β → List Byte} {P : α → Prop} {Q : β → Prop} (ht : Codec t f P) (hu : Codec u g Q) :
    Codec (takeBoth t u) (fun ab => f ab.1 ++ g ab.2) (fun ab => P ab.1 ∧ Q ab.2) where
  parse := by
    rintro ⟨a, b⟩ rest ⟨ha, hb⟩
    simp [takeBoth, ht.parse a _ ha, hu.parse b _ hb]
  print := by
    intro bs ab rest h
    simp only [takeBoth, Option.bind_eq_some_iff, Option.map_eq_some_iff] at h
    obtain ⟨⟨a, r⟩, hta, ⟨b, r'⟩, hub, h⟩ := h
    cases h
    obtain ⟨ha, rfl⟩ := ht.print _ _ _ hta
    obtain ⟨hb, rfl⟩ := hu.print _ _ _ hub
    exact ⟨⟨ha, hb⟩, by simp⟩

/-- A codec of the values that `f` makes of those of another codec. -/
theorem Codec.map {α β : Type} {t : List Byte → Option (α × List Byte)} {put : α → List Byte} {ok : α → Prop}
    (ht : Codec t put ok) (f : α → β) {put' : β → List Byte} {ok' : β → Prop} (onto : ∀ b, ok' b → ∃ a, ok a ∧ f a = b)
    (spelt : ∀ a, ok a → ok' (f a) ∧ put' (f a) = put a) :
    Codec (fun bs => (t bs).map fun ar => (f ar.1, ar.2)) put' ok' where
  parse := by
    intro b rest hb
    obtain ⟨a, ha, rfl⟩ := onto b hb
    simp [(spelt a ha).2, ht.parse a rest ha]
  print := by
    intro bs b rest h
    obtain ⟨⟨a, r⟩, hta, h⟩ := Option.map_eq_some_iff.mp h
    cases h
    obtain ⟨ha, rfl⟩ := ht.print _ _ _ hta
    exact ⟨(spelt a ha).1, by rw [(spelt a ha).2]⟩

/-- A reader that takes nothing and gives one value. -/
theorem Codec.unit {α : Type} (a : α) {put : α → List Byte} {ok : α → Prop} (only : ∀ b, ok b ↔ b = a) (spelt : put a = []) :
    Codec (fun bs => some (a, bs)) put ok where
  parse := by
    intro b rest hb
    rw [(only b).mp hb, spelt, List.nil_append]
  print := by
    intro bs b rest h
    cases h
    exact ⟨(only a).mpr rfl, by rw [spelt, List.nil_append]⟩

/-! ### Words, bytes and samples -/

/-- Appended words as a number. -/
theorem toNat_append_eq {m n : Nat} (x : BitVec m) (y : BitVec n) : (x ++ y).toNat = x.toNat * 2 ^ n + y.toNat := by
  rw [BitVec.toNat_append, ← Nat.shiftLeft_add_eq_or_of_lt y.isLt, Nat.shiftLeft_eq]

theorem be32_fromBE32 (a b c d : Byte) : be32 (fromBE32 a b c d) = [a, b, c, d] := by
  have ha := a.isLt
  have hb := b.isLt
  have hc := c.isLt
  have hd := d.isLt
  simp only [be32, List.cons.injEq, and_true]
  refine ⟨?_, ?_, ?_, ?_⟩ <;> apply BitVec.eq_of_toNat_eq <;>
    simp only [fromBE32, BitVec.extractLsb'_toNat, toNat_append_eq, Nat.shiftRight_eq_div_pow] <;> omega

theorem be16_fromBE16 (a b : Byte) : be16 (fromBE16 a b) = [a, b] := by
  have ha := a.isLt
  have hb := b.isLt
  simp only [be16, List.cons.injEq, and_true]
  refine ⟨?_, ?_⟩ <;> apply BitVec.eq_of_toNat_eq <;>
    simp only [fromBE16, BitVec.extractLsb'_toNat, toNat_append_eq, Nat.shiftRight_eq_div_pow] <;> omega

theorem fromBE16_be16 (x : BitVec 16) : fromBE16 (x.extractLsb' 8 8) (x.extractLsb' 0 8) = x := by
  have hx := x.isLt
  apply BitVec.eq_of_toNat_eq
  simp only [fromBE16, BitVec.extractLsb'_toNat, toNat_append_eq, Nat.shiftRight_eq_div_pow]
  omega

theorem codec_u32 : Codec takeU32 be32 (fun _ => True) where
  parse := by
    intro w rest _
    simp only [be32, List.cons_append, List.nil_append, takeU32, fromBE32_be32]
  print := by
    intro bs w rest h
    match bs with
    | a :: b :: c :: d :: rest' =>
      cases h
      exact ⟨trivial, by simp [be32_fromBE32]⟩

theorem codec_bytes (n : Nat) : Codec (takeBytes n) id (fun bs => bs.length = n) where
  parse := by
    induction n with
    | zero => intro bs rest h; simp [takeBytes, List.length_eq_zero_iff.mp h]
    | succ n ih =>
      intro bs rest h
      match bs with
      | b :: bs =>
        have := ih bs rest (by simpa using h)
        simp_all [takeBytes]
  print := by
    induction n with
    | zero => intro bs a rest h; cases h; simp
    | succ n ih =>
      intro bs a rest h
      match bs with
      | b :: bs =>
        obtain ⟨⟨xs, r⟩, hx, h⟩ := Option.map_eq_some_iff.mp h
        cases h
        obtain ⟨hl, rfl⟩ := ih _ _ _ hx
        exact ⟨by simp [hl], rfl⟩

/-- A sequence with its 32-bit count before it, from the readers of sequences of a known length (log entry 10). -/
theorem Codec.counted {α : Type} {t : Nat → List Byte → Option (List α × List Byte)} {put : List α → List Byte}
    (ht : ∀ n, Codec (t n) put (fun xs => xs.length = n)) :
    Codec (fun bs => (takeU32 bs).bind fun nr => t nr.1.toNat nr.2)
      (fun xs => be32 (BitVec.ofNat 32 xs.length) ++ put xs) (fun xs => fitsCount xs.length = true) where
  parse := by
    intro xs rest h
    have hn : (BitVec.ofNat 32 xs.length).toNat = xs.length := by
      simpa using Nat.mod_eq_of_lt (of_decide_eq_true h)
    rw [List.append_assoc, codec_u32.parse _ _ trivial, Option.bind_some, hn]
    exact (ht xs.length).parse xs rest rfl
  print := by
    intro bs xs rest h
    obtain ⟨⟨n, r⟩, hn, hx⟩ := Option.bind_eq_some_iff.mp h
    obtain ⟨-, rfl⟩ := codec_u32.print _ _ _ hn
    obtain ⟨hl, rfl⟩ := (ht n.toNat).print _ _ _ hx
    exact ⟨by rw [hl]; exact decide_eq_true n.isLt, by simp [hl]⟩

theorem codec_counted : Codec takeCounted Sys2Proof.counted (fun bs => fitsCount bs.length = true) := .counted codec_bytes

theorem codec_samples (n : Nat) : Codec (takeSamples n) (fun ss => ss.flatMap be16) (fun ss => ss.length = n) where
  parse := by
    induction n with
    | zero => intro ss rest h; simp [takeSamples, List.length_eq_zero_iff.mp h]
    | succ n ih =>
      intro ss rest h
      match ss with
      | x :: ss =>
        have := ih ss rest (by simpa using h)
        simp only [List.flatMap_cons, be16, List.cons_append, List.nil_append] at this ⊢
        rw [takeSamples, this, Option.map_some, fromBE16_be16]
  print := by
    induction n with
    | zero => intro bs a rest h; cases h; simp
    | succ n ih =>
      intro bs ss rest h
      match bs with
      | a :: b :: bs =>
        obtain ⟨⟨xs, r⟩, hx, h⟩ := Option.map_eq_some_iff.mp h
        cases h
        obtain ⟨hl, rfl⟩ := ih _ _ _ hx
        exact ⟨by simp [hl], by simp [be16_fromBE16]⟩

theorem codec_countedSamples : Codec takeCountedSamples countedSamples (fun ss => fitsCount ss.length = true) :=
  .counted codec_samples

theorem codec_words (n : Nat) : Codec (takeWords n) (fun ws => ws.flatMap be32) (fun ws => ws.length = n) where
  parse := by
    induction n with
    | zero => intro ws rest h; simp [takeWords, List.length_eq_zero_iff.mp h]
    | succ n ih =>
      intro ws rest h
      match ws with
      | w :: ws =>
        simp [takeWords, codec_u32.parse, ih ws rest (by simpa using h)]
  print := by
    induction n with
    | zero => intro bs a rest h; cases h; simp
    | succ n ih =>
      intro bs ws rest h
      obtain ⟨⟨w, r⟩, hw, h⟩ := Option.bind_eq_some_iff.mp h
      obtain ⟨⟨xs, r'⟩, hx, h⟩ := Option.map_eq_some_iff.mp h
      cases h
      obtain ⟨-, rfl⟩ := codec_u32.print _ _ _ hw
      obtain ⟨hl, rfl⟩ := ih _ _ _ hx
      exact ⟨by simp [hl], by simp⟩

/-! ### The counts of a configuration -/

/-- The lower bytes of a number do not depend on its higher ones. -/
theorem natBytes_add_mul (n b x : Nat) : natBytes n (b * 2 ^ (8 * n) + x) = natBytes n x := by
  suffices shifted : ∀ k, natBytes n (b * 2 ^ (8 * (n + k)) + x) = natBytes n x from shifted 0
  induction n with
  | zero => exact fun _ => rfl
  | succ n ih =>
    intro k
    have top : BitVec.ofNat 8 ((b * 2 ^ (8 * (n + 1 + k)) + x) >>> (8 * n)) = BitVec.ofNat 8 (x >>> (8 * n)) := by
      apply BitVec.eq_of_toNat_eq
      rw [BitVec.toNat_ofNat, BitVec.toNat_ofNat, Nat.shiftRight_eq_div_pow, Nat.shiftRight_eq_div_pow,
        show b * 2 ^ (8 * (n + 1 + k)) = 2 ^ (8 * n) * (2 ^ 8 * (b * 2 ^ (8 * k))) by ring,
        Nat.mul_add_div (by positivity), Nat.mul_add_mod]
    rw [natBytes, natBytes, top, show n + 1 + k = n + (k + 1) by omega, ih (k + 1)]

theorem codec_nat (n : Nat) : Codec (takeNat n) (natBytes n) (fun x => x < 2 ^ (8 * n)) where
  parse := by
    induction n with
    | zero => intro x rest h; simp_all [takeNat, natBytes]
    | succ n ih =>
      intro x rest h
      have hhigh : x / 2 ^ (8 * n) < 2 ^ 8 :=
        Nat.div_lt_of_lt_mul (by rwa [← pow_add, show 8 * n + 8 = 8 * (n + 1) by omega])
      have hsplit : x / 2 ^ (8 * n) * 2 ^ (8 * n) + x % 2 ^ (8 * n) = x := Nat.div_add_mod' _ _
      have hlow : natBytes n x = natBytes n (x % 2 ^ (8 * n)) := by
        conv_lhs => rw [← hsplit]
        exact natBytes_add_mul _ _ _
      rw [natBytes, List.cons_append, takeNat, hlow, ih _ rest (Nat.mod_lt _ (by positivity)), Option.map_some]
      simp only [BitVec.toNat_ofNat, Nat.shiftRight_eq_div_pow, Nat.mod_eq_of_lt hhigh, hsplit]
  print := by
    induction n with
    | zero => intro bs x rest h; cases h; simp [natBytes]
    | succ n ih =>
      intro bs x rest h
      match bs with
      | b :: bs =>
        obtain ⟨⟨y, r⟩, hy, h⟩ := Option.map_eq_some_iff.mp h
        cases h
        obtain ⟨hlt, rfl⟩ := ih _ _ _ hy
        have hb : b.toNat + 1 ≤ 2 ^ 8 := b.isLt
        have top : BitVec.ofNat 8 ((b.toNat * 2 ^ (8 * n) + y) >>> (8 * n)) = b := by
          rw [Nat.shiftRight_eq_div_pow, Nat.mul_comm, Nat.mul_add_div (by positivity), Nat.div_eq_of_lt hlt]
          simp
        refine ⟨?_, by rw [natBytes, top, natBytes_add_mul, List.cons_append]⟩
        calc b.toNat * 2 ^ (8 * n) + y < (b.toNat + 1) * 2 ^ (8 * n) := by rw [Nat.add_mul, Nat.one_mul]; exact Nat.add_lt_add_left hlt _
          _ ≤ 2 ^ 8 * 2 ^ (8 * n) := Nat.mul_le_mul_right _ hb
          _ = 2 ^ (8 * (n + 1)) := by ring

/-- A count of `CFG_COUNT_BITS` bits in its whole bytes (log entry 10). -/
theorem codec_count : Codec (takeCount p) (natBytes (countBytes p)) (fun n => n < 2 ^ p.cfgCountBits) where
  parse := by
    intro n rest h
    have wide : n < 2 ^ (8 * countBytes p) :=
      Nat.lt_of_lt_of_le h (Nat.pow_le_pow_right (by decide) (by unfold countBytes; omega))
    simp [takeCount, (codec_nat _).parse n rest wide, h]
  print := by
    intro bs n rest h
    obtain ⟨⟨m, r⟩, hm, h⟩ := Option.bind_eq_some_iff.mp h
    obtain ⟨hlt, h⟩ := Option.ite_none_right_eq_some.mp h
    cases h
    exact ⟨hlt, ((codec_nat _).print _ _ _ hm).2⟩

end Sys2Proof
end

section
/-! SUPPORT. Instructions and requests: the operands of each host command, the three wire transfers, and the two round trips. -/

namespace Sys2Proof

open Sys2Proof.Config Sys2Proof.Machine

variable {p : Params}

/-! ### Operands of the host commands -/

theorem codec_variant : Codec takeVariant (fun v => [variantByte v]) (fun _ => True) where
  parse := by
    intro v rest _
    cases v <;> rfl
  print := by
    intro bs v rest h
    match bs with
    | b :: bs =>
      simp only [takeVariant] at h
      split at h
      · next hb => cases h; exact ⟨trivial, by simp [variantByte, hb]⟩
      · split at h
        · next hb => cases h; exact ⟨trivial, by simp [variantByte, hb]⟩
        · cases h

theorem Configuration.wellFormed_iff {c : Configuration} :
    c.wellFormed p = true ↔ configurationFormed p c = true ∧
      fitsCount c.txAntennas.length = true ∧ fitsCount c.txPower.length = true ∧ fitsCount c.ifGain.length = true ∧
      fitsCount c.fLower.length = true ∧ fitsCount c.fUpper.length = true ∧ fitsCount c.chirpRepTime.length = true ∧
      fitsCount c.frameRepTime.length = true ∧ fitsCount c.sampleRate.length = true := by
  simp [Configuration.wellFormed, and_assoc]

/-- The fields of a configuration in the order in which they are read (10_state.md R24). -/
abbrev ConfigurationFields : Type :=
  Nat × Opaque × Opaque × Opaque × Opaque × Opaque × Nat × Nat × Opaque × Opaque × Opaque × List Word32

/-- The configuration of its fields. -/
def Configuration.ofFields : ConfigurationFields → Configuration
  | (rx, tx, power, gain, lower, upper, chirps, samples, chirpRep, frameRep, rate, words) =>
    { rxAntennas := rx, txAntennas := tx, txPower := power, ifGain := gain, fLower := lower, fUpper := upper,
      chirpsPerFrame := chirps, samplesPerChirp := samples, chirpRepTime := chirpRep, frameRepTime := frameRep,
      sampleRate := rate, words := words }

/-- `CONFIGURE`'s operand is its fields one after the other (log entry 10). -/
theorem codec_configuration :
    Codec (takeConfiguration p) (configurationBytes p) (fun c => c.wellFormed p = true) := by
  refine Codec.map (codec_count.both <| codec_counted.both <| codec_counted.both <| codec_counted.both <|
    codec_counted.both <| codec_counted.both <| codec_count.both <| codec_count.both <| codec_counted.both <|
    codec_counted.both <| codec_counted.both (codec_words nRegwords)) Configuration.ofFields ?_ ?_
  · intro c hc
    obtain ⟨hf, h1, h2, h3, h4, h5, h6, h7, h8⟩ := Configuration.wellFormed_iff.mp hc
    obtain ⟨hw, hrx, hch, hsa⟩ := configurationFormed_iff.mp hf
    exact ⟨(c.rxAntennas, c.txAntennas, c.txPower, c.ifGain, c.fLower, c.fUpper, c.chirpsPerFrame, c.samplesPerChirp,
      c.chirpRepTime, c.frameRepTime, c.sampleRate, c.words), ⟨hrx, h1, h2, h3, h4, h5, hch, hsa, h6, h7, h8, hw⟩, rfl⟩
  · rintro ⟨rx, tx, power, gain, lower, upper, chirps, samples, chirpRep, frameRep, rate, words⟩
      ⟨hrx, h1, h2, h3, h4, h5, hch, hsa, h6, h7, h8, hw⟩
    exact ⟨Configuration.wellFormed_iff.mpr
      ⟨configurationFormed_iff.mpr ⟨hw, hrx, hch, hsa⟩, h1, h2, h3, h4, h5, h6, h7, h8⟩, rfl⟩

/-- The operand bytes of a host command (30_encoding.md R80, R81; log entry 10). -/
def operandBytes (p : Params) : Instr → List Byte
  | .init v => [variantByte v]
  | .configure cfg => configurationBytes p cfg
  | .acquireFifo cmd out => counted cmd ++ countedSamples out
  | .nextTestWord w => be16 w
  | _ => []

/-- A host command is spelt by its code and its operand bytes (30_encoding.md R80). -/
theorem encode_of_hostOp {i : Instr} {c : HostOp} (h : i.hostOp = some c) :
    encode p i = .command (p.hostOp c :: operandBytes p i) := by
  cases i <;> cases h <;> rfl

theorem codec_testWord :
    Codec (takeOperands p .nextTestWord) (operandBytes p) (fun i => i.hostOp = some .nextTestWord ∧ i.WellFormed p) where
  parse := by
    rintro i rest ⟨h, -⟩
    cases i <;> cases h
    simp [takeOperands, operandBytes, be16, fromBE16_be16]
  print := by
    intro bs i rest h
    match bs with
    | a :: b :: r =>
      cases h
      exact ⟨⟨rfl, rfl⟩, by simp [operandBytes, be16_fromBE16]⟩

/-- A command whose only instruction is `i` has no operands: nothing is read or spelt after its code. -/
theorem codec_noOperands {c : HostOp} {i : Instr} (taken : takeOperands p c = fun bs => some (i, bs))
    (only : ∀ j : Instr, j.hostOp = some c → j = i) (host : i.hostOp = some c) (wf : i.WellFormed p)
    (spelt : operandBytes p i = []) :
    Codec (takeOperands p c) (operandBytes p) (fun j => j.hostOp = some c ∧ j.WellFormed p) :=
  taken ▸ .unit i (fun j => ⟨fun h => only j h.1, fun h => h ▸ ⟨host, wf⟩⟩) spelt

/-- The operands of each host command are read and spelt by a codec of the well-formed instructions of that command
(30_encoding.md R81). -/
theorem codec_operands (c : HostOp) :
    Codec (takeOperands p c) (operandBytes p) (fun i => i.hostOp = some c ∧ i.WellFormed p) := by
  cases c with
  | init =>
    refine codec_variant.map Instr.init ?_ fun v _ => ⟨⟨rfl, rfl⟩, rfl⟩
    rintro i ⟨h, -⟩
    cases i <;> cases h
    exact ⟨_, trivial, rfl⟩
  | configure =>
    refine codec_configuration.map Instr.configure ?_ fun c hc => ⟨⟨rfl, hc⟩, rfl⟩
    rintro i ⟨h, hw⟩
    cases i <;> cases h
    exact ⟨_, hw, rfl⟩
  | acquireFifo =>
    refine (codec_counted.both codec_countedSamples).map (fun b => Instr.acquireFifo b.1 b.2) ?_ fun b hb =>
      ⟨⟨rfl, by simpa [Instr.WellFormed, Instr.wellFormed] using hb⟩, rfl⟩
    rintro i ⟨h, hw⟩
    cases i <;> cases h
    exact ⟨(_, _), by simpa [Instr.WellFormed, Instr.wellFormed] using hw, rfl⟩
  | nextTestWord => exact codec_testWord
  | enableTestMode => exact codec_noOperands rfl (fun j h => by cases j <;> cases h; rfl) rfl rfl rfl
  | start => exact codec_noOperands rfl (fun j h => by cases j <;> cases h; rfl) rfl rfl rfl
  | stop => exact codec_noOperands rfl (fun j h => by cases j <;> cases h; rfl) rfl rfl rfl
  | readChipId => exact codec_noOperands rfl (fun j h => by cases j <;> cases h; rfl) rfl rfl rfl
  | resetFifo => exact codec_noOperands rfl (fun j h => by cases j <;> cases h; rfl) rfl rfl rfl

/-! ### Host commands -/

theorem HostOp.mem_all (c : HostOp) : c ∈ HostOp.all := by cases c <;> decide

/-- A code is that of the command found for it (30_encoding.md R80). -/
theorem hostOp_of_hostOpOf {op : Byte} {c : HostOp} (h : hostOpOf p op = some c) : p.hostOp c = op := by
  simpa using List.find?_some h

/-- Distinct codes select their commands (30_encoding.md R80). -/
theorem hostOpOf_hostOp (distinct : p.CodesDistinct) (c : HostOp) : hostOpOf p (p.hostOp c) = some c := by
  obtain ⟨d, hd⟩ : ∃ d, hostOpOf p (p.hostOp c) = some d :=
    Option.isSome_iff_exists.mp (List.find?_isSome.mpr ⟨c, c.mem_all, by simp⟩)
  rw [hd, distinct d c (hostOp_of_hostOpOf hd)]

theorem decodeCommand_encode (distinct : p.CodesDistinct) {i : Instr} {c : HostOp} (hc : i.hostOp = some c)
    (hw : i.WellFormed p) : decodeCommand p (p.hostOp c :: operandBytes p i) = .ok i := by
  have taken := (codec_operands (p := p) c).parse i [] ⟨hc, hw⟩
  rw [List.append_nil] at taken
  simp [decodeCommand, hostOpOf_hostOp distinct, taken]

theorem encode_decodeCommand {bytes : List Byte} {i : Instr} (h : decodeCommand p bytes = .ok i) :
    i.WellFormed p ∧ encode p i = .command bytes := by
  unfold decodeCommand at h
  split at h
  · cases h
  · next op operands =>
    split at h
    · cases h
    · next c hop =>
      split at h
      · next taken =>
        cases h
        obtain ⟨⟨hc, hw⟩, rfl⟩ := (codec_operands c).print _ _ _ taken
        exact ⟨hw, by rw [encode_of_hostOp hc, hostOp_of_hostOpOf hop, List.append_nil]⟩
      · cases h

/-! ### Wire transfers -/

/-- The three parts of the big-endian view of four bytes: the address and the direction of the first, and the other three
(30_encoding.md R70, R87). -/
theorem fromBE32_addr (a : RegAddr) (d : BitVec 1) (b c e : Byte) :
    (fromBE32 (cmdByte a d) b c e).extractLsb' 25 7 = a ∧ (fromBE32 (cmdByte a d) b c e).extractLsb' 24 1 = d ∧
      (fromBE32 (cmdByte a d) b c e).extractLsb' 0 24 = fromBE24 b c e := by
  have := a.isLt
  have := d.isLt
  have := b.isLt
  have := c.isLt
  have := e.isLt
  refine ⟨?_, ?_, ?_⟩ <;> apply BitVec.eq_of_toNat_eq <;>
    simp only [fromBE32, fromBE24, cmdByte, BitVec.extractLsb'_toNat, toNat_append_eq, Nat.shiftRight_eq_div_pow] <;> omega

/-- A byte is the command byte of its two parts (30_encoding.md R70). -/
theorem exists_cmdByte (b : Byte) : ∃ a d, b = cmdByte a d := by
  have := b.isLt
  refine ⟨b.extractLsb' 1 7, b.extractLsb' 0 1, BitVec.eq_of_toNat_eq ?_⟩
  simp only [cmdByte, BitVec.extractLsb'_toNat, toNat_append_eq, Nat.shiftRight_eq_div_pow]
  omega

theorem be24_fromBE24 (a b c : Byte) : be24 (fromBE24 a b c) = [a, b, c] := by
  have := a.isLt
  have := b.isLt
  have := c.isLt
  simp only [be24, List.cons.injEq, and_true]
  refine ⟨?_, ?_, ?_⟩ <;> apply BitVec.eq_of_toNat_eq <;>
    simp only [fromBE24, BitVec.extractLsb'_toNat, toNat_append_eq, Nat.shiftRight_eq_div_pow] <;> omega

/-- A direction that is not that of a write is that of a read (decision D3). -/
theorem ne_dirWrite_iff (d : BitVec 1) : d ≠ dirWrite p ↔ d = p.dirRead := by
  unfold dirWrite
  generalize p.dirRead = r
  revert d r
  decide

/-- The fields of a burst word as numbers (30_encoding.md R75). -/
theorem packBurst_toNat (f : BurstFields) :
    (packBurst f).toNat = f.taddr.toNat * 2 ^ 25 + f.rw.toNat * 2 ^ 24 + f.saddr.toNat * 2 ^ 17 + f.rwb.toNat * 2 ^ 16 +
      f.nbursts.toNat * 2 ^ 9 + f.pad.toNat := by
  simp only [packBurst, toNat_append_eq]
  omega

theorem unpackBurst_packBurst (f : BurstFields) : unpackBurst (packBurst f) = f := by
  obtain ⟨taddr, rw, saddr, rwb, nbursts, pad⟩ := f
  have := taddr.isLt
  have := rw.isLt
  have := saddr.isLt
  have := rwb.isLt
  have := nbursts.isLt
  have := pad.isLt
  simp only [unpackBurst, BurstFields.mk.injEq]
  refine ⟨?_, ?_, ?_, ?_, ?_, ?_⟩ <;> apply BitVec.eq_of_toNat_eq <;>
    simp only [BitVec.extractLsb'_toNat, packBurst_toNat, Nat.shiftRight_eq_div_pow] <;> omega

theorem packBurst_unpackBurst (w : Word32) : packBurst (unpackBurst w) = w := by
  have := w.isLt
  apply BitVec.eq_of_toNat_eq
  simp only [packBurst_toNat, unpackBurst, BitVec.extractLsb'_toNat, Nat.shiftRight_eq_div_pow]
  omega

theorem decodeTransfer_readFrame (a : RegAddr) : decodeTransfer p (readFrame p a) = .ok (.spiRead a) := by
  obtain ⟨haddr, hdir, hval⟩ := fromBE32_addr a p.dirRead 0 0 0
  have zero : fromBE24 0 0 0 = 0 := rfl
  simp only [decodeTransfer, readFrame, haddr, hdir, hval, zero, if_neg ((ne_dirWrite_iff p.dirRead).mpr rfl), if_true]

theorem decodeTransfer_writeFrame (a : RegAddr) (v : RegValue) : decodeTransfer p (writeFrame p a v) = .ok (.spiWrite a v) := by
  obtain ⟨haddr, hdir, hval⟩ :=
    fromBE32_addr a (dirWrite p) (v.extractLsb' 16 8) (v.extractLsb' 8 8) (v.extractLsb' 0 8)
  simp [decodeTransfer, writeFrame, be24, haddr, hdir, hval, fromBE24_be24]

theorem decodeTransfer_burst {w : BurstFields} {tail : List Byte} (h : isBurstTransfer p w tail.length = true) :
    decodeTransfer p (be32 (packBurst w) ++ tail) = .ok (.spiBurstRead w tail) := by
  have longer : tail ≠ [] := by
    rintro rfl
    obtain ⟨v, limit, -, hv, h0⟩ := isBurstTransfer_iff.mp h
    have := isPayload_pos (isPayload_iff.mpr ⟨limit, hv, h0⟩)
    simp at this
  simp [decodeTransfer, be32, fromBE32_be32, longer, unpackBurst_packBurst, isFifoBurst_of_isBurstTransfer h, h]

/-- Four bytes that decode are one of the two single-register frames (30_encoding.md R71, R72). -/
theorem encode_decodeFrame {b0 b1 b2 b3 : Byte} {i : Instr} (h : decodeTransfer p [b0, b1, b2, b3] = .ok i) :
    i.WellFormed p ∧ encode p i = .transfer [b0, b1, b2, b3] := by
  obtain ⟨a, d, rfl⟩ := exists_cmdByte b0
  obtain ⟨haddr, hdir, hval⟩ := fromBE32_addr a d b1 b2 b3
  simp only [decodeTransfer, if_true, haddr, hdir, hval] at h
  split at h
  · next hd =>
    cases h
    exact ⟨rfl, by simp [encode, writeFrame, be24_fromBE24, hd]⟩
  · next hd =>
    split at h
    · next h0 =>
      cases h
      have zeros : [b1, b2, b3] = [0, 0, 0] := by rw [← be24_fromBE24, h0]; rfl
      exact ⟨rfl, by simp [encode, readFrame, zeros, (ne_dirWrite_iff d).mp hd]⟩
    · cases h

/-- More than four bytes that decode are a burst of 30_encoding.md R77. -/
theorem encode_decodeBurst {b0 b1 b2 b3 : Byte} {tail : List Byte} {i : Instr} (longer : tail ≠ [])
    (h : decodeTransfer p (b0 :: b1 :: b2 :: b3 :: tail) = .ok i) :
    i.WellFormed p ∧ encode p i = .transfer (b0 :: b1 :: b2 :: b3 :: tail) := by
  simp only [decodeTransfer, if_neg longer] at h
  split at h
  · split at h
    · next hb =>
      cases h
      exact ⟨hb, by simp [encode, packBurst_unpackBurst, be32_fromBE32]⟩
    · cases h
  · cases h

theorem encode_decodeTransfer {mosi : List Byte} {i : Instr} (h : decodeTransfer p mosi = .ok i) :
    i.WellFormed p ∧ encode p i = .transfer mosi := by
  match mosi with
  | [] | [_] | [_, _] | [_, _, _] => cases h
  | [_, _, _, _] => exact encode_decodeFrame h
  | _ :: _ :: _ :: _ :: _ :: _ => exact encode_decodeBurst (List.cons_ne_nil _ _) h

/-! ### The statements -/

/-- Settles O1, host commands by their operands' codec and wire rows frame by frame. -/
theorem decodeOfEncodeIsTheInstruction : Obligations.DecodeOfEncodeIsTheInstruction := by
  intro p i distinct hw
  cases hc : i.hostOp with
  | some c =>
    rw [encode_of_hostOp hc]
    exact decodeCommand_encode distinct hc hw
  | none =>
    cases i with
    | spiRead a => exact decodeTransfer_readFrame a
    | spiWrite a v => exact decodeTransfer_writeFrame a v
    | spiBurstRead w tail => exact decodeTransfer_burst hw
    | _ => cases hc

/-- Settles O2, on each of the two surfaces. -/
theorem encodeOfDecodeIsTheRequest : Obligations.EncodeOfDecodeIsTheRequest := by
  intro p r i h
  cases r with
  | command bytes => exact encode_decodeCommand h
  | transfer mosi => exact encode_decodeTransfer h

/-- Settles O6, from the burst word as a number. -/
theorem burstWordPacksItsFields : Obligations.BurstWordPacksItsFields :=
  fun f => ⟨packBurst_toNat f, unpackBurst_packBurst f⟩

/-- Settles O3, word by word. -/
theorem wordsOfTheSpecDecode : Obligations.WordsOfTheSpecDecode := by
  refine ⟨?_, ?_, ?_, ?_, ?_, ?_⟩ <;> decide

end Sys2Proof
end

section
/-! SUPPORT. The meaning of each instruction once it is accepted (41_control_sequences.md R135): with no command in flight and its
guard met, at any values of the parameters. -/

namespace Sys2Proof.Machine

open Sys2Proof.Config

section Accepted

variable {p : Params} {s : State} (hcmd : s.cmd = none)

include hcmd

theorem execWith_init (v : Variant) (hl : s.life = .uninit) :
    execWith p (.init v) s = .next (finish .init (initSeq p v s)) :=
  accept_of s _ _ hcmd (by simp [hl])

theorem execWith_nextTestWord (w : BitVec 16) :
    execWith p (.nextTestWord w) s = .next (finish .nextTestWord (.ok (.word (lfsrNext p w)) s)) :=
  accept_true s _ hcmd

/-- A guard of a constructed block that is met (41_control_sequences.md R135). -/
theorem accept_constructed (hl : s.life ≠ .uninit) (k : Host.Outcome State Fault Refusal) : accept s (constructed s) k = k :=
  accept_of s _ k hcmd ((constructed_iff s).mpr hl)

variable (hl : s.life ≠ .uninit)

include hl

theorem execWith_configure {v : Variant} {cfg : Configuration} (hv : s.variant = some v)
    (formed : configurationFormed p cfg = true) :
    execWith p (.configure cfg) s = .next (finish .configure (configureSeq p v cfg s)) :=
  (accept_constructed hcmd hl _).trans (by simp only [formed, if_true, hv])

theorem execWith_configure_illFormed {cfg : Configuration} (h : configurationFormed p cfg = false) :
    execWith p (.configure cfg) s = .refused .operandForm :=
  (accept_constructed hcmd hl _).trans (by simp [h])

theorem execWith_enableTestMode :
    execWith p .enableTestMode s =
      .next (finish .enableTestMode ((strobe p p.addrSfctl p.sfctlLfsrEn s).bind fun _ s1 => .ok .none s1)) :=
  accept_constructed hcmd hl _

theorem execWith_start : execWith p .start s = .next (finish .start (startSeq p s)) := accept_constructed hcmd hl _

theorem execWith_stop :
    execWith p .stop s = .next (finish .stop ((resetFsm p s).bind fun _ s1 =>
      .ok .none (if s1.life = .running then { s1 with life := .armed } else s1))) :=
  accept_constructed hcmd hl _

theorem execWith_readChipId :
    execWith p .readChipId s =
      .next (finish .readChipId ((chipIdSeq p s).bind fun id s1 => .ok (.chipId id.digitalId id.rfId) s1)) :=
  accept_constructed hcmd hl _

theorem execWith_resetFifo :
    execWith p .resetFifo s = .next (finish .resetFifo ((resetFifoSeq p s).bind fun _ s1 => .ok .none s1)) :=
  accept_constructed hcmd hl _

theorem execWith_acquireFifo_unconfigured (cmd : List Byte) (out : List Sample) (hc : s.config = none) :
    execWith p (.acquireFifo cmd out) s = .next (raiseError .acquireFifo .noConfiguration (handOver cmd out s)) :=
  (accept_constructed hcmd hl _).trans (by simp only [hc])

theorem execWith_acquireFifo (cmd : List Byte) (out : List Sample) {v : Variant} {cfg : Configuration}
    (hc : s.config = some cfg) (hv : s.variant = some v) :
    execWith p (.acquireFifo cmd out) s = .next (acquireChecked p v cfg (handOver cmd out s)) :=
  (accept_constructed hcmd hl _).trans (by simp only [hc, hv])

theorem execWith_spiRead (a : RegAddr) :
    execWith p (.spiRead a) s =
      .next (finishTransfer ((readRegister p a s).bind fun r s1 => .ok (.value r.1 r.2) s1)) :=
  accept_constructed hcmd hl _

theorem execWith_spiWrite (a : RegAddr) (v : RegValue) :
    execWith p (.spiWrite a v) s =
      .next (finishTransfer ((writeRegister p a v s).bind fun g s1 => .ok (.status g) s1)) :=
  accept_constructed hcmd hl _

theorem execWith_spiBurstRead {v : Variant} (tail : List Byte) (hv : s.variant = some v) :
    execWith p (.spiBurstRead (burstFields p v) tail) s =
      .next (finishTransfer ((burstChecked p (handOver (be32 (burstWord p v) ++ tail) s.outBuf s)).bind fun r s1 =>
        .ok (.status r.1) s1)) :=
  (accept_constructed hcmd hl _).trans (by simp only [hv, if_true, burstWord])

theorem execWith_spiBurstRead_otherWord {v : Variant} {w : BurstFields} (tail : List Byte) (hv : s.variant = some v)
    (hw : w ≠ burstFields p v) : execWith p (.spiBurstRead w tail) s = .refused .wireForm :=
  (accept_constructed hcmd hl _).trans (by simp only [hv, if_neg hw])

end Accepted

/-! ### How a command ends -/

/-- A host command that succeeds with no command in flight adds its result event and nothing else (60_exceptions.md R231). -/
theorem finish_ok_of_cmd_none (c : HostOp) (v : Value) (s : State) (hcmd : s.cmd = none) :
    finish c (.ok v s) = emit (.result c (.ok v)) s := by
  rw [finish, returnValue, ← hcmd]
  rfl

end Sys2Proof.Machine
end

section
/-! SUPPORT. Invariants of every step (10_state.md, 70_reset_and_hazards.md R262) and the frame of every instruction, each from what
`Ran` says an instruction can do. -/

namespace Sys2Proof.Machine

open Sys2Proof.Config

variable {p : Params}

/-! ### The legal combinations of life, variant and configuration -/

/-- The part of `State.Inv` about life, variant and configuration (10_state.md R21, R22, R24). -/
structure LegalBlock (p : Params) (l : Life) (variant : Option Variant) (config : Option Configuration) : Prop where
  variant_iff : variant = none ↔ l = .uninit
  config_iff : config ≠ none ↔ (l = .armed ∨ l = .running)
  config_valid : ∀ cfg v, config = some cfg → variant = some v →
    fifoLimitValid p v (fifoLimit cfg) = true ∧ configurationFormed p cfg = true

theorem State.Inv.block {s : State} (h : s.Inv p) : LegalBlock p s.life s.variant s.config :=
  ⟨h.variant_iff, h.config_iff, h.config_valid⟩

/-- With no command in flight only the block and the command buffer have to be legal. -/
theorem LegalBlock.inv {t : State} (h : LegalBlock p t.life t.variant t.config) (cmd : t.cmd = none) (wf : t.cmdMem.wf)
    (bound : ∀ c ∈ t.cmdMem, c.1 < t.cmdLen) : t.Inv p where
  variant_iff := h.variant_iff
  config_iff := h.config_iff
  config_valid := h.config_valid
  waiting := by simp [cmd]
  mem_wf := wf
  mem_bound := bound

/-- The block after `INIT` (41_control_sequences.md R129). -/
theorem LegalBlock.idle (v : Variant) : LegalBlock p .idle (some v) none := ⟨by simp, by simp, by simp⟩

variable {l : Life} {variant : Option Variant} {config : Option Configuration}

/-- The block after a `CONFIGURE` that failed (41_control_sequences.md R130). -/
theorem LegalBlock.discarded (h : LegalBlock p l variant config) (hl : l ≠ .uninit) : LegalBlock p .idle variant none :=
  ⟨by simp [h.variant_iff, hl], by simp, by simp⟩

/-- The block after a `CONFIGURE` that succeeded (41_control_sequences.md R130). -/
theorem LegalBlock.armed {v : Variant} {cfg : Configuration} (formed : configurationFormed p cfg = true)
    (valid : fifoLimitValid p v (fifoLimit cfg) = true) : LegalBlock p .armed (some v) (some cfg) := by
  refine ⟨by simp, by simp, ?_⟩
  rintro _ _ ⟨⟩ ⟨⟩
  exact ⟨valid, formed⟩

/-- A configured block may be armed or running (10_state.md R21). -/
theorem LegalBlock.configured (h : LegalBlock p l variant config) (hc : config ≠ none) {l' : Life}
    (hl' : l' = .armed ∨ l' = .running) : LegalBlock p l' variant config := by
  have hl : l ≠ .uninit := by rintro rfl; simpa using h.config_iff.mp hc
  have hl'' : l' ≠ .uninit := by rintro rfl; simp at hl'
  exact ⟨by simp [h.variant_iff, hl, hl''], by simp [hc, hl'], h.config_valid⟩

/-! ### Legal states -/

/-- An instruction of a legal state leaves a legal state. -/
theorem Ran.inv {s t : State} {i : Instr} (h : Ran p s i t) (hi : s.Inv p) (hcmd : s.cmd = none) : t.Inv p := by
  cases h with
  | initOk v => exact LegalBlock.inv (LegalBlock.idle v) rfl hi.mem_wf hi.mem_bound
  | initError => exact LegalBlock.inv hi.block rfl hi.mem_wf hi.mem_bound
  | configureOk cfg v xi d es life variant formed valid =>
    exact LegalBlock.inv (variant ▸ LegalBlock.armed formed valid) rfl hi.mem_wf hi.mem_bound
  | configureError cfg xi d es r life => exact LegalBlock.inv (hi.block.discarded life) rfl hi.mem_wf hi.mem_bound
  | start xi d es q life port config =>
    refine LegalBlock.inv ?_ rfl hi.mem_wf hi.mem_bound
    by_cases hq : q.isOk = true
    · simpa [hq] using hi.block.configured (config hq) (.inr rfl)
    · simpa [hq] using hi.block
  | stop xi d es q life =>
    refine LegalBlock.inv ?_ rfl hi.mem_wf hi.mem_bound
    by_cases hq : q.isOk = true ∧ s.life = .running
    · simpa [hq] using hi.block.configured (hi.config_iff.mpr (.inr hq.2)) (.inl rfl)
    · simpa [hq] using hi.block
  | ported => exact LegalBlock.inv hi.block rfl hi.mem_wf hi.mem_bound
  | acquireWaits cmd out v cfg last life config variant cmdLen outLen =>
    exact {
      variant_iff := hi.variant_iff
      config_iff := hi.config_iff
      config_valid := hi.config_valid
      waiting := by rintro _ _ _ ⟨⟩; exact ⟨variant, ⟨cfg, config, rfl⟩, cmdLen, outLen⟩
      mem_wf := writeBytes_wf _ _ _ nil_wf
      mem_bound := writeBytes_bound _ _ _ _ (by simp) (by simp) }
  | acquireEnds cmd out rest xi d mem es q ob life quiet kept inside =>
    have handed : ∀ c ∈ (handOver cmd out s).cmdMem, c.1 < cmd.length := writeBytes_bound _ _ _ _ (by simp) (by simp)
    refine LegalBlock.inv hi.block rfl (kept.1 (writeBytes_wf _ _ _ nil_wf)) ?_
    rcases inside with h4 | rfl
    exacts [kept.2 h4 handed, handed]
  | transfer => exact LegalBlock.inv hi.block hcmd hi.mem_wf hi.mem_bound
  | burst v w tail xi d mem es f wf bound => exact LegalBlock.inv hi.block hcmd wf bound

/-- Only `INIT` sets the variant, and it runs only where there is none (41_control_sequences.md R129). -/
theorem Ran.variant_kept {s t : State} {i : Instr} (h : Ran p s i t) (hi : s.Inv p) {v : Variant} (hv : s.variant = some v) :
    t.variant = some v := by
  cases h with
  | initOk _ _ _ _ _ _ life => simp [hi.variant_iff.mpr life] at hv
  | _ => exact hv

/-- A waiting acquisition that goes on, or ends, leaves a legal state: its buffers keep their lengths. -/
theorem acquireFromWait_inv {s : State} {v : Variant} {limit : Nat} {last : Option Level} (hi : s.Inv p)
    (hw : s.cmd = some (.acquireWait v limit last)) : (acquireFromWait p v limit last s).Inv p := by
  obtain ⟨hv, hc, hlen, hout⟩ := hi.waiting v limit last hw
  rcases acquireFromWait_cases v limit last s with ⟨last', h⟩ | ⟨rest, xi, d, mem, es, q, ob, h, -, -, kept, -⟩ <;> rw [h]
  · exact { hi with waiting := by rintro _ _ _ ⟨⟩; exact ⟨hv, hc, hlen, hout⟩ }
  · exact LegalBlock.inv hi.block rfl (kept.1 hi.mem_wf) (kept.2 (by omega) hi.mem_bound)

theorem acquireFromWait_variant (v : Variant) (limit : Nat) (last : Option Level) (s : State) :
    (acquireFromWait p v limit last s).variant = s.variant := by
  rcases acquireFromWait_cases (p := p) v limit last s with ⟨last', h⟩ | ⟨rest, xi, d, mem, es, q, ob, h, -⟩ <;> rw [h]

/-- Taking a request off the list changes nothing that a legal state is about. -/
theorem State.Inv.requests {s : State} (hi : s.Inv p) (rest : List Request) : ({ s with requests := rest } : State).Inv p :=
  { hi with }

theorem stepWith_inv {s t : State} (hi : s.Inv p) (h : stepWith p s = .next t) :
    t.Inv p ∧ ∀ v, s.variant = some v → t.variant = some v := by
  rcases stepWith_cases h with ⟨v, limit, last, hw, rfl⟩ | ⟨-, -, rfl⟩ | ⟨r, rest, i, hc, -, -, ran⟩
  · exact ⟨acquireFromWait_inv hi hw, fun _ hv => (acquireFromWait_variant ..).trans hv⟩
  · exact ⟨hi, fun _ => id⟩
  · exact ⟨ran.inv (hi.requests rest) hc, fun _ hv => ran.variant_kept (hi.requests rest) hv⟩

/-! ### The reset pulse comes first -/

/-- Appended to a trace that holds a reset pulse, every event comes after one. -/
theorem XfersAfterPulse.append_of_pulsed {t : List Event} (h : XfersAfterPulse t) (pulsed : resetPulse <:+: t)
    (es : List Event) : XfersAfterPulse (t ++ es) := by
  intro pre tx rx post heq
  rcases List.append_eq_append_iff.mp heq with ⟨as, rfl, -⟩ | ⟨bs, rfl, hbs⟩
  · exact pulsed.trans (List.prefix_append t as).isInfix
  · cases bs with
    | nil => simpa using pulsed
    | cons b bs =>
      cases hbs
      exact h pre tx rx bs rfl

/-- Events that are no transfers need no pulse before them. -/
theorem XfersAfterPulse.append_of_noXfer {t es : List Event} (h : XfersAfterPulse t) (hes : ∀ e ∈ es, e.isXfer = false) :
    XfersAfterPulse (t ++ es) := by
  intro pre tx rx post heq
  rcases List.append_eq_append_iff.mp heq with ⟨as, -, rfl⟩ | ⟨bs, rfl, hbs⟩
  · exact nomatch hes (.xfer tx rx) (by simp)
  · cases bs with
    | nil =>
      obtain rfl : es = .xfer tx rx :: post := hbs.symm
      exact nomatch hes (.xfer tx rx) (by simp)
    | cons b bs =>
      cases hbs
      exact h pre tx rx bs rfl

/-- From `s` to `t` the trace grows as R262 allows (70_reset_and_hazards.md): the block was constructed, or the events begin with
a whole reset pulse, or no transfer is among them and the block stays unconstructed. -/
def GrowsAfterPulse (s t : State) : Prop :=
  ∃ es, t.trace = s.trace ++ es ∧
    (s.life ≠ .uninit ∨ (∃ es', es = resetPulse ++ es') ∨ ((∀ e ∈ es, e.isXfer = false) ∧ t.life = .uninit))

theorem GrowsAfterPulse.pulseFirst {s t : State} (h : GrowsAfterPulse s t) (hs : s.PulseFirst p) (hi : t.Inv p) :
    t.PulseFirst p := by
  obtain ⟨es, ht, built | ⟨es', rfl⟩ | ⟨noXfer, life⟩⟩ := h
  · have pulse := hs.pulsed built
    exact ⟨hi, fun _ => ht ▸ pulse.trans (List.prefix_append _ es).isInfix, ht ▸ hs.order.append_of_pulsed pulse es⟩
  · have pulse : resetPulse <:+: s.trace ++ resetPulse := (List.suffix_append _ _).isInfix
    have order : XfersAfterPulse (s.trace ++ resetPulse) := hs.order.append_of_noXfer (by decide)
    rw [← List.append_assoc] at ht
    exact ⟨hi, fun _ => ht ▸ pulse.trans (List.prefix_append _ es').isInfix, ht ▸ order.append_of_pulsed pulse es'⟩
  · exact ⟨hi, fun built => absurd life built, ht ▸ hs.order.append_of_noXfer noXfer⟩

/-- A result is no transfer, so what comes before it decides. -/
theorem GrowsAfterPulse.of_result {s t : State} {es : List Event} {c : HostOp} {q : CmdResult}
    (ht : t.trace = s.trace ++ es ++ [.result c q])
    (h : s.life ≠ .uninit ∨ (∃ es', es = resetPulse ++ es') ∨ ((∀ e ∈ es, e.isXfer = false) ∧ t.life = .uninit)) :
    GrowsAfterPulse s t := by
  refine ⟨es ++ [.result c q], by rw [ht, List.append_assoc], h.imp_right (Or.imp ?_ ?_)⟩
  · rintro ⟨es', rfl⟩
    exact ⟨es' ++ [.result c q], by simp⟩
  · rintro ⟨noXfer, life⟩
    refine ⟨fun e he => ?_, life⟩
    rcases List.mem_append.mp he with he | he
    · exact noXfer e he
    · rw [List.mem_singleton.mp he]; rfl

theorem Ran.growsAfterPulse {s t : State} {i : Instr} (h : Ran p s i t) : GrowsAfterPulse s t := by
  cases h with
  | initOk v l ri d xi es => exact .of_result rfl (.inr (.inl ⟨es, rfl⟩))
  | initError v l ri d xi es r life quiet frames pulsed =>
    exact .of_result rfl (.inr (pulsed.symm.imp_right fun noXfer => ⟨noXfer, life⟩))
  | configureOk cfg v xi d es life => exact .of_result rfl (.inl life)
  | configureError cfg xi d es r life => exact .of_result rfl (.inl life)
  | start xi d es q life => exact .of_result rfl (.inl life)
  | stop xi d es q life => exact .of_result rfl (.inl life)
  | ported _ c xi d es q host which =>
    rcases which with ⟨-, life⟩ | ⟨-, rfl⟩
    · exact .of_result rfl (.inl life)
    · by_cases life : s.life = .uninit
      exacts [.of_result rfl (.inr (.inr ⟨by simp, life⟩)), .of_result rfl (.inl life)]
  | acquireWaits cmd out v cfg last life => exact ⟨[], by simp, .inl life⟩
  | acquireEnds cmd out rest xi d mem es q ob life => exact .of_result (s := s) rfl (.inl life)
  | transfer _ xi d es f _ life => exact ⟨es, rfl, .inl life⟩
  | burst v w tail xi d mem es f wf bound life => exact ⟨es, rfl, .inl life⟩

/-- An acquisition waits only in a constructed block. -/
theorem acquireFromWait_growsAfterPulse {s : State} {v : Variant} {limit : Nat} {last : Option Level} (hi : s.Inv p)
    (hw : s.cmd = some (.acquireWait v limit last)) : GrowsAfterPulse s (acquireFromWait p v limit last s) := by
  obtain ⟨hv, -⟩ := hi.waiting v limit last hw
  have built : s.life ≠ .uninit := fun hl => by simp [hi.variant_iff.mpr hl] at hv
  rcases acquireFromWait_cases (p := p) v limit last s with ⟨last', h⟩ | ⟨rest, xi, d, mem, es, q, ob, h, -⟩ <;> rw [h]
  · exact ⟨[], by simp, .inl built⟩
  · exact .of_result rfl (.inl built)

theorem stepWith_pulseFirst {s t : State} (hs : s.PulseFirst p) (h : stepWith p s = .next t) : t.PulseFirst p := by
  have hi := (stepWith_inv hs.inv h).1
  rcases stepWith_cases h with ⟨v, limit, last, hw, rfl⟩ | ⟨-, -, rfl⟩ | ⟨r, rest, i, hc, -, -, ran⟩
  · exact (acquireFromWait_growsAfterPulse hs.inv hw).pulseFirst hs hi
  · exact hs
  · exact ran.growsAfterPulse.pulseFirst ⟨hs.inv.requests rest, hs.pulsed, hs.order⟩ hi

/-! ### Faults and completion -/

theorem accept_fault {s : State} {g : Bool} {k : Host.Outcome State Fault Refusal} {f : Fault} (h : accept s g k = .fault f) :
    g = true ∧ k = .fault f := by
  rcases accept_cases s g k with ⟨-, hk⟩ | ⟨-, hg, hk⟩ | ⟨-, -, hk⟩ <;> rw [hk] at h
  · cases h
  · exact ⟨hg, h⟩
  · cases h

/-- An instruction faults only in a constructed block without a variant (log entry 16). -/
theorem execWith_fault {i : Instr} {s : State} {f : Fault} (h : execWith p i s = .fault f) :
    s.life ≠ .uninit ∧ s.variant = none := by
  cases i with
  | configure cfg =>
    obtain ⟨hg, h⟩ := accept_fault h
    split at h
    · split at h
      · next hv => exact ⟨(constructed_iff s).mp hg, hv⟩
      · cases h
    · cases h
  | acquireFifo cmd out =>
    obtain ⟨hg, h⟩ := accept_fault h
    split at h
    · cases h
    · split at h
      · next hv => exact ⟨(constructed_iff s).mp hg, hv⟩
      · cases h
  | spiBurstRead w tail =>
    obtain ⟨hg, h⟩ := accept_fault h
    split at h
    · next hv => exact ⟨(constructed_iff s).mp hg, hv⟩
    · split at h <;> cases h
  | _ => cases (accept_fault h).2

theorem execWith_ne_fault {s : State} (hi : s.Inv p) (i : Instr) (f : Fault) : execWith p i s ≠ .fault f := fun h =>
  (execWith_fault h).1 (hi.variant_iff.mp (execWith_fault h).2)

theorem stepWith_ne_fault {s : State} (hi : s.Inv p) (f : Fault) : stepWith p s ≠ .fault f := by
  intro h
  unfold stepWith stepBy at h
  split at h
  · cases h
  · split at h
    · cases h
    · split at h
      · cases h
      · exact execWith_ne_fault (hi.requests _) _ _ h

/-- A constructed block that is legal has a variant (10_state.md R22). -/
theorem State.Inv.exists_variant {s : State} (hi : s.Inv p) (hl : s.life ≠ .uninit) : ∃ v, s.variant = some v :=
  Option.ne_none_iff_exists'.mp fun hv => hl (hi.variant_iff.mp hv)

/-- What completes in a legal state with no command in flight: a host command in a state of its guard, a wire row on a constructed
block, a burst with the word of its variant. -/
theorem execWith_completes {i : Instr} {s : State} (hi : s.Inv p) (hcmd : s.cmd = none) (hw : i.WellFormed p)
    (host : ∀ c, i.hostOp = some c → lifeAccepts c s.life = true) (wire : i.hostOp = none → s.life ≠ .uninit)
    (word : ∀ w tail, i = .spiBurstRead w tail → ∃ v, s.variant = some v ∧ w = burstFields p v) :
    ∃ t, execWith p i s = .next t := by
  cases i with
  | init v => exact ⟨_, execWith_init hcmd v (by simpa [lifeAccepts] using host _ rfl)⟩
  | configure cfg =>
    have hl : s.life ≠ .uninit := by simpa [lifeAccepts] using host _ rfl
    obtain ⟨v, hv⟩ := hi.exists_variant hl
    have formed : configurationFormed p cfg = true := by
      simp only [Instr.WellFormed, Instr.wellFormed, Configuration.wellFormed, Bool.and_eq_true, and_assoc] at hw
      exact hw.1
    exact ⟨_, execWith_configure hcmd hl hv formed⟩
  | acquireFifo cmd out =>
    have hl : s.life ≠ .uninit := by simpa [lifeAccepts] using host _ rfl
    obtain ⟨v, hv⟩ := hi.exists_variant hl
    cases hc : s.config with
    | none => exact ⟨_, execWith_acquireFifo_unconfigured hcmd hl cmd out hc⟩
    | some cfg => exact ⟨_, execWith_acquireFifo hcmd hl cmd out hc hv⟩
  | spiBurstRead w tail =>
    obtain ⟨v, hv, rfl⟩ := word _ _ rfl
    exact ⟨_, execWith_spiBurstRead hcmd (wire rfl) tail hv⟩
  | nextTestWord w => exact ⟨_, execWith_nextTestWord hcmd w⟩
  | spiRead a => exact ⟨_, accept_constructed hcmd (wire rfl) _⟩
  | spiWrite a v => exact ⟨_, accept_constructed hcmd (wire rfl) _⟩
  | _ => exact ⟨_, accept_constructed hcmd (by simpa [lifeAccepts] using host _ rfl) _⟩

/-! ### Frames -/

section Frames

variable {s t : State} {i : Instr}

theorem Ran.requests_eq (h : Ran p s i t) : t.requests = s.requests := by cases h <;> rfl

theorem Ran.trace_prefix (h : Ran p s i t) : s.trace <+: t.trace := by
  obtain ⟨es, ht, -⟩ := h.growsAfterPulse
  exact ⟨es, ht.symm⟩

/-- Only `INIT` drives the reset output and sets the variant. -/
theorem Ran.reset_frame (h : Ran p s i t) (hi : ∀ v, i ≠ .init v) :
    t.rstLevel = s.rstLevel ∧ t.rstIn = s.rstIn ∧ t.variant = s.variant := by
  cases h with
  | initOk v => exact absurd rfl (hi v)
  | initError v => exact absurd rfl (hi v)
  | _ => exact ⟨rfl, rfl, rfl⟩

/-- Only `INIT` and `CONFIGURE` write the configuration. -/
theorem Ran.config_frame (h : Ran p s i t) (hi : ∀ v, i ≠ .init v) (hc : ∀ cfg, i ≠ .configure cfg) : t.config = s.config := by
  cases h with
  | initOk v => exact absurd rfl (hi v)
  | configureOk cfg => exact absurd rfl (hc cfg)
  | configureError cfg => exact absurd rfl (hc cfg)
  | _ => rfl

/-- Only `ACQUIRE_FIFO` waits, observes the interrupt line and writes `OUT`. -/
theorem Ran.acquire_frame (h : Ran p s i t) (hcmd : s.cmd = none) (ha : ∀ cmd out, i ≠ .acquireFifo cmd out) :
    t.irqIn = s.irqIn ∧ t.cmd = s.cmd ∧ t.outBuf = s.outBuf := by
  cases h with
  | acquireWaits cmd out => exact absurd rfl (ha cmd out)
  | acquireEnds cmd out => exact absurd rfl (ha cmd out)
  | transfer => exact ⟨rfl, rfl, rfl⟩
  | burst => exact ⟨rfl, rfl, rfl⟩
  | _ => exact ⟨rfl, hcmd.symm, rfl⟩

/-- Only a wire row writes the framer's return (log entry 11). -/
theorem Ran.framer_frame (h : Ran p s i t) (hi : i.hostOp ≠ none) : t.framer = s.framer := by
  cases h with
  | transfer _ _ _ _ _ wire => exact absurd wire hi
  | burst => exact absurd rfl hi
  | _ => rfl

/-- No wire row changes `life` (log entry 11). -/
theorem Ran.life_frame (h : Ran p s i t) (hi : i.hostOp = none) : t.life = s.life := by
  cases h with
  | transfer => rfl
  | burst => rfl
  | ported _ c _ _ _ _ host => rfl
  | acquireWaits => rfl
  | acquireEnds => rfl
  | _ => cases hi

/-- Only `ACQUIRE_FIFO` and the burst write the command buffer (log entry 13). -/
theorem Ran.buffer_frame (h : Ran p s i t) (ha : ∀ cmd out, i ≠ .acquireFifo cmd out)
    (hb : ∀ w tail, i ≠ .spiBurstRead w tail) : t.cmdLen = s.cmdLen ∧ t.cmdMem = s.cmdMem := by
  cases h with
  | acquireWaits cmd out => exact absurd rfl (ha cmd out)
  | acquireEnds cmd out => exact absurd rfl (ha cmd out)
  | burst v w tail => exact absurd rfl (hb w tail)
  | _ => exact ⟨rfl, rfl⟩

end Frames

/-! ### The statements -/

/-- Settles O54: at reset there is nothing to be illegal, and no transfer in the trace. -/
theorem resetIsLegal : Obligations.ResetIsLegal := by
  intro p
  have legal : State.reset.Inv p :=
    LegalBlock.inv ⟨by simp, by simp, by simp⟩ rfl nil_wf (by simp [State.reset])
  exact ⟨legal, legal, by simp, fun pre tx rx post h => by simp at h⟩

/-- Settles O55, by cases on what a step can do. -/
theorem stepKeepsLegalStates : Obligations.StepKeepsLegalStates :=
  ⟨fun s _ hi h => stepWith_inv hi (step_eq_stepWith s ▸ h), fun _ _ _ hi h => stepWith_inv hi h⟩

/-- Settles O58: a step adds transfers only behind a pulse. -/
theorem resetPulsePrecedesEveryTransfer : Obligations.ResetPulsePrecedesEveryTransfer :=
  ⟨fun s _ hs h => stepWith_pulseFirst hs (step_eq_stepWith s ▸ h), fun _ _ _ hs h => stepWith_pulseFirst hs h⟩

/-- Settles O56: a fault needs a constructed block without a variant. -/
theorem legalStatesNeverFault : Obligations.LegalStatesNeverFault := fun s hi =>
  ⟨fun i f => exec_eq_execWith i s ▸ execWith_ne_fault hi i f, fun f => step_eq_stepWith s ▸ stepWith_ne_fault hi f⟩

/-- Settles O57, instruction by instruction. -/
theorem acceptedInstructionsComplete : Obligations.AcceptedInstructionsComplete := fun i s hi hcmd hw host wire word =>
  exec_eq_execWith i s ▸ execWith_completes hi hcmd hw host wire word

/-- Settles O59, field by field. -/
theorem frameOfEveryInstruction : Obligations.FrameOfEveryInstruction := by
  intro i s t h
  obtain ⟨hcmd, ran⟩ := exec_ran h
  refine ⟨ran.requests_eq, ran.trace_prefix, ran.reset_frame, ran.config_frame, fun ha => ?_, ran.framer_frame, ran.life_frame⟩
  obtain ⟨irq, cmd, -⟩ := ran.acquire_frame hcmd ha
  exact ⟨irq, cmd⟩

/-- Settles O60, buffer by buffer. -/
theorem frameOfTheHostBuffers : Obligations.FrameOfTheHostBuffers := by
  intro i s t h
  obtain ⟨hcmd, ran⟩ := exec_ran h
  refine ⟨fun ha => (ran.acquire_frame hcmd ha).2.2, fun ha hb => ?_⟩
  obtain ⟨len, mem⟩ := ran.buffer_frame ha hb
  exact ⟨len, fun a => by rw [mem]⟩

end Sys2Proof.Machine
end

section
/-! SUPPORT. Single steps, the lifecycle guard (41_control_sequences.md R135), and the wire rows run by themselves
(40_framer.md). -/

namespace Sys2Proof.Machine

open Sys2Proof.Config

variable {p : Params}

/-! ### One step -/

/-- With no command in flight a step runs what the request issued first decodes to. -/
theorem stepBy_decoded {run : Instr → State → Host.Outcome State Fault Refusal} {s : State} {r : Request}
    {rest : List Request} {i : Instr} (hc : s.cmd = none) (hr : s.requests = r :: rest) (hd : decodeRequest p r = .ok i) :
    stepBy p run s = run i { s with requests := rest } := by
  simp [stepBy, hc, hr, hd]

/-- With nothing to do a step leaves the state as it is (70_reset_and_hazards.md R260). -/
theorem stepBy_idle {run : Instr → State → Host.Outcome State Fault Refusal} {s : State} (hc : s.cmd = none)
    (hr : s.requests = []) : stepBy p run s = .next s := by
  simp [stepBy, hc, hr]

/-! ### The guard -/

/-- The guard of a host command is the column of the lifecycle table (41_control_sequences.md R135): a command that it excludes is
refused. -/
theorem execWith_host_refused {i : Instr} {c : HostOp} {s : State} (hi : i.hostOp = some c) (hcmd : s.cmd = none)
    (hg : lifeAccepts c s.life = false) : execWith p i s = .refused .lifecycleGuard := by
  have refused : ∀ k, accept s (lifeAccepts c s.life) k = .refused .lifecycleGuard := fun k => by simp [accept, hcmd, hg]
  cases i <;> cases hi <;> exact refused _

/-- A wire row before the hardware reset is refused (70_reset_and_hazards.md R262). -/
theorem execWith_wire_refused {i : Instr} {s : State} (hi : i.hostOp = none) (hcmd : s.cmd = none) (hl : s.life = .uninit) :
    execWith p i s = .refused .lifecycleGuard := by
  have refused : ∀ k, accept s (constructed s) k = .refused .lifecycleGuard := fun k => by
    simp [accept, hcmd, constructed, hl]
  cases i <;> cases hi <;> exact refused _

/-- What an accepted request does, when that is not itself a refusal by the guard. -/
theorem accept_ne_lifecycleGuard {s : State} {g : Bool} {k : Host.Outcome State Fault Refusal} (hg : g = true)
    (hk : k ≠ .refused .lifecycleGuard) : accept s g k ≠ .refused .lifecycleGuard := by
  rcases accept_cases s g k with ⟨-, h⟩ | ⟨-, -, h⟩ | ⟨-, hg', -⟩
  · rw [h]; simp
  · rw [h]; exact hk
  · rw [hg] at hg'; cases hg'

/-- An instruction within its guard is not refused by it. -/
theorem execWith_not_refused {i : Instr} {s : State} (host : ∀ c, i.hostOp = some c → lifeAccepts c s.life = true)
    (wire : i.hostOp = none → s.life ≠ .uninit) : execWith p i s ≠ .refused .lifecycleGuard := by
  cases i with
  | configure cfg =>
    refine accept_ne_lifecycleGuard (host _ rfl) ?_
    split
    · split <;> simp
    · simp
  | acquireFifo cmd out =>
    refine accept_ne_lifecycleGuard (host _ rfl) ?_
    split
    · simp
    · split <;> simp
  | spiBurstRead w tail =>
    refine accept_ne_lifecycleGuard ((constructed_iff s).mpr (wire rfl)) ?_
    split
    · simp
    · split <;> simp
  | spiRead a => exact accept_ne_lifecycleGuard ((constructed_iff s).mpr (wire rfl)) (by simp)
  | spiWrite a v => exact accept_ne_lifecycleGuard ((constructed_iff s).mpr (wire rfl)) (by simp)
  | _ => exact accept_ne_lifecycleGuard (host _ rfl) (by simp)

/-- While a command is in flight no instruction is accepted (10_state.md R26). -/
theorem execWith_in_flight (i : Instr) {s : State} (hcmd : s.cmd ≠ none) : execWith p i s = .refused .commandInFlight := by
  have refused : ∀ g k, accept s g k = .refused .commandInFlight := fun g k => by simp [accept, hcmd]
  cases i <;> exact refused _ _

/-! ### The status byte -/

/-- The error bits at the spec positions (10_state.md R37; log entry 1). -/
theorem isError_params (g : Byte) : isError params g = true ↔ g &&& 0x0B ≠ 0 := by
  revert g
  decide

/-! ### Memory of a burst -/

/-- What a response, or what is handed over, leaves in a command buffer of its length: itself, and nothing outside it. -/
theorem read_writeBytes_handOver_outside (cmd bs : List Byte) (out : List Sample) (s : State) {a b : Nat}
    (hb : b + bs.length ≤ cmd.length) (ha : cmd.length ≤ a) :
    ((handOver cmd out s).cmdMem.writeBytes b bs).read a = Memory.blank := by
  rw [read_writeBytes_outside _ _ _ _ (.inr (by omega)), read_handOver_outside cmd out s a ha]

/-- Reading fewer bytes gives the first of them. -/
theorem readBytes_take (m : Memory) {k n : Nat} (h : k ≤ n) : (m.readBytes 0 n).take k = m.readBytes 0 k := by
  simp [Memory.readBytes, ← List.map_take, List.take_range, h]

/-- The bytes handed over for a burst begin with its word. -/
theorem readBytes_handOver_word (w : Word32) (tail : List Byte) (out : List Sample) (s : State) :
    (be32 w ++ tail).length = 4 + tail.length ∧ (handOver (be32 w ++ tail) out s).cmdMem.readBytes 0 4 = be32 w := by
  refine ⟨by simp, ?_⟩
  rw [← readBytes_take _ (show 4 ≤ (be32 w ++ tail).length by simp), readBytes_handOver]
  rfl

theorem burstChecked_unconfigured {s : State} (hc : s.config = none) :
    burstChecked p s = .raised .noConfiguration s := by
  simp [burstChecked, hc]

theorem burstChecked_length {s : State} {cfg : Configuration} (hc : s.config = some cfg)
    (hl : s.cmdLen ≠ 4 + payloadBytes (fifoLimit cfg)) :
    burstChecked p s = .raised (.bufferSizeMismatch .cmdBuf (4 + payloadBytes (fifoLimit cfg)) s.cmdLen) s := by
  simp [burstChecked, hc, hl]

theorem burstChecked_transfer {s : State} {cfg : Configuration} (hc : s.config = some cfg)
    (hl : s.cmdLen = 4 + payloadBytes (fifoLimit cfg)) : burstChecked p s = burstTransfer p s := by
  simp [burstChecked, hc, hl]

/-! ### The statements -/

/-- Settles O7, from what a step does with a decoded request. -/
theorem stepRunsTheDecodedRequest : Obligations.StepRunsTheDecodedRequest :=
  ⟨fun _ _ _ _ => stepBy_decoded, fun _ _ _ _ _ => stepBy_decoded, fun i s => ⟨exec_eq_execWith i s, step_eq_stepWith s⟩⟩

/-- Settles O8, with a request and without one. -/
theorem stepWaitsOrRefusesWithoutACommand : Obligations.StepWaitsOrRefusesWithoutACommand :=
  fun _ hc => ⟨stepBy_idle hc, fun _ _ _ => stepBy_undecodable hc⟩

/-- Settles O9: each of the four defects breaks the operand form, and the burst has one word per variant. -/
theorem illFormedOperandsAreRefused : Obligations.IllFormedOperandsAreRefused := by
  refine ⟨fun cfg s hc hl defect => ?_, fun w tail s v hc hl hv hw => ?_⟩
  · have illFormed : configurationFormed params cfg = false := by
      rw [Bool.eq_false_iff, ne_eq, configurationFormed_iff]
      rintro ⟨hw, hrx, hch, hsa⟩
      have bits : params.cfgCountBits = 32 := rfl
      rw [bits] at hrx hch hsa
      omega
    exact execWith_configure_illFormed hc hl illFormed
  · exact execWith_spiBurstRead_otherWord hc hl tail hv hw

/-- Settles O11, from the error bits at the spec positions. -/
theorem statusErrorBits : Obligations.StatusErrorBits := by
  refine fun g s => ⟨fun h => checkStatus_error g s ((isError_params g).mpr h), fun h => checkStatus_ok g s ?_⟩
  rw [Bool.eq_false_iff, ne_eq, isError_params]
  exact not_not.mpr h

/-- Settles O31, guard by guard. -/
theorem lifecycleGuardRefusesExactly : Obligations.LifecycleGuardRefusesExactly := by
  refine ⟨fun i c s hi hcmd => ?_, fun i s hi hcmd => ?_, fun i s hcmd => ?_⟩ <;> rw [exec_eq_execWith]
  · refine ⟨fun h => ?_, execWith_host_refused hi hcmd⟩
    by_contra hg
    refine execWith_not_refused (fun d hd => ?_) (fun hn => ?_) h
    · obtain rfl : c = d := Option.some.inj (hi.symm.trans hd)
      exact Bool.eq_true_of_not_eq_false hg
    · rw [hi] at hn; cases hn
  · refine ⟨fun h => ?_, execWith_wire_refused hi hcmd⟩
    by_contra hl
    exact execWith_not_refused (fun d hd => by rw [hi] at hd; cases hd) (fun _ => hl) h
  · exact execWith_in_flight i hcmd

/-- Settles O12: the register read decides which of the three returns it is. -/
theorem spiReadReturnsTheRegister : Obligations.SpiReadReturnsTheRegister := by
  intro s a X hcmd hl
  rw [exec_eq_execWith, execWith_spiRead hcmd hl]
  refine ⟨fun g v hx hg => ?_, fun g v hx hg => ?_, fun hx => ?_⟩
  · rw [readRegister_ok a g v X s hx hg]; rfl
  · rw [readRegister_status a g v X s hx hg]; rfl
  · rw [readRegister_transport a X s hx]; rfl

/-- Settles O13: the register write decides which of the three returns it is. -/
theorem spiWriteReturnsTheStatus : Obligations.SpiWriteReturnsTheStatus := by
  intro s a v X hcmd hl
  rw [exec_eq_execWith, execWith_spiWrite hcmd hl]
  refine ⟨fun g x hx hg => ?_, fun g x hx hg => ?_, fun hx => ?_⟩
  · rw [writeRegister_ok a v g x X s hx hg]; rfl
  · rw [writeRegister_status a v g x X s hx hg]; rfl
  · rw [writeRegister_transport a v X s hx]; rfl

/-- Settles O14: the buffer handed over is the word and the bytes after it; the checks, the transfer and its status decide the
rest. -/
theorem spiBurstReadFillsTheCommandBuffer : Obligations.SpiBurstReadFillsTheCommandBuffer := by
  intro s v tail hcmd hl hv
  rw [exec_eq_execWith, execWith_spiBurstRead hcmd hl tail hv]
  have word := readBytes_handOver_word (burstWord params v) tail s.outBuf s
  generalize be32 (burstWord params v) ++ tail = bs at word ⊢
  obtain ⟨hlen, word⟩ := word
  have checked : ∀ cfg, s.config = some cfg → tail.length = payloadBytes (fifoLimit cfg) →
      burstChecked params (handOver bs s.outBuf s) = burstTransfer params (handOver bs s.outBuf s) := fun cfg hc hfit =>
    burstChecked_transfer (s := handOver bs s.outBuf s) hc (by simp [hlen, hfit])
  refine ⟨fun cfg rx X hc hfit hx hrx => ?_, fun cfg X hc hfit hx => ?_, ?_⟩
  · have hrx' : rx.length = (handOver bs s.outBuf s).cmdLen := by simp [hrx, hlen]
    refine ⟨(handOver bs s.outBuf s).cmdMem.writeBytes 0 rx, hrx ▸ readBytes_writeBytes _ 0 rx,
      fun a ha => read_writeBytes_handOver_outside _ _ _ _ (by omega) (by omega), ?_⟩
    rw [checked cfg hc hfit]
    by_cases hg : isError params (responseStatus rx) = true
    · rw [burstTransfer_status (handOver bs s.outBuf s) rx X hx hrx' hg, cmdBytes_handOver, bind_raised, if_pos hg]
      simp [finishTransfer, handOver, hlen]
    · rw [burstTransfer_ok (handOver bs s.outBuf s) rx X hx hrx' (by simpa using hg), cmdBytes_handOver, bind_ok, if_neg hg]
      simp [finishTransfer, handOver, hlen]
  · refine ⟨(handOver bs s.outBuf s).cmdMem.writeBytes 4 (freeBytes s.draws tail.length), s.draws + tail.length,
      (readBytes_writeBytes_before _ 4 _).trans word,
      fun a ha => read_writeBytes_handOver_outside _ _ _ _ (by simp [hlen]) (by omega), ?_⟩
    rw [checked cfg hc hfit, burstTransfer_transport (handOver bs s.outBuf s) X hx, cmdBytes_handOver, bind_raised]
    simp [finishTransfer, handOver, hlen]
  · refine ⟨(handOver bs s.outBuf s).cmdMem, hlen ▸ readBytes_handOver bs s.outBuf s,
      fun a ha => read_handOver_outside _ _ _ _ (by omega), fun hc => ?_, fun cfg hc hfit => ?_⟩
    · rw [burstChecked_unconfigured (s := handOver bs s.outBuf s) hc]
      simp [finishTransfer, handOver, hlen]
    · rw [burstChecked_length (s := handOver bs s.outBuf s) hc (by simp [hlen, hfit])]
      simp [finishTransfer, handOver, hlen]

end Sys2Proof.Machine
end

section
/-! SUPPORT. `INIT` and the identity of the chip (41_control_sequences.md R129, 44_chip_id.md), and the commands that strobe a bit
(41_control_sequences.md R131 to R134). -/

namespace Sys2Proof.Machine

open Sys2Proof.Config

variable {p : Params}

/-! ### The read of CHIP_ID -/

/-- A read of CHIP_ID whose answer raises (44_chip_id.md R200, 40_framer.md R106). -/
theorem chipIdSeq_raises (x : XferAnswer) (e : Error) (X : List XferAnswer) (s : State) (hx : s.xferIn = x :: X)
    (h : Raises p x e) :
    chipIdSeq p s =
      .raised e { s with xferIn := X, trace := s.trace ++ [.xfer (readFrame p p.addrChipId) x] } := by
  rw [chipIdSeq, readRegister_raises _ x e X s hx h, bind_raised]

theorem raises_status {g : Byte} (v : RegValue) (hg : isError p g = true) : Raises p (answer g v) (.status g) :=
  .inr ⟨g, v, rfl, hg, rfl⟩

theorem raises_transportError : Raises p .transportError .transport := .inl ⟨rfl, rfl⟩

/-- `READ_CHIP_ID` on an answer that raises reports the error (44_chip_id.md R201). -/
theorem execWith_readChipId_raises {s : State} {x : XferAnswer} {e : Error} {X : List XferAnswer} (hcmd : s.cmd = none)
    (hl : s.life ≠ .uninit) (hx : s.xferIn = x :: X) (h : Raises p x e) :
    execWith p .readChipId s = .next { s with
      xferIn := X,
      trace := s.trace ++ [.xfer (readFrame p p.addrChipId) x, .result .readChipId (.err e)] } := by
  rw [execWith_readChipId hcmd hl, chipIdSeq_raises x e X s hx h, bind_raised, finish_raised_of_cmd_none]
  · simp [emit]
  · exact hcmd

/-! ### `INIT` -/

/-- The reset pulse on three good pin answers (41_control_sequences.md R120). -/
theorem resetHardware_ok {s : State} {R : List PinAnswer} (hr : s.rstIn = .ok :: .ok :: .ok :: R) :
    resetHardware s = .ok () { s with rstLevel := .high, rstIn := R, trace := s.trace ++ resetPulse } :=
  (hardwareResetPulsesThePin s R).1 hr

/-- A pulse that raises ends `INIT` (41_control_sequences.md R129). -/
theorem execWith_init_pulse_raises {s t : State} {e : Error} (v : Variant) (hcmd : s.cmd = none) (hl : s.life = .uninit)
    (h : resetHardware s = .raised e t) (ht : t.cmd = none) :
    execWith p (.init v) s = .next (emit (.result .init (.err e)) t) := by
  rw [execWith_init hcmd v hl, initSeq, h, bind_raised, finish_raised_of_cmd_none _ _ _ ht]

/-- A read of CHIP_ID that raises ends `INIT` after the whole pulse (41_control_sequences.md R129). -/
theorem execWith_init_read_raises {s : State} {R : List PinAnswer} {x : XferAnswer} {e : Error} {X : List XferAnswer}
    (v : Variant) (hcmd : s.cmd = none) (hl : s.life = .uninit) (hr : s.rstIn = .ok :: .ok :: .ok :: R)
    (hx : s.xferIn = x :: X) (h : Raises p x e) :
    execWith p (.init v) s = .next { s with
      rstLevel := .high, rstIn := R, xferIn := X,
      trace := s.trace ++ resetPulse ++ [.xfer (readFrame p p.addrChipId) x, .result .init (.err e)] } := by
  rw [execWith_init hcmd v hl, initSeq, resetHardware_ok hr, bind_ok, chipIdSeq_raises x e X, bind_raised,
    finish_raised_of_cmd_none]
  · simp [emit]
  exacts [hcmd, hx, h]

/-- `INIT` on a chip whose identity is accepted (41_control_sequences.md R129, 44_chip_id.md R203). -/
theorem execWith_init_accepted {s : State} {g : Byte} {id : RegValue} {R : List PinAnswer} {X : List XferAnswer} (v : Variant)
    (hcmd : s.cmd = none) (hl : s.life = .uninit) (hr : s.rstIn = .ok :: .ok :: .ok :: R) (hx : s.xferIn = answer g id :: X)
    (hg : isError p g = false) (accepted : acceptId p v (chipIdView p id).digitalId (chipIdView p id).rfId = true) :
    execWith p (.init v) s = .next { s with
      life := .idle, variant := some v, config := none, rstLevel := .high, rstIn := R, xferIn := X,
      trace := s.trace ++ resetPulse ++ [readEvent p p.addrChipId g id, .result .init (.ok .none)] } := by
  rw [execWith_init hcmd v hl, initSeq, resetHardware_ok hr, bind_ok, chipIdSeq_ok g id X, bind_ok, if_pos accepted,
    finish_ok_of_cmd_none]
  · simp [emit]
  exacts [hcmd, hx, hg]

/-- `INIT` never ends in between, whatever the environment answers (41_control_sequences.md R129). -/
theorem execWith_init_ends (v : Variant) (s : State) (hcmd : s.cmd = none) (hl : s.life = .uninit) :
    ∃ t, execWith p (.init v) s = .next t ∧ t.cmd = none ∧
      ((t.life = .idle ∧ t.variant = some v ∧ t.config = none ∧ t.trace.getLast? = some (.result .init (.ok .none))) ∨
        (t.life = .uninit ∧ t.variant = s.variant ∧ t.config = s.config ∧
          ∃ e, t.trace.getLast? = some (.result .init (.err e)))) := by
  obtain ⟨l, ri, d, xi, es, ⟨h, -⟩ | ⟨r, h, -⟩⟩ := init_cases (p := p) v s <;> rw [execWith_init hcmd v hl, h]
  · exact ⟨_, rfl, rfl, .inl ⟨rfl, rfl, rfl, List.getLast?_concat⟩⟩
  · exact ⟨_, rfl, rfl, .inr ⟨hl, rfl, rfl, r, List.getLast?_concat⟩⟩

/-! ### Strobes -/

/-- A strobe whose read raises sends no write (40_framer.md R103, R104). -/
theorem strobe_read_raises (a : RegAddr) (b : Nat) (x : XferAnswer) (e : Error) (X : List XferAnswer) (s : State)
    (hx : s.xferIn = x :: X) (h : Raises p x e) :
    strobe p a b s = .raised e { s with xferIn := X, trace := s.trace ++ [.xfer (readFrame p a) x] } :=
  readModifyWrite_read_raises a b b 1 x e X s hx h

/-- A strobe whose write raises (40_framer.md R103, R104). -/
theorem strobe_write_raises (a : RegAddr) (b : Nat) (g : Byte) (r : RegValue) (x : XferAnswer) (e : Error)
    (X : List XferAnswer) (s : State) (hx : s.xferIn = answer g r :: x :: X) (hg : isError p g = false) (h : Raises p x e) :
    strobe p a b s = .raised e { s with
      xferIn := X, trace := s.trace ++ [readEvent p a g r, writeAnswered p a (setBit r b) x] } := by
  rw [strobe, readModifyWrite_write_raises a b b 1 g r x e X s hx hg h, insertField_one]

theorem startSeq_configured {s : State} (hc : s.config ≠ none) :
    startSeq p s = (strobe p p.addrMain p.mainFrameStart s).bind fun _ s1 => .ok .none { s1 with life := .running } :=
  if_neg hc

/-- The instruction `i` is the command `c` that strobes bit `b` of the register at `a` and then goes on with `k`. -/
def Strobes (p : Params) (i : Instr) (c : HostOp) (a : RegAddr) (b : Nat) (s : State) : Prop :=
  ∃ k : Unit → State → Res Value, execWith p i s = .next (finish c ((strobe p a b s).bind k))

/-- A command that strobes ends with the error of its strobe. -/
theorem Strobes.raises {i : Instr} {c : HostOp} {a : RegAddr} {b : Nat} {s t : State} {e : Error} (h : Strobes p i c a b s)
    (hs : strobe p a b s = .raised e t) (ht : t.cmd = none) : execWith p i s = .next (emit (.result c (.err e)) t) := by
  obtain ⟨k, hk⟩ := h
  rw [hk, hs, bind_raised, finish_raised_of_cmd_none _ _ _ ht]

/-- The four commands that strobe a bit (41_control_sequences.md R131 to R134). -/
theorem strobes_of_command {i : Instr} {c : HostOp} {a : RegAddr} {b : Nat} {s : State} (hcmd : s.cmd = none)
    (hl : s.life ≠ .uninit) (configured : i = .start → s.config ≠ none)
    (which : (i = .start ∧ c = .start ∧ a = p.addrMain ∧ b = p.mainFrameStart) ∨
      (i = .stop ∧ c = .stop ∧ a = p.addrMain ∧ b = p.mainFsmReset) ∨
      (i = .resetFifo ∧ c = .resetFifo ∧ a = p.addrMain ∧ b = p.mainFifoReset) ∨
      (i = .enableTestMode ∧ c = .enableTestMode ∧ a = p.addrSfctl ∧ b = p.sfctlLfsrEn)) :
    Strobes p i c a b s := by
  rcases which with ⟨rfl, rfl, rfl, rfl⟩ | ⟨rfl, rfl, rfl, rfl⟩ | ⟨rfl, rfl, rfl, rfl⟩ | ⟨rfl, rfl, rfl, rfl⟩
  · exact ⟨_, (execWith_start hcmd hl).trans (by rw [startSeq_configured (configured rfl)])⟩
  · exact ⟨_, execWith_stop hcmd hl⟩
  · exact ⟨_, execWith_resetFifo hcmd hl⟩
  · exact ⟨_, execWith_enableTestMode hcmd hl⟩

/-! ### The statements -/

/-- Settles O45, from the read of CHIP_ID. -/
theorem readChipIdReportsTheIdentity : Obligations.ReadChipIdReportsTheIdentity := by
  intro s X hcmd hl
  rw [exec_eq_execWith]
  refine ⟨fun g id hx hg => ?_, fun g id hx hg => execWith_readChipId_raises hcmd hl hx (raises_status id hg),
    fun hx => execWith_readChipId_raises hcmd hl hx raises_transportError⟩
  rw [execWith_readChipId hcmd hl, chipIdSeq_ok g id X s hx hg, bind_ok, finish_ok_of_cmd_none]
  · simp [emit]
  · exact hcmd

/-- Settles O46: the two open constants are none, so one disjunct is left for each variant. -/
theorem acceptAtTheSpecValues : Obligations.AcceptAtTheSpecValues := fun d r =>
  ⟨by simp [acceptId, params, acceptSpec, matchesExpected, digitalIdTr13c],
    by simp [acceptId, params, acceptSpec, matchesExpected, rfIdsUtr11]⟩

/-- Settles O18. -/
theorem initBringsTheBlockToIdle : Obligations.InitBringsTheBlockToIdle := by
  intro s v g id R X hcmd hl hr hx hg accepted
  rw [exec_eq_execWith, execWith_init_accepted v hcmd hl hr hx hg accepted]

/-- Settles O20: the pulse or the read that raises ends `INIT`. -/
theorem initSucceedsOrStaysUninit : Obligations.InitSucceedsOrStaysUninit := by
  intro s v hcmd hl
  rw [exec_eq_execWith]
  refine ⟨execWith_init_ends v s hcmd hl, fun R hr => ?_, fun R hr => ?_, fun R hr => ?_,
    fun R x e X hr hx h => execWith_init_read_raises v hcmd hl hr hx h⟩ <;>
    obtain ⟨-, first, second, third⟩ := hardwareResetPulsesThePin s R
  · rw [execWith_init_pulse_raises v hcmd hl (first hr) hcmd]
    simp [emit]
  · rw [execWith_init_pulse_raises v hcmd hl (second hr) hcmd]
    simp [emit]
  · rw [execWith_init_pulse_raises v hcmd hl (third hr) hcmd]
    simp [emit]

/-- Settles O27: with a configuration the strobe decides, without one the check before it. -/
theorem startSetsFrameStart : Obligations.StartSetsFrameStart := by
  intro s hcmd hl
  rw [exec_eq_execWith, execWith_start hcmd hl]
  refine ⟨fun g1 g2 r x X hc hx h1 h2 => ?_, fun hc => ?_⟩
  · rw [startSeq_configured hc, strobe_ok _ _ g1 g2 r x X s hx h1 h2, bind_ok, finish_ok_of_cmd_none]
    · simp [emit]
    · exact hcmd
  · rw [startSeq, if_pos hc, finish_raised_of_cmd_none _ _ _ hcmd, emit]

/-- Settles O28: the block was running or was not. -/
theorem stopSetsFsmReset : Obligations.StopSetsFsmReset := by
  intro s g1 g2 r x X hcmd hl hx h1 h2
  rw [exec_eq_execWith, execWith_stop hcmd hl, resetFsm, strobe_ok _ _ g1 g2 r x X s hx h1 h2, bind_ok]
  by_cases running : s.life = .running
  · simp only [running, if_true]
    rw [finish_ok_of_cmd_none]
    · simp [emit]
    · exact hcmd
  · simp only [running, if_false]
    rw [finish_ok_of_cmd_none]
    · simp [emit]
    · exact hcmd

/-- Settles O29, the two commands alike. -/
theorem testModeAndFifoResetSetTheirBit : Obligations.TestModeAndFifoResetSetTheirBit := by
  intro s g1 g2 r x X hcmd hl hx h1 h2
  rw [exec_eq_execWith, exec_eq_execWith, execWith_enableTestMode hcmd hl, execWith_resetFifo hcmd hl, resetFifoSeq,
    strobe_ok _ _ g1 g2 r x X s hx h1 h2, strobe_ok _ _ g1 g2 r x X s hx h1 h2, bind_ok, bind_ok, finish_ok_of_cmd_none,
    finish_ok_of_cmd_none]
  · simp [emit]
  · exact hcmd
  · exact hcmd

/-- Settles O30: each of the four commands ends with the error of its strobe. -/
theorem failedStrobesChangeNothing : Obligations.FailedStrobesChangeNothing := by
  intro s i c a b X hcmd hl configured which
  have strobes := strobes_of_command hcmd hl configured which
  rw [exec_eq_execWith]
  refine ⟨fun x e hx h => ?_, fun g r x e hx hg h => ?_⟩
  · rw [strobes.raises (strobe_read_raises a b x e X s hx h) hcmd]
    simp [emit]
  · rw [strobes.raises (strobe_write_raises a b g r x e X s hx hg h) hcmd]
    simp [emit]

end Sys2Proof.Machine
end

section
/-! SUPPORT. `CONFIGURE` (41_control_sequences.md R121 to R130): the software reset and the sequence stage by stage, and the valid FIFO
limits. -/

namespace Sys2Proof.Machine

open Sys2Proof.Config

variable {p : Params}

/-! ### The software reset on answers that raise (41_control_sequences.md R121) -/

/-- A strobe that raises ends the software reset before any poll. -/
theorem resetSoftware_strobe_raises {s t : State} {e : Error} (h : strobe p p.addrMain p.mainSwReset s = .raised e t) :
    resetSoftware p s = .raised e t := by
  rw [resetSoftware, h, bind_raised]

/-- After a good strobe the polls decide. -/
theorem resetSoftware_of_strobe {s : State} {q1 q2 : Byte × RegValue} {X : List XferAnswer}
    (hx : s.xferIn = answerOf q1 :: answerOf q2 :: X) (h1 : Good p q1) (h2 : Good p q2) :
    resetSoftware p s =
      (pollLoop p swResetPolls { s with xferIn := X, trace := s.trace ++ strobeEvents p q1 q2 }).bind fun cleared s2 =>
        if cleared then .ok () (delayMs swResetSettleMs s2)
        else .raised .resetTimeout (delayMs swResetSettleMs s2) := by
  rw [resetSoftware, strobe_ok _ _ q1.1 q2.1 q1.2 q2.2 X s hx h1 h2, bind_ok]
  simp [delayNs, emit, strobeEvents, swResetWaitNs]

/-- A transport error in a poll ends the software reset without the settle delay. -/
theorem resetSoftware_transport {s : State} {q1 q2 : Byte × RegValue} {fails : List (Byte × RegValue)} {X : List XferAnswer}
    (hx : s.xferIn = answerOf q1 :: answerOf q2 :: (fails.map answerOf ++ .transportError :: X)) (h1 : Good p q1)
    (h2 : Good p q2) (few : fails.length ≤ 4) (hf : ∀ q ∈ fails, PollFails p q) :
    resetSoftware p s = .raised .transport { s with
      xferIn := X,
      trace := s.trace ++
        (strobeEvents p q1 q2 ++ pollEvents p fails ++ [.xfer (readFrame p p.addrMain) .transportError]) } := by
  rw [resetSoftware_of_strobe hx h1 h2, pollLoop_transport fails swResetPolls _ X (Nat.lt_succ_of_le few) rfl hf, bind_raised]
  simp

/-- Five failed polls end the software reset with `ResetTimeout`, after the settle delay. -/
theorem resetSoftware_timeout {s : State} {q1 q2 : Byte × RegValue} {fails : List (Byte × RegValue)} {X : List XferAnswer}
    (hx : s.xferIn = answerOf q1 :: answerOf q2 :: (fails.map answerOf ++ X)) (h1 : Good p q1) (h2 : Good p q2)
    (five : fails.length = 5) (hf : ∀ q ∈ fails, PollFails p q) :
    resetSoftware p s = .raised .resetTimeout { s with
      xferIn := X, trace := s.trace ++ (strobeEvents p q1 q2 ++ pollEvents p fails) } := by
  have some_fail : fails ≠ [] := by rintro rfl; simp at five
  obtain ⟨tr, hloop, htr⟩ := pollLoop_fails (p := p) fails
    { s with xferIn := fails.map answerOf ++ X, trace := s.trace ++ strobeEvents p q1 q2 } X some_fail rfl hf
  rw [resetSoftware_of_strobe hx h1 h2, swResetPolls, ← five, hloop, bind_ok, if_neg (by simp)]
  simp only [delayMs, emit, swResetSettleMs, htr, List.append_assoc]

/-! ### The stages of `CONFIGURE` (41_control_sequences.md R130) -/

/-- The state in which `CONFIGURE` starts its sequence: the previous configuration is discarded. -/
def discardConfig (s : State) : State := { s with config := none, life := .idle }

variable {s : State} {v : Variant} {cfg : Configuration}

/-- An invalid limit is reported before any event (41_control_sequences.md R130). -/
theorem configureSeq_invalid (h : fifoLimitValid p v (fifoLimit cfg) = false) :
    configureSeq p v cfg s = .raised (.invalidFifoLimit (fifoLimit cfg)) (discardConfig s) := by
  simp [configureSeq, h, discardConfig]

theorem configureSeq_valid (valid : fifoLimitValid p v (fifoLimit cfg) = true) :
    configureSeq p v cfg s = (resetSoftware p (discardConfig s)).bind fun _ s1 =>
      (writeWords p cfg.words s1).bind fun _ s2 =>
        (applyFifoLimit p (fifoLimit cfg) s2).bind fun _ s3 =>
          .ok .none { s3 with config := some cfg, life := .armed } :=
  if_pos valid

theorem configureSeq_reset_raises {t : State} {e : Error} (valid : fifoLimitValid p v (fifoLimit cfg) = true)
    (h : resetSoftware p (discardConfig s) = .raised e t) : configureSeq p v cfg s = .raised e t := by
  rw [configureSeq_valid valid, h, bind_raised]

/-- After a software reset that succeeds, the words and the threshold are left to do. -/
theorem configureSeq_of_reset {q1 q2 q3 : Byte × RegValue} {fails : List (Byte × RegValue)} {X : List XferAnswer}
    (valid : fifoLimitValid p v (fifoLimit cfg) = true) (hx : s.xferIn = resetAnswers q1 q2 fails q3 ++ X)
    (reset : ResetSucceeds p q1 q2 fails q3) :
    configureSeq p v cfg s =
      (writeWords p cfg.words { discardConfig s with
        xferIn := X, trace := s.trace ++ softResetEvents p q1 q2 fails q3 }).bind fun _ s2 =>
          (applyFifoLimit p (fifoLimit cfg) s2).bind fun _ s3 =>
            .ok .none { s3 with config := some cfg, life := .armed } := by
  rw [configureSeq_valid valid, resetSoftware_ok q1 q2 q3 fails X (discardConfig s) hx reset, bind_ok]
  rfl

/-- After the words the threshold is left to do. -/
theorem configureSeq_of_words {q1 q2 q3 : Byte × RegValue} {fails qs : List (Byte × RegValue)} {X : List XferAnswer}
    (valid : fifoLimitValid p v (fifoLimit cfg) = true) (formed : configurationFormed p cfg = true)
    (hx : s.xferIn = resetAnswers q1 q2 fails q3 ++ qs.map answerOf ++ X)
    (reset : ResetSucceeds p q1 q2 fails q3) (hq : ∀ q ∈ qs, Good p q) (all : qs.length = 38) :
    configureSeq p v cfg s =
      (applyFifoLimit p (fifoLimit cfg) { discardConfig s with
        xferIn := X, trace := s.trace ++ softResetEvents p q1 q2 fails q3 ++ wordEvents p cfg.words qs }).bind fun _ s3 =>
          .ok .none { s3 with config := some cfg, life := .armed } := by
  rw [List.append_assoc] at hx
  obtain ⟨words, -⟩ := configurationFormed_iff.mp formed
  rw [configureSeq_of_reset valid hx reset, writeWords_ok cfg.words qs _ X (all.trans words.symm) rfl hq, bind_ok]

/-- The threshold of a valid limit is programmed by a read-modify-write (41_control_sequences.md R127). -/
theorem applyFifoLimit_eq (valid : fifoLimitValid p v (fifoLimit cfg) = true) (t : State) :
    applyFifoLimit p (fifoLimit cfg) t = readModifyWrite p p.addrSfctl p.sfctlCrefHi p.sfctlCrefLo
      (BitVec.ofNat 24 (fifoLimit cfg / 2 - 1)) t := by
  rw [applyFifoLimit, cref_setWidth valid]

/-- `CONFIGURE` whose every exchange succeeds (41_control_sequences.md R130). -/
theorem execWith_configure_arms {q1 q2 q3 q4 q5 : Byte × RegValue} {fails qs : List (Byte × RegValue)} {X : List XferAnswer}
    (hcmd : s.cmd = none) (hl : s.life ≠ .uninit) (hv : s.variant = some v) (formed : configurationFormed p cfg = true)
    (valid : fifoLimitValid p v (fifoLimit cfg) = true)
    (hx : s.xferIn = resetAnswers q1 q2 fails q3 ++ qs.map answerOf ++ [answerOf q4, answerOf q5] ++ X)
    (reset : ResetSucceeds p q1 q2 fails q3) (all : qs.length = 38) (hq : ∀ q ∈ qs, Good p q) (h4 : Good p q4)
    (h5 : Good p q5) :
    execWith p (.configure cfg) s = .next { s with
      life := .armed, config := some cfg, xferIn := X,
      trace := s.trace ++ softResetEvents p q1 q2 fails q3 ++ wordEvents p cfg.words qs ++
        [readEvent p p.addrSfctl q4.1 q4.2,
          writeEvent p p.addrSfctl (thresholdValue p q4.2 (fifoLimit cfg)) q5.1 q5.2,
          .result .configure (.ok .none)] } := by
  rw [List.append_assoc] at hx
  rw [execWith_configure hcmd hl hv formed, configureSeq_of_words valid formed hx reset hq all, applyFifoLimit_eq valid,
    readModifyWrite_ok _ _ _ _ q4.1 q5.1 q4.2 q5.2 X _ rfl h4 h5, bind_ok, finish_ok_of_cmd_none]
  · simp [emit, discardConfig, thresholdValue]
  · exact hcmd

/-- `CONFIGURE` whose sequence raises after the events `es` (41_control_sequences.md R130). -/
theorem execWith_configure_stops {X : List XferAnswer} {es : List Event} {e : Error} (hcmd : s.cmd = none)
    (hl : s.life ≠ .uninit) (hv : s.variant = some v) (formed : configurationFormed p cfg = true)
    (h : configureSeq p v cfg s = .raised e { discardConfig s with xferIn := X, trace := s.trace ++ es }) :
    execWith p (.configure cfg) s = .next (configureStopped s X es e) := by
  rw [execWith_configure hcmd hl hv formed, h, finish_raised_of_cmd_none]
  · rfl
  · exact hcmd

/-! ### Valid limits (41_control_sequences.md R125) -/

/-- A number that shares no bit with its predecessor is a power of two. -/
theorem exists_eq_two_pow {n : Nat} (pos : 0 < n) (h : n &&& (n - 1) = 0) : ∃ k, n = 2 ^ k := by
  induction n using Nat.strong_induction_on with
  | _ n ih =>
    by_cases one : n = 1
    · exact ⟨0, one⟩
    · have half : n / 2 &&& (n - 1) / 2 = 0 := by rw [← Nat.and_div_two, h]
      have even : n % 2 = 0 := by
        by_contra odd
        rw [show (n - 1) / 2 = n / 2 by omega, Nat.and_self] at half
        omega
      rw [show (n - 1) / 2 = n / 2 - 1 by omega] at half
      obtain ⟨k, hk⟩ := ih (n / 2) (by omega) (by omega) half
      exact ⟨k + 1, by rw [Nat.pow_succ]; omega⟩

theorem two_pow_and_pred (k : Nat) : 2 ^ k &&& (2 ^ k - 1) = 0 := by
  rw [Nat.and_two_pow_sub_one_eq_mod, Nat.mod_self]

/-- The valid limits under `POW2_EVEN`, for a bound that is a power of two. -/
theorem fifoLimitValid_pow2 {limit b : Nat} (rule : p.fifoLimitRule = .pow2Even) (bound : maxBlocks v = 2 ^ b) :
    fifoLimitValid p v limit = true ↔ ∃ k, 1 ≤ k ∧ k ≤ b + 1 ∧ limit = 2 ^ k := by
  simp only [fifoLimitValid, rule, bound, Bool.and_eq_true, decide_eq_true_eq, beq_iff_eq]
  constructor
  · rintro ⟨⟨two, bits⟩, small⟩
    obtain ⟨k, rfl⟩ := exists_eq_two_pow (by omega) bits
    obtain ⟨j, rfl⟩ : ∃ j, k = j + 1 := Nat.exists_eq_succ_of_ne_zero (by rintro rfl; simp at two)
    rw [Nat.pow_succ, Nat.mul_div_cancel _ (by decide)] at small
    exact ⟨j + 1, by omega, by have := (Nat.pow_le_pow_iff_right (by decide)).mp small; omega, rfl⟩
  · rintro ⟨k, one, small, rfl⟩
    obtain ⟨j, rfl⟩ : ∃ j, k = j + 1 := ⟨k - 1, by omega⟩
    have := Nat.pow_le_pow_right (show 0 < 2 by decide) (show j ≤ b by omega)
    have := Nat.two_pow_pos j
    exact ⟨⟨by rw [Nat.pow_succ]; omega, two_pow_and_pred _⟩, by rw [Nat.pow_succ, Nat.mul_div_cancel _ (by decide)]; omega⟩

/-- The valid limits under `EVEN`. -/
theorem fifoLimitValid_even_rule {limit : Nat} (rule : p.fifoLimitRule = .even) :
    fifoLimitValid p v limit = true ↔ 2 ≤ limit ∧ limit % 2 = 0 ∧ limit ≤ 2 * maxBlocks v := by
  simp only [fifoLimitValid, rule, Bool.and_eq_true, decide_eq_true_eq, beq_iff_eq, and_assoc]
  refine and_congr_right fun _ => and_congr_right fun even => ?_
  omega

/-- The threshold of a valid limit fits its field (41_control_sequences.md R126). -/
theorem cref_toNat {limit : Nat} (valid : fifoLimitValid p v limit = true) :
    (cref limit).toNat = limit / 2 - 1 ∧ (cref limit).toNat ≤ maxBlocks v - 1 := by
  simp only [fifoLimitValid, Bool.and_eq_true, decide_eq_true_eq] at valid
  have small : limit / 2 ≤ maxBlocks v := valid.2
  have bound : maxBlocks v ≤ 2 ^ 13 := by cases v <;> decide
  have exact : (cref limit).toNat = limit / 2 - 1 := by
    rw [cref, BitVec.toNat_ofNat]
    exact Nat.mod_eq_of_lt (by omega)
  exact ⟨exact, by omega⟩

/-! ### The statements -/

/-- Settles O21. -/
theorem configureProgramsTheChipAndArms : Obligations.ConfigureProgramsTheChipAndArms := by
  intro s v cfg q1 q2 q3 q4 q5 fails qs X hcmd hl hv formed valid hx reset all hq h4 h5
  rw [exec_eq_execWith, execWith_configure_arms hcmd hl hv formed valid hx reset all hq h4 h5]

/-- Settles O22: the stage that raises is the last, and each stage before it has added its events. -/
theorem configureStopsAtItsFirstError : Obligations.ConfigureStopsAtItsFirstError := by
  intro s v cfg X hcmd hl hv formed valid
  have stops := fun es e => execWith_configure_stops (X := X) (es := es) (e := e) hcmd hl hv formed
  rw [exec_eq_execWith]
  refine ⟨fun x e hx h => stops _ e ?_, fun q1 x e hx h1 h => stops _ e ?_, fun q1 q2 fails hx h1 h2 few hf => stops _ _ ?_,
    fun q1 q2 fails hx h1 h2 five hf => stops _ _ ?_, fun q1 q2 fails q3 qs w x e hx reset hq hw h => stops _ e ?_,
    fun q1 q2 fails q3 qs x e hx reset hq all h => stops _ e ?_,
    fun q1 q2 fails q3 qs q4 x e hx reset hq all h4 h => stops _ e ?_⟩
  · exact configureSeq_reset_raises valid (resetSoftware_strobe_raises (strobe_read_raises _ _ x e X _ hx h))
  · exact configureSeq_reset_raises valid
      (resetSoftware_strobe_raises (strobe_write_raises _ _ q1.1 q1.2 x e X _ hx h1 h))
  · exact configureSeq_reset_raises valid (resetSoftware_transport hx h1 h2 few hf)
  · exact configureSeq_reset_raises valid (resetSoftware_timeout hx h1 h2 five hf)
  · rw [List.append_assoc] at hx
    rw [configureSeq_of_reset valid hx reset, writeWords_raises cfg.words qs w x e _ X hw rfl hq h, bind_raised]
    simp
  · rw [configureSeq_of_words valid formed hx reset hq all, applyFifoLimit_eq valid,
      readModifyWrite_read_raises _ _ _ _ x e X _ rfl h, bind_raised]
    simp
  · rw [configureSeq_of_words valid formed hx reset hq all, applyFifoLimit_eq valid,
      readModifyWrite_write_raises _ _ _ _ q4.1 q4.2 x e X _ rfl h4 h, bind_raised]
    simp [thresholdValue]

/-- Settles O23. -/
theorem configureRejectsAnInvalidLimit : Obligations.ConfigureRejectsAnInvalidLimit := by
  intro s v cfg hcmd hl hv formed invalid
  rw [exec_eq_execWith, execWith_configure hcmd hl hv formed, configureSeq_invalid invalid,
    finish_raised_of_cmd_none]
  · rfl
  · exact hcmd

/-- Settles O24, from everything `CONFIGURE` can do. -/
theorem configureActivatesOrDiscards : Obligations.ConfigureActivatesOrDiscards := by
  intro s v cfg hcmd hl hv formed
  obtain ⟨xi, d, es, ⟨h, -⟩ | ⟨r, h, -⟩⟩ := configure_cases (p := params) v cfg s <;>
    rw [exec_eq_execWith, execWith_configure hcmd hl hv formed, h]
  · exact ⟨_, rfl, rfl, .inl ⟨rfl, rfl, List.getLast?_concat⟩⟩
  · exact ⟨_, rfl, rfl, .inr ⟨rfl, rfl, r, List.getLast?_concat⟩⟩

/-- Settles O25: the bounds of the two variants are 2 to the power of 13 and of 11. -/
theorem validLimitsAndTheirThreshold : Obligations.ValidLimitsAndTheirThreshold := fun _ _ =>
  ⟨fun rule => ⟨fifoLimitValid_pow2 (b := 13) rule rfl, fifoLimitValid_pow2 (b := 11) rule rfl⟩,
    fun rule _ => fifoLimitValid_even_rule rule, fun _ => cref_toNat⟩

end Sys2Proof.Machine
end

section
/-! SUPPORT. The unpacker (43_unpacker.md), the strides and the payload (42_fifo_acquisition.md R161, R164), and the register views
(10_state.md R31 to R34), as numbers and bits. -/

namespace Sys2Proof.Machine

open Sys2Proof.Config

/-! ### Samples as numbers -/

theorem fromBE24_toNat (b0 b1 b2 : Byte) : (fromBE24 b0 b1 b2).toNat = b0.toNat * 65536 + b1.toNat * 256 + b2.toNat := by
  rw [fromBE24, BitVec.toNat_append, ← Nat.shiftLeft_add_eq_or_of_lt b2.isLt, BitVec.toNat_append,
    ← Nat.shiftLeft_add_eq_or_of_lt b1.isLt]
  simp only [Nat.shiftLeft_eq]
  omega

/-- The even sample is the first byte and the high half of the second (43_unpacker.md R182). -/
theorem evenSample_toNat (b0 b1 : Byte) : (evenSample b0 b1).toNat = b0.toNat * 16 + b1.toNat / 16 := by
  have h0 := b0.isLt
  have h1 := b1.isLt
  have low : b1.toNat / 16 < 2 ^ 4 := by omega
  rw [evenSample, BitVec.toNat_or, BitVec.toNat_shiftLeft, BitVec.toNat_ushiftRight, BitVec.toNat_setWidth,
    BitVec.toNat_setWidth, Nat.mod_eq_of_lt (a := b0.toNat) (by omega), Nat.mod_eq_of_lt (a := b1.toNat) (by omega),
    Nat.mod_eq_of_lt (a := b0.toNat <<< 4) (by rw [Nat.shiftLeft_eq]; omega), Nat.shiftRight_eq_div_pow, ← Nat.shiftLeft_add_eq_or_of_lt low, Nat.shiftLeft_eq]

/-- The odd sample is the low half of the first byte and the second (43_unpacker.md R183). -/
theorem oddSample_toNat (b0 b1 : Byte) : (oddSample b0 b1).toNat = b0.toNat % 16 * 256 + b1.toNat := by
  have h1 := b1.isLt
  have low : (b0 &&& 0x0F).toNat = b0.toNat % 16 := Nat.and_two_pow_sub_one_eq_mod b0.toNat 4
  rw [oddSample, BitVec.toNat_or, BitVec.toNat_shiftLeft, BitVec.toNat_setWidth, BitVec.toNat_setWidth, low,
    Nat.mod_eq_of_lt (a := b0.toNat % 16) (by omega), Nat.mod_eq_of_lt (a := b1.toNat) (by omega),
    Nat.mod_eq_of_lt (a := (b0.toNat % 16) <<< 8) (by rw [Nat.shiftLeft_eq]; omega), ← Nat.shiftLeft_add_eq_or_of_lt h1, Nat.shiftLeft_eq]

theorem windowAt_even (k : Nat) : windowAt (2 * k) = 3 * k := by
  unfold windowAt
  omega

theorem windowAt_odd (k : Nat) : windowAt (2 * k + 1) = 3 * k + 1 := by
  unfold windowAt
  omega

/-- The two samples of the packed block at byte `3k` (43_unpacker.md R181 to R183). -/
theorem unpack_block {p : List Byte} {k : Nat} {b0 b1 b2 : Byte} (h0 : p[3 * k]? = some b0) (h1 : p[3 * k + 1]? = some b1)
    (h2 : p[3 * k + 2]? = some b2) :
    (unpack p (2 * k)).toNat = (fromBE24 b0 b1 b2).toNat / 2 ^ 12 ∧
      (unpack p (2 * k + 1)).toNat = (fromBE24 b0 b1 b2).toNat % 2 ^ 12 := by
  have := b0.isLt
  have := b1.isLt
  have := b2.isLt
  have even : 2 * k % 2 = 0 := by omega
  have odd : ¬(2 * k + 1) % 2 = 0 := by omega
  rw [fromBE24_toNat, unpack, if_pos even, unpack, if_neg odd, windowAt_even, windowAt_odd]
  simp only [List.getD_eq_getElem?_getD, h0, h1, h2, Option.getD_some, evenSample_toNat, oddSample_toNat]
  omega

/-- A sample has 12 bits (43_unpacker.md R186). -/
theorem unpack_le (p : List Byte) (i : Nat) : (unpack p i).toNat ≤ 0x0FFF := by
  unfold unpack
  generalize p.getD (windowAt i) 0 = b0
  generalize p.getD (windowAt i + 1) 0 = b1
  have := b0.isLt
  have := b1.isLt
  split
  · rw [evenSample_toNat]; omega
  · rw [oddSample_toNat]; omega

/-- The window of a sample is inside the payload (43_unpacker.md R187). -/
theorem windowAt_bound {limit i : Nat} (h : i < limit) : windowAt i + 1 ≤ payloadBytes limit - 1 := by
  unfold windowAt payloadBytes
  omega

/-! ### Packed pairs -/

/-- The packed block of a pair is the pair as one 24-bit number (43_unpacker.md R184). -/
theorem fromBE24_pack (a b : BitVec 12) :
    (fromBE24 (a.extractLsb' 4 8) (a.extractLsb' 0 4 ++ b.extractLsb' 8 4) (b.extractLsb' 0 8)).toNat =
      a.toNat * 2 ^ 12 + b.toNat := by
  have ha := a.isLt
  have hb := b.isLt
  rw [fromBE24_toNat, BitVec.toNat_append, ← Nat.shiftLeft_add_eq_or_of_lt (BitVec.isLt _)]
  simp only [BitVec.extractLsb'_toNat, Nat.shiftRight_eq_div_pow, Nat.shiftLeft_eq]
  omega

/-- Byte `j` of block `k` of concatenated blocks of three bytes. -/
theorem getElem?_packed (ps : List (BitVec 12 × BitVec 12)) (k j : Nat) (hk : k < ps.length) (hj : j < 3) :
    (ps.flatMap fun q => pack q.1 q.2)[3 * k + j]? = (pack ps[k].1 ps[k].2)[j]? := by
  induction ps generalizing k with
  | nil => simp at hk
  | cons q ps ih =>
    have three : (pack q.1 q.2).length = 3 := rfl
    cases k with
    | zero => rw [List.flatMap_cons, List.getElem?_append_left (by omega)]; simp
    | succ k =>
      rw [List.flatMap_cons, List.getElem?_append_right (by omega), three, show 3 * (k + 1) + j - 3 = 3 * k + j by omega,
        ih k (by simpa using hk), List.getElem_cons_succ]

/-! ### Strides -/

theorem strideIndex_eq (R S a c s : Nat) : strideIndex R S a c s = a + R * (s + S * c) := by
  unfold strideIndex
  ring

/-- Two digits make a number below the product of their bases. -/
theorem digits_lt {a R m M : Nat} (ha : a < R) (hm : m < M) : a + R * m < R * M :=
  calc a + R * m < R + R * m := Nat.add_lt_add_right ha _
    _ = R * (m + 1) := by ring
    _ ≤ R * M := Nat.mul_le_mul_left R hm

/-- The two digits of a number are its own. -/
theorem digits_unique {a a' R m m' : Nat} (ha : a < R) (ha' : a' < R) (h : a + R * m = a' + R * m') : a = a' ∧ m = m' := by
  have hdigit := congrArg (· % R) h
  have hrest := congrArg (· / R) h
  have pos : 0 < R := Nat.zero_lt_of_lt ha
  simp only [Nat.add_mul_mod_self_left, Nat.mod_eq_of_lt ha, Nat.mod_eq_of_lt ha'] at hdigit
  simp only [Nat.add_mul_div_left _ _ pos, Nat.div_eq_of_lt ha, Nat.div_eq_of_lt ha', Nat.zero_add] at hrest
  exact ⟨hdigit, hrest⟩

/-! ### Register images -/

/-- The bits of an image that holds one bit. -/
theorem bitAt_getElem (j k : Nat) (b : Bool) (hk : k < 24) : (bitAt j b)[k] = (decide (j = k) && b) := by
  cases b
  · simp [bitAt]
  · simp only [bitAt, BitVec.getElem_shiftLeft, BitVec.ofBool_true]
    grind

/-- An image shares no bit with a mask that does not name its own. -/
theorem bitAt_and {k : Nat} (b : Bool) {mask : RegValue} (h : mask.getLsbD k = false) : bitAt k b &&& mask = 0 := by
  ext i hi
  rw [BitVec.getElem_and, bitAt_getElem k i b hi]
  by_cases hk : k = i
  · subst hk
    simpa [BitVec.getLsbD_eq_getElem hi] using fun _ => h
  · simp [hk]

theorem mainView_mainImage (m : MainView) : mainView params (mainImage params m) = m := by
  simp [mainView, mainImage, params, bitAt_getElem]

theorem mainImage_unnamed (m : MainView) : mainImage params m &&& 0xFFFFF0 = 0 := by
  simp only [mainImage, BitVec.and_or_distrib_right]
  rw [bitAt_and _ (by decide), bitAt_and _ (by decide), bitAt_and _ (by decide), bitAt_and _ (by decide)]
  rfl

theorem mainView_ignores (r x : RegValue) : mainView params (r ||| (x &&& 0xFFFFF0)) = mainView params r := by
  simp [mainView, params]

/-- An image shares no bit with a field that does not hold its own. -/
theorem bitAt_extractLsb' {k : Nat} (b : Bool) (hk : 13 ≤ k) : (bitAt k b).extractLsb' 0 13 = 0 := by
  ext i hi
  rw [BitVec.getElem_extractLsb', BitVec.getLsbD_eq_getElem (by omega), bitAt_getElem k _ b]
  simp
  omega

theorem sfctlView_sfctlImage (v : SfctlView) : sfctlView params (sfctlImage params v) = v := by
  have cref : (v.fifoCref.setWidth 24).extractLsb' 0 13 = v.fifoCref := by
    ext i hi
    simp only [BitVec.getElem_extractLsb', BitVec.getLsbD_setWidth, Nat.zero_add, BitVec.getLsbD_eq_getElem hi]
    simp
    omega
  simp [sfctlView, sfctlImage, params, bitAt_getElem, BitVec.extractLsb'_or, bitAt_extractLsb', cref]

theorem sfctlImage_unnamed (v : SfctlView) : sfctlImage params v &&& 0xF9C000 = 0 := by
  have cref : v.fifoCref.setWidth 24 &&& 0xF9C000 = 0 := by
    have low : ∀ i < 13, (0xF9C000 : RegValue).getLsbD i = false := by decide
    ext i hi
    rw [BitVec.getElem_and, BitVec.getElem_setWidth, ← BitVec.getLsbD_eq_getElem]
    by_cases h : i < 13
    · simpa using fun _ => low i h
    · simp [BitVec.getLsbD_of_ge v.fifoCref i (by omega)]
  simp only [sfctlImage, BitVec.and_or_distrib_right]
  rw [bitAt_and _ (by decide), bitAt_and _ (by decide), bitAt_and _ (by decide)]
  simpa [params] using cref

theorem sfctlView_ignores (r x : RegValue) : sfctlView params (r ||| (x &&& 0xF9C000)) = sfctlView params r := by
  simp [sfctlView, params, BitVec.extractLsb'_or, BitVec.extractLsb'_and]

theorem chipIdImage_toNat (v : ChipIdView) : (chipIdImage params v).toNat = v.digitalId.toNat * 256 + v.rfId.toNat := by
  have hd := v.digitalId.isLt
  have hr := v.rfId.isLt
  have digital : params.chipIdDigitalLo = 8 := rfl
  have rf : params.chipIdRfLo = 0 := rfl
  rw [chipIdImage, digital, rf, BitVec.toNat_or, BitVec.toNat_shiftLeft, BitVec.toNat_shiftLeft, BitVec.toNat_setWidth,
    BitVec.toNat_setWidth, Nat.mod_eq_of_lt (a := v.digitalId.toNat) (by omega), Nat.mod_eq_of_lt (a := v.rfId.toNat) (by omega),
    Nat.shiftLeft_zero, Nat.mod_eq_of_lt (a := v.rfId.toNat) (by omega),
    Nat.mod_eq_of_lt (by rw [Nat.shiftLeft_eq]; omega), ← Nat.shiftLeft_add_eq_or_of_lt hr, Nat.shiftLeft_eq]

theorem chipIdView_toNat (r : RegValue) :
    (chipIdView params r).digitalId.toNat = r.toNat / 256 ∧ (chipIdView params r).rfId.toNat = r.toNat % 256 := by
  have := r.isLt
  simp only [chipIdView, params, BitVec.extractLsb'_toNat, Nat.shiftRight_eq_div_pow]
  omega

theorem chipIdView_chipIdImage (v : ChipIdView) : chipIdView params (chipIdImage params v) = v := by
  have := v.digitalId.isLt
  have := v.rfId.isLt
  obtain ⟨hd, hr⟩ := chipIdView_toNat (chipIdImage params v)
  rw [chipIdImage_toNat] at hd hr
  have d : (chipIdView params (chipIdImage params v)).digitalId = v.digitalId := BitVec.eq_of_toNat_eq (by omega)
  have r : (chipIdView params (chipIdImage params v)).rfId = v.rfId := BitVec.eq_of_toNat_eq (by omega)
  cases v
  exact ChipIdView.mk.injEq .. ▸ ⟨d, r⟩

theorem chipIdImage_chipIdView (r : RegValue) : chipIdImage params (chipIdView params r) = r := by
  obtain ⟨hd, hr⟩ := chipIdView_toNat r
  apply BitVec.eq_of_toNat_eq
  rw [chipIdImage_toNat, hd, hr]
  omega

/-! ### The statements -/

/-- Settles O41, from the rounding up in the definition. -/
theorem payloadHoldsTwelveBitsPerSample : Obligations.PayloadHoldsTwelveBitsPerSample := by
  intro limit
  unfold payloadBytes
  omega

/-- Settles O42. -/
theorem samplesAreTheHalvesOfABlock : Obligations.SamplesAreTheHalvesOfABlock := by
  refine ⟨fun p k b0 b1 b2 h0 h1 h2 => ?_, unpack_le, fun _ _ => windowAt_bound⟩
  obtain ⟨even, odd⟩ := unpack_block h0 h1 h2
  exact ⟨even, odd, windowAt_even k, windowAt_odd k⟩

/-- Settles O43: block `k` of the concatenation is the packed pair `k`, whose halves are the samples. -/
theorem unpackInvertsPack : Obligations.UnpackInvertsPack := by
  intro ps k hk
  have byte := fun j => getElem?_packed ps k j hk
  obtain ⟨even, odd⟩ := unpack_block (byte 0 (by decide)) (byte 1 (by decide)) (byte 2 (by decide))
  rw [fromBE24_pack] at even odd
  have ha := (ps[k]).1.isLt
  have hb := (ps[k]).2.isLt
  constructor <;> apply BitVec.eq_of_toNat_eq
  · rw [even, BitVec.toNat_setWidth]
    omega
  · rw [odd, BitVec.toNat_setWidth]
    omega

/-- Settles O44: antenna, sample and chirp are the digits of the index in the bases `R`, `S` and `C`. -/
theorem stridesCoverTheFrame : Obligations.StridesCoverTheFrame := by
  intro R C S
  refine ⟨fun a c s ha hc hs => ?_, fun j hj => ?_, fun a c s a' c' s' ha _ hs ha' _ hs' h => ?_⟩
  · rw [strideIndex_eq, show R * C * S = R * (S * C) by ring]
    exact digits_lt ha (digits_lt hs hc)
  · have posR : 0 < R := Nat.pos_of_ne_zero (by rintro rfl; simp at hj)
    have posS : 0 < S := Nat.pos_of_ne_zero (by rintro rfl; simp at hj)
    have rest : j / R < C * S := Nat.div_lt_of_lt_mul (by rwa [← Nat.mul_assoc])
    refine ⟨j % R, j / R / S, j / R % S, Nat.mod_lt _ posR, Nat.div_lt_of_lt_mul (by rwa [Nat.mul_comm]),
      Nat.mod_lt _ posS, ?_⟩
    rw [strideIndex_eq, Nat.mod_add_div, Nat.mod_add_div]
  · rw [strideIndex_eq, strideIndex_eq] at h
    obtain ⟨sameAntenna, rest⟩ := digits_unique ha ha' h
    obtain ⟨sameSample, sameChirp⟩ := digits_unique hs hs' rest
    exact ⟨sameAntenna, sameChirp, sameSample⟩

/-- Settles O47, register by register. -/
theorem registerViewsAreLossless : Obligations.RegisterViewsAreLossless :=
  ⟨fun m => ⟨mainView_mainImage m, mainImage_unnamed m⟩, fun v => ⟨sfctlView_sfctlImage v, sfctlImage_unnamed v⟩,
    chipIdView_chipIdImage, chipIdImage_chipIdView, mainView_ignores, sfctlView_ignores⟩

end Sys2Proof.Machine
end

section
/-! SUPPORT. `ACQUIRE_FIFO` (42_fifo_acquisition.md R162): its checks, its wait and its burst on given answers, from its issue and
from a wait. -/

namespace Sys2Proof.Machine

open Sys2Proof.Config

variable {p : Params}

/-! ### The command buffer after a burst -/

/-- A command buffer in which the burst word has been written, and then the bytes `bs` from offset `a` on
(42_fifo_acquisition.md R162 steps 2 and 3). -/
def Memory.afterBurst (m : Memory) (w : Word32) (a : Nat) (bs : List Byte) : Memory := (m.writeBytes 0 (be32 w)).writeBytes a bs

theorem readBytes_afterBurst (m : Memory) (w : Word32) (rx : List Byte) :
    (m.afterBurst w 0 rx).readBytes 0 rx.length = rx := readBytes_writeBytes _ 0 rx

theorem readBytes_afterBurst_word (m : Memory) (w : Word32) (bs : List Byte) :
    (m.afterBurst w 4 bs).readBytes 0 4 = be32 w :=
  (readBytes_writeBytes_before _ 4 bs).trans (readBytes_writeBytes m 0 (be32 w))

/-- A burst writes nothing outside a buffer that holds its word. -/
theorem read_afterBurst_outside {m : Memory} {w : Word32} {a n k : Nat} {bs : List Byte} (h4 : 4 ≤ n) (hb : a + bs.length ≤ n)
    (hk : n ≤ k) : (m.afterBurst w a bs).read k = m.read k := by
  rw [Memory.afterBurst, read_writeBytes_outside _ _ _ _ (.inr (by omega)),
    read_writeBytes_outside _ _ _ _ (.inr (by simp; omega))]

/-- What a burst sends: the burst word, and the bytes that the host left after it (42_fifo_acquisition.md R162). -/
theorem cmdBytes_writeCmd_word (w : Word32) (s : State) (h4 : 4 ≤ s.cmdLen) :
    cmdBytes (writeCmd 0 (be32 w) s) = be32 w ++ (cmdBytes s).drop 4 :=
  readBytes_writePrefix s.cmdMem (be32 w) s.cmdLen h4

/-! ### The end of a wait -/

section Wait

variable {s : State} {v : Variant} {limit : Nat} {last last' : Option Level} {rest : List IrqObs} {X : List XferAnswer}

/-- Without a rising edge the command stays in flight (60_exceptions.md R236). -/
theorem acquireFromWait_pending (h : irqScan last s.irqIn = .pending last') :
    acquireFromWait p v limit last s = { s with irqIn := [], cmd := some (.acquireWait v limit last') } := by
  rw [acquireFromWait, h]

/-- A pin error ends the command and writes neither buffer (42_fifo_acquisition.md R162). -/
theorem acquireFromWait_failed (h : irqScan last s.irqIn = .failed rest) :
    acquireFromWait p v limit last s = { s with
      cmd := none, irqIn := rest, trace := s.trace ++ [.irqRise .pinError, .result .acquireFifo (.err .pin)] } := by
  rw [acquireFromWait, h]
  simp [raiseError, emit]

/-- After a rising edge a good response stands in `CMD` and its samples in `OUT` (42_fifo_acquisition.md R162). -/
theorem acquireFromWait_ok {rx : List Byte} (h : irqScan last s.irqIn = .risen rest) (h4 : 4 ≤ s.cmdLen)
    (hx : s.xferIn = .bytes rx :: X) (hrx : rx.length = s.cmdLen) (hg : isError p (responseStatus rx) = false) :
    acquireFromWait p v limit last s = { s with
      cmd := none, irqIn := rest, xferIn := X, cmdMem := s.cmdMem.afterBurst (burstWord p v) 0 rx,
      outBuf := (List.range limit).map (unpack (rx.drop 4)),
      trace := s.trace ++ [.irqRise .ok, .xfer (be32 (burstWord p v) ++ (s.cmdMem.readBytes 0 s.cmdLen).drop 4) (.bytes rx),
        .result .acquireFifo (.ok .none)] } := by
  have sent := cmdBytes_writeCmd_word (burstWord p v) (emit (.irqRise .ok) { s with irqIn := rest }) h4
  rw [acquireFromWait, h]
  simp only
  rw [acquireBurst, burstTransfer_ok _ rx X, sent, bind_ok]
  · simp [finish, returnValue, emit, writeCmd, Memory.afterBurst, unpackFrame, cmdBytes]
  exacts [hx, hrx, hg]

/-- After a rising edge a response with an error status stands in `CMD`, and `OUT` is as before (42_fifo_acquisition.md R162). -/
theorem acquireFromWait_status {rx : List Byte} (h : irqScan last s.irqIn = .risen rest) (h4 : 4 ≤ s.cmdLen)
    (hx : s.xferIn = .bytes rx :: X) (hrx : rx.length = s.cmdLen) (hg : isError p (responseStatus rx) = true) :
    acquireFromWait p v limit last s = { s with
      cmd := none, irqIn := rest, xferIn := X, cmdMem := s.cmdMem.afterBurst (burstWord p v) 0 rx,
      trace := s.trace ++ [.irqRise .ok, .xfer (be32 (burstWord p v) ++ (s.cmdMem.readBytes 0 s.cmdLen).drop 4) (.bytes rx),
        .result .acquireFifo (.err (.status (responseStatus rx)))] } := by
  have sent := cmdBytes_writeCmd_word (burstWord p v) (emit (.irqRise .ok) { s with irqIn := rest }) h4
  rw [acquireFromWait, h]
  simp only
  rw [acquireBurst, burstTransfer_status _ rx X, sent, bind_raised]
  · simp [finish, raiseError, emit, writeCmd, Memory.afterBurst, cmdBytes]
  exacts [hx, hrx, hg]

/-- After a rising edge a transport error leaves the burst word in `CMD`, free bytes after it, and `OUT` as before
(42_fifo_acquisition.md R162, 93_implementation_defined.md U2). -/
theorem acquireFromWait_transport (h : irqScan last s.irqIn = .risen rest) (h4 : 4 ≤ s.cmdLen)
    (hx : s.xferIn = .transportError :: X) :
    acquireFromWait p v limit last s = { s with
      cmd := none, irqIn := rest, xferIn := X,
      cmdMem := s.cmdMem.afterBurst (burstWord p v) 4 (freeBytes s.draws (s.cmdLen - 4)),
      draws := s.draws + (s.cmdLen - 4),
      trace := s.trace ++ [.irqRise .ok, .xfer (be32 (burstWord p v) ++ (s.cmdMem.readBytes 0 s.cmdLen).drop 4) .transportError,
        .result .acquireFifo (.err .transport)] } := by
  have sent := cmdBytes_writeCmd_word (burstWord p v) (emit (.irqRise .ok) { s with irqIn := rest }) h4
  rw [acquireFromWait, h]
  simp only
  rw [acquireBurst, burstTransfer_transport _ X, sent, bind_raised]
  · simp [finish, raiseError, emit, writeCmd, Memory.afterBurst, cmdBytes]
  exact hx

end Wait

/-! ### The issue of an acquisition -/

/-- An acquisition whose checks are met waits (42_fifo_acquisition.md R162). -/
theorem execWith_acquireFifo_waits {s : State} {v : Variant} {cfg : Configuration} {cmd : List Byte} {out : List Sample}
    (hcmd : s.cmd = none) (hl : s.life ≠ .uninit) (hv : s.variant = some v) (hc : s.config = some cfg)
    (hlen : cmd.length = 4 + payloadBytes (fifoLimit cfg)) (hout : out.length = fifoLimit cfg) :
    execWith p (.acquireFifo cmd out) s = .next (acquireFromWait p v (fifoLimit cfg) none (handOver cmd out s)) := by
  rw [execWith_acquireFifo hcmd hl cmd out hc hv, acquireChecked, if_neg (by simp [hlen]), if_neg (by simp [hout])]

/-- An acquisition that succeeds (42_fifo_acquisition.md R162). -/
theorem execWith_acquireFifo_frame {s : State} {v : Variant} {cfg : Configuration} {cmd rx : List Byte} {out : List Sample}
    {n m : Nat} {rest : List IrqObs} {X : List XferAnswer} (hcmd : s.cmd = none) (hl : s.life ≠ .uninit)
    (hv : s.variant = some v) (hc : s.config = some cfg) (hlen : cmd.length = 4 + payloadBytes (fifoLimit cfg))
    (hout : out.length = fifoLimit cfg) (hirq : s.irqIn = risingLine n m ++ rest) (hx : s.xferIn = .bytes rx :: X)
    (hrx : rx.length = cmd.length) (hg : isError p (responseStatus rx) = false) :
    ∃ mem : Memory, mem.readBytes 0 cmd.length = rx ∧ (∀ a, cmd.length ≤ a → mem.read a = Memory.blank) ∧
      execWith p (.acquireFifo cmd out) s = .next { s with
        cmdLen := cmd.length, cmdMem := mem, outBuf := (List.range (fifoLimit cfg)).map (unpack (rx.drop 4)),
        irqIn := rest, xferIn := X,
        trace := s.trace ++ [.irqRise .ok, .xfer (be32 (burstWord p v) ++ cmd.drop 4) (.bytes rx),
          .result .acquireFifo (.ok .none)] } := by
  have rises : irqScan none (handOver cmd out s).irqIn = .risen rest := by
    rw [handOver_irqIn, hirq, irqScan_rises]
  refine ⟨(handOver cmd out s).cmdMem.afterBurst (burstWord p v) 0 rx, hrx ▸ readBytes_afterBurst _ _ rx, fun a ha => ?_, ?_⟩
  · rw [read_afterBurst_outside (by omega) (by omega) ha, read_handOver_outside _ _ _ _ ha]
  · rw [execWith_acquireFifo_waits hcmd hl hv hc hlen hout,
      acquireFromWait_ok (s := handOver cmd out s) rises (by simp [hlen]) hx hrx hg, handOver_cmdLen, readBytes_handOver]
    simp [handOver, hcmd]

/-! ### Everything an acquisition can do -/

/-- An acquisition that is accepted stops at its checks, with both buffers as handed over, or waits. -/
theorem execWith_acquireFifo_cases {s t : State} {cmd : List Byte} {out : List Sample}
    (h : execWith p (.acquireFifo cmd out) s = .next t) :
    (∃ e, t = raiseError .acquireFifo e (handOver cmd out s)) ∨
      ∃ v, t = acquireFromWait p v out.length none (handOver cmd out s) := by
  obtain ⟨-, -, h⟩ := accept_next h
  split at h
  · cases h
    exact .inl ⟨_, rfl⟩
  · next cfg _ =>
    split at h
    · cases h
    · next v _ =>
      cases h
      unfold acquireChecked
      split
      · exact .inl ⟨_, rfl⟩
      · split
        · exact .inl ⟨_, rfl⟩
        · next hout =>
          obtain hout : out.length = fifoLimit cfg := by simpa using hout
          exact .inr ⟨v, by rw [hout]⟩

/-- From its wait on an acquisition keeps the length of `CMD`, and writes `OUT` only with the samples of a success. -/
theorem acquireFromWait_samples (v : Variant) (limit : Nat) (last : Option Level) (s : State) :
    (acquireFromWait p v limit last s).cmdLen = s.cmdLen ∧
      ((acquireFromWait p v limit last s).outBuf = s.outBuf ∨
        ((acquireFromWait p v limit last s).trace.getLast? = some (.result .acquireFifo (.ok .none)) ∧
          (acquireFromWait p v limit last s).outBuf.length = limit ∧
          ∀ x ∈ (acquireFromWait p v limit last s).outBuf, x.toNat ≤ 0x0FFF)) := by
  rcases acquireFromWait_cases (p := p) v limit last s with
    ⟨last', h⟩ | ⟨rest, xi, d, mem, es, q, ob, h, -, -, -, rfl | ⟨rfl, payload, rfl⟩⟩ <;> rw [h]
  · exact ⟨rfl, .inl rfl⟩
  · exact ⟨rfl, .inl rfl⟩
  · refine ⟨rfl, .inr ⟨List.getLast?_concat, by simp [unpackFrame], fun x hx => ?_⟩⟩
    obtain ⟨i, -, rfl⟩ := List.mem_map.mp hx
    exact unpack_le payload i

/-- A step with an acquisition in flight goes on with it (10_state.md R26). -/
theorem step_waiting {s : State} {v : Variant} {limit : Nat} {last : Option Level}
    (hw : s.cmd = some (.acquireWait v limit last)) : step s = .next (acquireFromWait params v limit last s) := by
  simp [step, stepBy, hw, resume]

/-- A line that is HIGH throughout is one that rests. -/
theorem replicate_high (n : Nat) : List.replicate n (IrqObs.level .high) = restingLine n 0 := by simp [restingLine]

/-- A line without a LOW shows none. -/
theorem lastSeen_ne_low {last : Option Level} (h : last ≠ some .low) (n : Nat) : lastSeen last n 0 ≠ some .low := by
  by_cases hn : n = 0 <;> simp [lastSeen, hn, h]

/-- A wait that sees HIGH after LOW ends at the edge (60_exceptions.md R236). -/
theorem irqScan_edge {last : Option Level} {n m : Nat} (rest : List IrqObs) (h : last = some .low → n = 0)
    (low : m ≠ 0 ∨ last = some .low) : irqScan last (restingLine n m ++ .level .high :: rest) = .risen rest := by
  have seen : lastSeen last n m = some .low := by
    by_cases hm : m = 0
    · have := low.resolve_left (not_not.mpr hm)
      simp [lastSeen, hm, h this, this]
    · simp [lastSeen, hm]
  rw [irqScan_resting last n m _ h, seen]
  simp [irqScan]

/-! ### The statements -/

/-- Settles O34. -/
theorem acquireReadsOneFrame : Obligations.AcquireReadsOneFrame := by
  intro s v cfg cmd rx out n m rest X hcmd hl hv hc hlen hout hirq hx hrx hg
  rw [exec_eq_execWith]
  exact execWith_acquireFifo_frame hcmd hl hv hc hlen hout hirq hx hrx hg

/-- Settles O35: the buffers are handed over before the checks, which end the command one after the other. -/
theorem acquireChecksItsBuffersFirst : Obligations.AcquireChecksItsBuffersFirst := by
  intro s v cmd out hcmd hl hv
  rw [exec_eq_execWith]
  refine ⟨(handOver cmd out s).cmdMem, readBytes_handOver cmd out s, fun hc => ?_, fun cfg hc hlen => ?_,
    fun cfg hc hlen hout => ?_⟩
  · rw [execWith_acquireFifo_unconfigured hcmd hl cmd out hc]
    simp [raiseError, emit, handOver, hcmd]
  · rw [execWith_acquireFifo hcmd hl cmd out hc hv, acquireChecked, handOver_cmdLen, if_pos hlen]
    simp [raiseError, emit, handOver, hcmd]
  · rw [execWith_acquireFifo hcmd hl cmd out hc hv, acquireChecked, handOver_cmdLen, handOver_outBuf,
      if_neg (not_not.mpr hlen), if_pos hout]
    simp [raiseError, emit, handOver, hcmd]

/-- Settles O36, by the answer to the burst. -/
theorem failedBurstsLeaveTheSamples : Obligations.FailedBurstsLeaveTheSamples := by
  intro s v cfg cmd out n m rest X hcmd hl hv hc hlen hout hirq
  have rises : irqScan none (handOver cmd out s).irqIn = .risen rest := by
    rw [handOver_irqIn, hirq, irqScan_rises]
  have h4 : 4 ≤ (handOver cmd out s).cmdLen := by simp [hlen]
  rw [exec_eq_execWith, execWith_acquireFifo_waits hcmd hl hv hc hlen hout]
  refine ⟨fun rx hx hrx hg => ⟨(handOver cmd out s).cmdMem.afterBurst (burstWord params v) 0 rx,
    hrx ▸ readBytes_afterBurst _ _ rx, fun a ha => ?_, ?_⟩,
    fun hx => ⟨(handOver cmd out s).cmdMem.afterBurst (burstWord params v) 4 (freeBytes s.draws (cmd.length - 4)),
      s.draws + (cmd.length - 4), readBytes_afterBurst_word _ _ _, fun a ha => ?_, ?_⟩⟩
  · rw [read_afterBurst_outside (by omega) (by omega) ha, read_handOver_outside _ _ _ _ ha]
  · rw [acquireFromWait_status (s := handOver cmd out s) rises h4 hx hrx hg, handOver_cmdLen, readBytes_handOver]
    simp [handOver, hcmd]
  · rw [read_afterBurst_outside (by omega) (by rw [length_freeBytes]; omega) ha, read_handOver_outside _ _ _ _ ha]
  · rw [acquireFromWait_transport (s := handOver cmd out s) rises h4 hx, handOver_cmdLen, readBytes_handOver]
    simp [handOver, hcmd]

/-- Settles O37. -/
theorem waitReportsAPinError : Obligations.WaitReportsAPinError := by
  intro s v cfg cmd out n m rest hcmd hl hv hc hlen hout hirq
  have fails : irqScan none (handOver cmd out s).irqIn = .failed rest := by
    rw [handOver_irqIn, hirq, irqScan_pinError _ _ _ _ (by simp)]
  refine ⟨(handOver cmd out s).cmdMem, readBytes_handOver cmd out s, read_handOver_outside cmd out s, ?_⟩
  rw [exec_eq_execWith, execWith_acquireFifo_waits hcmd hl hv hc hlen hout, acquireFromWait_failed fails]
  simp [handOver, hcmd]

/-- Settles O38: a line that is HIGH throughout rests without a LOW. -/
theorem lineHeldHighNeverEndsTheWait : Obligations.LineHeldHighNeverEndsTheWait := by
  refine ⟨fun s v cfg cmd out n hcmd hl hv hc hlen hout hirq => ?_, fun s v limit last k hw hlast hirq => ?_⟩
  · have waits : irqScan none (handOver cmd out s).irqIn = .pending (lastSeen none n 0) := by
      rw [handOver_irqIn, hirq, replicate_high, irqScan_pending _ _ _ (by simp)]
    refine ⟨(handOver cmd out s).cmdMem, _, lastSeen_ne_low (last := none) (by simp) n, readBytes_handOver cmd out s,
      read_handOver_outside cmd out s, ?_⟩
    rw [exec_eq_execWith, execWith_acquireFifo_waits hcmd hl hv hc hlen hout, acquireFromWait_pending waits]
    rfl
  · have waits : irqScan last s.irqIn = .pending (lastSeen last k 0) := by
      rw [hirq, replicate_high, irqScan_pending _ _ _ (fun h => absurd h hlast)]
    exact ⟨_, lastSeen_ne_low hlast k, by rw [step_waiting hw, acquireFromWait_pending waits]⟩

/-- Settles O39, by what the wait observes and what the exchange answers. -/
theorem waitingAcquisitionGoesOn : Obligations.WaitingAcquisitionGoesOn := by
  refine ⟨fun s v cfg cmd out n m hcmd hl hv hc hlen hout hirq => ?_, fun s v limit last n m hw hlow => ?_⟩
  · have waits : irqScan none (handOver cmd out s).irqIn = .pending (lastSeen none n m) := by
      rw [handOver_irqIn, hirq, irqScan_pending _ _ _ (by simp)]
    refine ⟨(handOver cmd out s).cmdMem, readBytes_handOver cmd out s, read_handOver_outside cmd out s, ?_⟩
    rw [exec_eq_execWith, execWith_acquireFifo_waits hcmd hl hv hc hlen hout, acquireFromWait_pending waits]
    rfl
  · rw [step_waiting hw]
    refine ⟨fun rest hirq low hlen => ?_, fun rest hirq => ?_, fun hirq => ?_⟩
    · have rises : irqScan last s.irqIn = .risen rest := by rw [hirq, irqScan_edge rest hlow low]
      have h4 : 4 ≤ s.cmdLen := by omega
      refine ⟨fun rx X hx hrx => ⟨s.cmdMem.afterBurst (burstWord params v) 0 rx, hrx ▸ readBytes_afterBurst _ _ rx,
        fun a ha => read_afterBurst_outside h4 (by omega) ha,
        fun hg => by rw [acquireFromWait_ok rises h4 hx hrx hg], fun hg => by rw [acquireFromWait_status rises h4 hx hrx hg]⟩,
        fun X hx => ⟨s.cmdMem.afterBurst (burstWord params v) 4 (freeBytes s.draws (s.cmdLen - 4)), _,
          readBytes_afterBurst_word _ _ _, fun a ha => read_afterBurst_outside h4 (by rw [length_freeBytes]; omega) ha,
          by rw [acquireFromWait_transport rises h4 hx]⟩⟩
    · rw [acquireFromWait_failed (by rw [hirq, irqScan_pinError _ _ _ _ hlow])]
    · rw [acquireFromWait_pending (by rw [hirq, irqScan_pending _ _ _ hlow])]

/-- Settles O40, from everything an acquisition can do. -/
theorem samplesAreWrittenOnlyOnSuccess : Obligations.SamplesAreWrittenOnlyOnSuccess := by
  refine ⟨fun s t cmd out h => ?_, fun s t v limit last hw h => ?_⟩
  · rw [exec_eq_execWith] at h
    rcases execWith_acquireFifo_cases h with ⟨e, rfl⟩ | ⟨v, rfl⟩
    · exact ⟨rfl, .inl rfl⟩
    · exact acquireFromWait_samples v out.length none (handOver cmd out s)
  · rw [step_waiting hw] at h
    cases h
    exact acquireFromWait_samples v limit last s

end Sys2Proof.Machine
end

section
/-! SUPPORT. The results of commands (60_exceptions.md R231, R235): what a command reports, and what an error leaves. -/

namespace Sys2Proof.Machine

open Sys2Proof.Config

variable {p : Params}

/-! ### Reports -/

/-- From `s` to `t` the trace gains events that are no results, and then the result `q` of `c` (60_exceptions.md R231). -/
def Reports (c : HostOp) (q : CmdResult) (s t : State) : Prop :=
  ∃ es, t.trace = s.trace ++ es ++ [.result c q] ∧ ∀ e ∈ es, e.isResult = false

/-- A trace has one last event, so a command reports one result. -/
theorem Reports.unique {c c' : HostOp} {q q' : CmdResult} {s t : State} (h : Reports c q s t) {es : List Event}
    (ht : t.trace = s.trace ++ es ++ [.result c' q']) : q = q' := by
  obtain ⟨es', ht', -⟩ := h
  have last : Event.result c q = .result c' q' := (List.append_inj' (ht'.symm.trans ht) rfl).2 |> List.singleton_inj.mp
  cases last
  rfl

theorem not_result_of_port {es : List Event} (h : ∀ e ∈ es, PortEvent p e) : ∀ e ∈ es, e.isResult = false :=
  fun e he => (h e he).not_result

/-- No event of a reset pulse is a result. -/
theorem not_result_of_pulse {es : List Event} (h : ∀ e ∈ es, PortEvent p e) : ∀ e ∈ resetPulse ++ es, e.isResult = false := by
  intro e he
  rcases List.mem_append.mp he with he | he
  · exact (by decide : ∀ e ∈ resetPulse, e.isResult = false) e he
  · exact (h e he).not_result

/-- A host command waits as an `ACQUIRE_FIFO` with nothing done, or reports once and leaves the life of the lifecycle table
(41_control_sequences.md R135). -/
theorem Ran.reports {s t : State} {i : Instr} {c : HostOp} (h : Ran p s i t) (hi : i.hostOp = some c) :
    (t.cmd ≠ none ∧ c = .acquireFifo ∧ t.life = s.life ∧ t.trace = s.trace) ∨
      (t.cmd = none ∧ ∃ q, Reports c q s t ∧ t.life = lifeAfter c s.life q.isOk) := by
  cases h with
  | initOk v l ri d xi es life port =>
    cases hi
    exact .inr ⟨rfl, _, ⟨_, rfl, not_result_of_pulse port⟩, rfl⟩
  | initError v l ri d xi es r life quiet =>
    cases hi
    exact .inr ⟨rfl, _, ⟨es, rfl, quiet⟩, rfl⟩
  | configureOk cfg v xi d es life variant formed valid port =>
    cases hi
    exact .inr ⟨rfl, _, ⟨es, rfl, not_result_of_port port⟩, rfl⟩
  | configureError cfg xi d es r life port =>
    cases hi
    exact .inr ⟨rfl, _, ⟨es, rfl, not_result_of_port port⟩, rfl⟩
  | start xi d es q life port =>
    cases hi
    exact .inr ⟨rfl, q, ⟨es, rfl, not_result_of_port port⟩, rfl⟩
  | stop xi d es q life port =>
    cases hi
    exact .inr ⟨rfl, q, ⟨es, rfl, not_result_of_port port⟩, by simp [lifeAfter]⟩
  | ported _ c' xi d es q host which port =>
    obtain rfl : c' = c := Option.some.inj (host.symm.trans hi)
    refine .inr ⟨rfl, q, ⟨es, rfl, not_result_of_port port⟩, ?_⟩
    rcases which with ⟨rfl | rfl | rfl, -⟩ | ⟨rfl, -⟩ <;> rfl
  | acquireWaits =>
    cases hi
    exact .inl ⟨by simp, rfl, rfl, rfl⟩
  | acquireEnds cmd out rest xi d mem es q ob life quiet =>
    cases hi
    exact .inr ⟨rfl, q, ⟨es, rfl, quiet⟩, rfl⟩
  | transfer _ _ _ _ _ wire => rw [wire] at hi; cases hi
  | burst => cases hi

/-- A waiting acquisition that goes on waits with nothing done, or reports once; it leaves `life`, variant, configuration and the
reset output, and writes `OUT` only with a success (60_exceptions.md R235). -/
theorem acquireFromWait_reports (v : Variant) (limit : Nat) (last : Option Level) (s t : State)
    (ht : t = acquireFromWait p v limit last s) :
    (t.life = s.life ∧ t.variant = s.variant ∧ t.config = s.config ∧ t.rstLevel = s.rstLevel) ∧
      ((t.cmd ≠ none ∧ t.trace = s.trace ∧ t.outBuf = s.outBuf) ∨
        (t.cmd = none ∧ ∃ q, Reports .acquireFifo q s t ∧ (q = .ok .none ∨ t.outBuf = s.outBuf))) := by
  subst ht
  rcases acquireFromWait_cases (p := p) v limit last s with
    ⟨last', h⟩ | ⟨rest, xi, d, mem, es, q, ob, h, quiet, -, -, written⟩ <;> rw [h]
  · exact ⟨⟨rfl, rfl, rfl, rfl⟩, .inl ⟨by simp, rfl, rfl⟩⟩
  · exact ⟨⟨rfl, rfl, rfl, rfl⟩, .inr ⟨rfl, q, ⟨es, rfl, quiet⟩, written.symm.imp (·.1) id⟩⟩

/-! ### Errors -/

/-- The life after a command that ended with an error, `CONFIGURE` apart (41_control_sequences.md R135). -/
theorem lifeAfter_error {c : HostOp} (hc : c ≠ .configure) (l : Life) : lifeAfter c l false = l := by
  cases c with
  | configure => exact absurd rfl hc
  | _ => rfl

/-- A command whose result is an error leaves variant and configuration, `CONFIGURE` apart, and all but `INIT` leave the reset
output (60_exceptions.md R235). -/
theorem Ran.error_frame {s t : State} {i : Instr} {c : HostOp} {e : Error} (h : Ran p s i t) (hi : i.hostOp = some c)
    (hc : c ≠ .configure) (he : Reports c (.err e) s t) :
    t.variant = s.variant ∧ t.config = s.config ∧ (c ≠ .init → t.rstLevel = s.rstLevel) := by
  cases h with
  | initOk v l ri d xi es =>
    cases hi
    cases he.unique (es := resetPulse ++ es) rfl
  | initError v =>
    cases hi
    exact ⟨rfl, rfl, fun hinit => absurd rfl hinit⟩
  | configureOk cfg => cases hi; exact absurd rfl hc
  | configureError cfg => cases hi; exact absurd rfl hc
  | _ => exact ⟨rfl, rfl, fun _ => rfl⟩

/-! ### The statements -/

/-- Settles O32. -/
theorem commandsReportOnceAndFollowTheTable : Obligations.CommandsReportOnceAndFollowTheTable := by
  refine ⟨fun i c s t hi h => ?_, fun s t v limit last hw h => ?_⟩
  · refine ((exec_ran h).2.reports hi).imp_right fun ⟨hcmd, q, ⟨es, ht, quiet⟩, life⟩ => ?_
    exact ⟨hcmd, es, q, ht, quiet, life⟩
  · rw [step_waiting hw] at h
    obtain ⟨⟨life, -⟩, ends⟩ := acquireFromWait_reports v limit last s t (Host.Outcome.next.inj h).symm
    refine ends.imp (fun ⟨hcmd, ht, _⟩ => ⟨hcmd, life, ht⟩) fun ⟨hcmd, q, ⟨es, ht, quiet⟩, _⟩ => ?_
    exact ⟨hcmd, life, es, q, ht, quiet⟩

/-- Settles O33: the command has reported, and the result it reported is the error. -/
theorem errorsLeaveTheBlockState : Obligations.ErrorsLeaveTheBlockState := by
  refine ⟨fun i c s t es e hi hc h ht => ?_, fun s t v limit last es e hw h ht => ?_⟩
  · have ran := (exec_ran h).2
    rcases ran.reports hi with ⟨-, -, -, same⟩ | ⟨-, q, reports, life⟩
    · simp [same] at ht
    · obtain rfl := reports.unique ht
      obtain ⟨variant, config, rst⟩ := ran.error_frame hi hc reports
      exact ⟨life.trans (lifeAfter_error hc _), variant, config, rst⟩
  · rw [step_waiting hw] at h
    obtain ⟨⟨life, variant, config, rst⟩, ends⟩ := acquireFromWait_reports v limit last s t (Host.Outcome.next.inj h).symm
    refine ⟨life, variant, config, rst, ?_⟩
    rcases ends with ⟨-, -, out⟩ | ⟨-, q, reports, ok | out⟩
    · exact out
    · cases ok.symm.trans (reports.unique ht)
    · exact out

end Sys2Proof.Machine
end

section
/-! SUPPORT. The LFSR (45_lfsr.md R210 to R213): its recurrence as a number, at any taps; its period; and the block at any values of
the open parameters. -/

namespace Sys2Proof.Machine

open Sys2Proof.Config

variable {p : Params}

/-! ### The recurrence as a number -/

/-- Bit 11 of the shifted words XOR-ed is the parity of the tapped bits (45_lfsr.md R210). -/
theorem foldl_taps_getLsbD {taps : List Nat} (ht : ∀ k ∈ taps, k ≤ 11) (c acc : BitVec 16) :
    (taps.foldl (fun fb k => fb ^^^ (c <<< (11 - k))) acc).getLsbD 11 =
      decide (((acc.getLsbD 11).toNat + (taps.map fun k => c.toNat / 2 ^ k).sum) % 2 = 1) := by
  induction taps generalizing acc with
  | nil => cases h : acc.getLsbD 11 <;> simp_all
  | cons k taps ih =>
    have hk : k ≤ 11 := ht k (by simp)
    have bit : (acc ^^^ (c <<< (11 - k))).getLsbD 11 = (acc.getLsbD 11 ^^ c.getLsbD k) := by
      rw [BitVec.getLsbD_xor, BitVec.getLsbD_shiftLeft, show 11 - (11 - k) = k by omega]
      simp
    have tapped : c.getLsbD k = decide (c.toNat / 2 ^ k % 2 = 1) := by
      rw [BitVec.getLsbD, Nat.testBit_eq_decide_div_mod_eq]
    rw [List.foldl_cons, ih (fun j hj => ht j (by simp [hj])), bit, tapped, List.map_cons, List.sum_cons]
    rcases Nat.mod_two_eq_zero_or_one (c.toNat / 2 ^ k) with h | h <;> cases acc.getLsbD 11 <;>
      simp only [h, decide_eq_decide] <;> simp <;> omega

/-- Bit 11 of a word by itself. -/
theorem and_bit11 (x : BitVec 16) : x &&& 0x0800 = if x.getLsbD 11 then 0x0800 else 0 := BitVec.and_twoPow x 11

/-- The feedback is bit 11 set to the parity of the tapped bits (45_lfsr.md R210). -/
theorem lfsrFeedback_eq {taps : List Nat} (ht : ∀ k ∈ taps, k ≤ 11) (c : BitVec 16) :
    lfsrFeedback taps c = if (taps.map fun k => c.toNat / 2 ^ k).sum % 2 = 1 then 0x0800 else 0 := by
  rw [lfsrFeedback, and_bit11, foldl_taps_getLsbD ht]
  simp

/-- Bit 11 is free in the half of a 12-bit word. -/
theorem half_and_bit11 {c : BitVec 16} (hc : c.toNat ≤ 0x0FFF) : (c >>> 1) &&& 0x0800 = 0 := by
  have clear : (c >>> 1).getLsbD 11 = false := by
    rw [BitVec.getLsbD_ushiftRight, BitVec.getLsbD]
    exact Nat.testBit_lt_two_pow (by omega)
  rw [and_bit11, clear]
  rfl

/-- Words that share no bit are combined alike by OR, XOR and addition. -/
theorem or_xor_eq_add_of_and_eq_zero {x y : BitVec 16} (h : x &&& y = 0) : x ||| y = x + y ∧ x ^^^ y = x + y := by
  have sum := BitVec.add_eq_or_of_and_eq_zero x y h
  refine ⟨sum.symm, sum ▸ ?_⟩
  ext i hi
  have := congrArg (fun z : BitVec 16 => z[i]) h
  simp only [BitVec.getElem_and, BitVec.ofNat_eq_ofNat, BitVec.getElem_zero] at this
  rw [BitVec.getElem_xor, BitVec.getElem_or]
  revert this
  cases x[i] <;> cases y[i] <;> simp

/-- `NEXT` of a 12-bit word: its half, and the parity of the tapped bits in bit 11, which is free in the half, so that it does not
matter how the two are combined (45_lfsr.md R210, 93_implementation_defined.md U9). -/
theorem lfsrNext_toNat (ht : ∀ k ∈ p.lfsrTaps, k ≤ 11) {c : BitVec 16} (hc : c.toNat ≤ 0x0FFF) :
    (lfsrNext p c).toNat = c.toNat / 2 + (p.lfsrTaps.map fun k => c.toNat / 2 ^ k).sum % 2 * 2048 := by
  have half : (c >>> 1).toNat = c.toNat / 2 := by rw [BitVec.toNat_ushiftRight, Nat.shiftRight_eq_div_pow, Nat.pow_one]
  have free : (c >>> 1) &&& lfsrFeedback p.lfsrTaps c = 0 := by
    rw [lfsrFeedback_eq ht]
    split
    exacts [half_and_bit11 hc, BitVec.and_zero]
  obtain ⟨or_add, xor_add⟩ := or_xor_eq_add_of_and_eq_zero free
  have added : lfsrNext p c = (c >>> 1) + lfsrFeedback p.lfsrTaps c := by
    unfold lfsrNext
    cases p.lfsrCombine
    exacts [or_add, xor_add]
  rw [added, lfsrFeedback_eq ht, BitVec.toNat_add, half]
  rcases Nat.mod_two_eq_zero_or_one (p.lfsrTaps.map fun k => c.toNat / 2 ^ k).sum with h | h <;> simp [h] <;> omega

/-! ### `NEXT` at the spec taps as a permutation of numbers (log entry 5) -/

/-- `NEXT` at the spec taps on 12-bit words as numbers: `lfsrNext_params_toNat`. -/
def nextNumber (c : Nat) : Nat := c / 2 + (c + c / 2 + c / 4 + c / 256) % 2 * 2048

theorem lfsrNext_params_toNat {c : BitVec 16} (hc : c.toNat ≤ 0x0FFF) : (lfsrNext params c).toNat = nextNumber c.toNat := by
  rw [lfsrNext_toNat (by decide) hc]
  simp [params, nextNumber, Nat.add_assoc]

theorem half_lt {c : Nat} (hc : c ≤ 0x0FFF) : c / 2 < 2048 := by omega

theorem nextNumber_le {c : Nat} (hc : c ≤ 0x0FFF) : nextNumber c ≤ 0x0FFF := by
  have half := half_lt hc
  have parity := Nat.mod_lt (c + c / 2 + c / 4 + c / 256) (show 0 < 2 by decide)
  rw [nextNumber]
  omega

/-- A 12-bit number is its bit 11 and the rest. -/
theorem bit11_unique {h h' b b' : Nat} (lt : h < 2048) (lt' : h' < 2048) (eq : h + b * 2048 = h' + b' * 2048) :
    h = h' ∧ b = b' := by omega

theorem div_eq_of_half_eq {c d : Nat} (half : c / 2 = d / 2) : c / 4 = d / 4 ∧ c / 256 = d / 256 := by omega

theorem mod_two_of_parity {c d x : Nat} (h : (c + x) % 2 = (d + x) % 2) : c % 2 = d % 2 := by omega

/-- The half of a number gives all its bits but the lowest, and the parity of the tapped bits then gives that one. -/
theorem nextNumber_injective {c d : Nat} (hc : c ≤ 0x0FFF) (hd : d ≤ 0x0FFF) (h : nextNumber c = nextNumber d) : c = d := by
  rw [nextNumber, nextNumber] at h
  obtain ⟨half, parity⟩ := bit11_unique (half_lt hc) (half_lt hd) h
  obtain ⟨quarter, last⟩ := div_eq_of_half_eq half
  simp only [half, quarter, last, Nat.add_assoc] at parity
  rw [← Nat.div_add_mod c 2, ← Nat.div_add_mod d 2, half, mod_two_of_parity parity]

theorem div_of_double {h l : Nat} (hl : l < 2) :
    (2 * h + l) / 2 = h ∧ (2 * h + l) / 4 = h / 2 ∧ (2 * h + l) / 256 = h / 128 := by omega

theorem exists_bit_of_parity (x : Nat) {b : Nat} (hb : b < 2) : ∃ l < 2, (l + x) % 2 = b :=
  ⟨(b + x) % 2, by omega, by omega⟩

theorem double_le {h l : Nat} (hh : h < 2048) (hl : l < 2) : 2 * h + l ≤ 0x0FFF := by omega

/-- Every 12-bit number is reached: twice its low bits, with the lowest bit that gives its bit 11 as parity. -/
theorem nextNumber_surjective {d : Nat} (hd : d ≤ 0x0FFF) : ∃ c ≤ 0x0FFF, nextNumber c = d := by
  have hb : d / 2048 < 2 := by omega
  obtain ⟨l, hl, parity⟩ := exists_bit_of_parity (2 * (d % 2048) + (d % 2048 + (d % 2048 / 2 + d % 2048 / 128))) hb
  obtain ⟨half, quarter, last⟩ := div_of_double (h := d % 2048) hl
  refine ⟨2 * (d % 2048) + l, double_le (Nat.mod_lt _ (by decide)) hl, ?_⟩
  rw [nextNumber, half, quarter, last, Nat.add_comm _ l, Nat.add_assoc, Nat.add_assoc, Nat.add_assoc, parity,
    Nat.mod_add_div' d 2048]

/-! ### The period -/

/-- The words reached from the golden seed as numbers (45_lfsr.md R213). -/
theorem repeat_lfsrNext_toNat (n : Nat) :
    (Nat.repeat (lfsrNext params) n params.lfsrSeed).toNat = nextNumber^[n] 1 ∧
      (Nat.repeat (lfsrNext params) n params.lfsrSeed).toNat ≤ 0x0FFF := by
  induction n with
  | zero => exact ⟨rfl, by decide⟩
  | succ n ih =>
    obtain ⟨word, small⟩ := ih
    have next : (Nat.repeat (lfsrNext params) (n + 1) params.lfsrSeed).toNat =
        nextNumber (Nat.repeat (lfsrNext params) n params.lfsrSeed).toNat := lfsrNext_params_toNat small
    exact ⟨by rw [next, word, Function.iterate_succ_apply'], next ▸ nextNumber_le small⟩

/-- Every 45th word of the golden sequence, from the seed on: the whole period of 4095 words in pieces that are checked one by
one. -/
def goldenWords : List Nat := [1, 3107, 514, 2528, 1095, 2332, 3649, 518, 3339, 2635, 1213, 917, 3408, 1741, 1115, 1934, 1126, 611, 3111, 1769, 2028, 2534, 1224,
  279, 2496, 795, 2424, 846, 3238, 1978, 1151, 1081, 2574, 717, 3923, 782, 542, 1906, 3680, 2425, 3949, 3748, 3674, 56, 3365, 1103,
  203, 600, 2373, 1699, 1255, 816, 4020, 2870, 2346, 2620, 603, 258, 678, 1831, 3006, 3469, 1972, 3367, 43, 1740, 2168, 1420, 3462,
  1572, 1339, 2216, 1514, 1261, 3715, 1450, 2645, 3659, 4021, 1813, 2856, 988, 1564, 2078, 3303, 1313, 1717, 1990, 777, 3762, 3451, 1]

theorem goldenWords_step : ∀ j < 13, ∀ i < 7,
    nextNumber^[45] (goldenWords.getD (7 * j + i) 0) = goldenWords.getD (7 * j + i + 1) 0 := by decide

theorem iterate_nextNumber (i : Nat) (hi : i ≤ 91) : nextNumber^[45 * i] 1 = goldenWords.getD i 0 := by
  induction i with
  | zero => rfl
  | succ i ih =>
    have piece := goldenWords_step (i / 7) (by omega) (i % 7) (by omega)
    rw [Nat.div_add_mod] at piece
    rw [show 45 * (i + 1) = 45 + 45 * i by omega, Function.iterate_add_apply, ih (by omega), piece]

/-- The golden sequence comes back after 4095 words, and not after a third, a fifth, a seventh or a thirteenth of them. -/
theorem golden_period : nextNumber^[4095] 1 = 1 ∧
    nextNumber^[1365] 1 ≠ 1 ∧ nextNumber^[819] 1 ≠ 1 ∧ nextNumber^[585] 1 ≠ 1 ∧ nextNumber^[315] 1 ≠ 1 := by
  refine ⟨?_, ?_, ?_, ?_, ?_⟩
  · rw [show 4095 = 45 * 91 from rfl, iterate_nextNumber 91 (by decide)]
    rfl
  · rw [show 1365 = 15 + 45 * 30 from rfl, Function.iterate_add_apply, iterate_nextNumber 30 (by decide)]
    decide
  · rw [show 819 = 9 + 45 * 18 from rfl, Function.iterate_add_apply, iterate_nextNumber 18 (by decide)]
    decide
  · rw [show 585 = 45 * 13 from rfl, iterate_nextNumber 13 (by decide)]
    decide
  · rw [show 315 = 45 * 7 from rfl, iterate_nextNumber 7 (by decide)]
    decide

/-- A proper divisor of 4095 divides one of its four maximal ones, since its prime factors are 3, 5, 7 and 13. -/
theorem dvd_of_dvd_4095 {g : Nat} (h : g ∣ 4095) (lt : g < 4095) : g ∣ 1365 ∨ g ∣ 819 ∨ g ∣ 585 ∨ g ∣ 315 := by
  obtain ⟨m, hm⟩ := h
  have hm1 : m ≠ 1 := by rintro rfl; omega
  obtain ⟨q, hq, m', rfl⟩ := Nat.exists_prime_and_dvd hm1
  have hdvd : q ∣ 3 * 3 * 5 * 7 * 13 := ⟨g * m', by linarith⟩
  have factor : ∀ r, Nat.Prime r → q ∣ r → q = r := fun r hr h => (Nat.prime_dvd_prime_iff_eq hq hr).mp h
  simp only [hq.dvd_mul] at hdvd
  rcases hdvd with (((h | h) | h) | h) | h
  · obtain rfl := factor 3 (by norm_num) h
    exact .inl ⟨m', by linarith⟩
  · obtain rfl := factor 3 (by norm_num) h
    exact .inl ⟨m', by linarith⟩
  · obtain rfl := factor 5 (by norm_num) h
    exact .inr (.inl ⟨m', by linarith⟩)
  · obtain rfl := factor 7 (by norm_num) h
    exact .inr (.inr (.inl ⟨m', by linarith⟩))
  · obtain rfl := factor 13 (by norm_num) h
    exact .inr (.inr (.inr ⟨m', by linarith⟩))

/-- The golden sequence comes back no sooner: else it would after a proper divisor of 4095. -/
theorem golden_period_minimal {k : Nat} (pos : 0 < k) (lt : k < 4095) : nextNumber^[k] 1 ≠ 1 := by
  intro back
  obtain ⟨whole, third, fifth, seventh, thirteenth⟩ := golden_period
  have common : Function.IsPeriodicPt nextNumber (k.gcd 4095) 1 := Function.IsPeriodicPt.gcd back whole
  have small : k.gcd 4095 < 4095 := Nat.lt_of_le_of_lt (Nat.gcd_le_left _ pos) lt
  rcases dvd_of_dvd_4095 (Nat.gcd_dvd_right k 4095) small with h | h | h | h
  exacts [third (common.trans_dvd h), fifth (common.trans_dvd h), seventh (common.trans_dvd h), thirteenth (common.trans_dvd h)]

/-! ### The statements -/

/-- Settles O48. -/
theorem nextTestWordIsPure : Obligations.NextTestWordIsPure := by
  intro s w hcmd
  rw [exec_eq_execWith, execWith_nextTestWord hcmd, finish_ok_of_cmd_none _ _ _ hcmd, emit]

/-- Settles O49. -/
theorem lfsrRecurrence : Obligations.LfsrRecurrence :=
  fun c => ⟨by simp [lfsrNext, lfsrFeedback, params], lfsrNext_params_toNat⟩

/-- Settles O50, from the map on numbers. -/
theorem lfsrPermutesTwelveBitWords : Obligations.LfsrPermutesTwelveBitWords := by
  refine ⟨fun c hc => lfsrNext_params_toNat hc ▸ nextNumber_le hc, fun c d hc hd h => ?_, fun d hd => ?_⟩
  · have same := congrArg BitVec.toNat h
    rw [lfsrNext_params_toNat hc, lfsrNext_params_toNat hd] at same
    exact BitVec.eq_of_toNat_eq (nextNumber_injective hc hd same)
  · obtain ⟨c, hc, next⟩ := nextNumber_surjective hd
    have word : (BitVec.ofNat 16 c).toNat = c := by
      rw [BitVec.toNat_ofNat, Nat.mod_eq_of_lt (Nat.lt_of_le_of_lt hc (by decide))]
    have small : (BitVec.ofNat 16 c).toNat ≤ 0x0FFF := by rw [word]; exact hc
    exact ⟨BitVec.ofNat 16 c, small, BitVec.eq_of_toNat_eq (by rw [lfsrNext_params_toNat small, word, next])⟩

/-- Settles O51: the period divides 4095 and is no proper divisor of it. -/
theorem lfsrPeriodIsMaximal : Obligations.LfsrPeriodIsMaximal := by
  refine ⟨BitVec.eq_of_toNat_eq ?_, fun k pos lt back => golden_period_minimal pos lt ?_⟩
  · exact (repeat_lfsrNext_toNat 4095).1.trans golden_period.1
  · rw [← (repeat_lfsrNext_toNat k).1, back]
    rfl

/-- Settles O52: the lemmas about the four commands hold at any parameters. -/
theorem otherParameterValuesRun : Obligations.OtherParameterValuesRun := by
  intro p s hcmd
  refine ⟨fun v q R X hl hr hx hg accepted => execWith_init_accepted v hcmd hl hr hx hg accepted,
    fun v cfg q1 q2 q3 q4 q5 fails qs X hl hv formed valid hx reset all hq h4 h5 =>
      execWith_configure_arms hcmd hl hv formed valid hx reset all hq h4 h5,
    fun v cfg cmd rx out n m rest X hl hv hc hlen hout hirq hx hrx hg => ?_, fun w hw ht => ?_⟩
  · obtain ⟨mem, inside, outside, run⟩ := execWith_acquireFifo_frame hcmd hl hv hc hlen hout hirq hx hrx hg
    exact ⟨burstWord p v, mem, burstWord_toNat v, inside, outside, run⟩
  · refine ⟨lfsrNext p w, lfsrNext_toNat ht hw, ?_⟩
    rw [execWith_nextTestWord hcmd, finish_ok_of_cmd_none _ _ _ hcmd, emit]

end Sys2Proof.Machine
end
